-- ==== Sys2Proof/Word.lean ====
section
/-! DEFINITION. The byte and the fixed-length byte sequences the core works on (00_scope.md rules R8, R10). -/

namespace Sys2Proof

/-- A byte, bit 0 least significant (R10). -/
abbrev Byte := BitVec 8

/-- The 4-byte word of the key schedule: a sequence of four bytes, never one integer (R53). -/
abbrev Word4 := Vector Byte 4

/-- A 16-byte block (R8, R16). -/
abbrev Block := Vector Byte 16

/-- The 32 bytes of the key port and of `KEYREG` (R25). -/
abbrev KeyBytes := Vector Byte 32

/-- Elementwise exclusive-or of two byte sequences of equal length (R11). -/
def xorBytes {n : Nat} (a b : Vector Byte n) : Vector Byte n :=
  Vector.ofFn fun i : Fin n => a[i] ^^^ b[i]

end Sys2Proof
end

