-- ==== Sys2Proof/Config.lean ====
section
/-! DEFINITION. Open parameters of the spec (00_scope.md rule R9) and the free values: constants without a body, so that
nothing can be proved of what they are. -/

namespace Sys2Proof

/-- One less than `LAT` (R9, R224): no body. No rule reads it (log 13). -/
opaque Config.latencyPred : (dir : Bool) → (keySize : Nat) → Nat

/-- `LAT(DIR, keySize)`: clock cycles from an accepted start to `done`, at least 1 (R224). No rule reads it. -/
def Config.LAT (dir : Bool) (keySize : Nat) : Nat := Config.latencyPred dir keySize + 1

/-- One less than `NINST` (R9): no body. -/
opaque Config.instanceCountPred : Nat

/-- `NINST`: how many independent cores a chip holds, at least 1 (R198). No rule of one core reads it. -/
def Config.NINST : Nat := Config.instanceCountPred + 1

/-- The bits behind the `undef` mark of `ST` after a completion step (R38, 93 U14): a free value (log 6). -/
opaque Config.discardedST : Nat → Block

/-- The bits behind the `undef` mark of `KEYREG` after a completion step: a free value (log 6). -/
opaque Config.discardedKEYREG : Nat → KeyBytes

/-- The bits behind the `undef` mark of `DINREG` after a completion step: a free value (log 6). -/
opaque Config.discardedDINREG : Nat → Block

/-- The bits behind the `undef` mark of `T` after a completion step: a free value (log 6). -/
opaque Config.discardedT : Nat → Word4

/-- The number behind the `undef` mark of `OFF` after a completion step: a free value, 0 to 240 (R20; log 6). -/
opaque Config.discardedOFF : Nat → Fin 241

/-- One less than the number behind the `undef` mark of `RCI` after a completion step: a free value (log 6). -/
opaque Config.discardedRCIPred : Nat → Fin 15

/-- What port `dout` shows of a byte of `DOUT` that is `undef` (93 U2): a free value, anew at every step (log 7). -/
opaque Config.undefDout : Nat → Block

/-- Output of the round-constant ROM for address 15 (R96, "unspecified and never used"): a free value (log 10). -/
opaque Config.rcData15 : Byte

/-- Contents of `XK` when the micro-op-level entry point places a word (log 9): a free value. -/
opaque Config.placedXK : Nat → Nat → Byte

end Sys2Proof
end

