-- ==== Sys2Proof/Syntax.lean ====
section
/-! DEFINITION. The instructions: one constructor per row of spec/opcode_table.json (30_encoding.md rules R75, R76, R83). -/

namespace Sys2Proof

/-- The two word formats (R70): `H` the host command word on port `cmd`, `M` the micro-operation word. -/
inductive Format where
  | H
  | M
deriving DecidableEq, Repr

/-- Every mnemonic of the opcode table. A format M operand is the field `ARG` as it stands (R74), a format H operand the
field `KEYLEN` (R71); which values are legal is `Instr.wf`. -/
inductive Instr where
  | addRoundKey (r : BitVec 4)
  | subBytes
  | invSubBytes
  | shiftRows
  | invShiftRows
  | mixColumns
  | invMixColumns
  | shiftRow (n : BitVec 4)
  | invShiftRow (n : BitVec 4)
  | expand
  | loadState
  | storeOut
  | encryptBlock (nr : BitVec 4)
  | decryptBlock (nr : BitVec 4)
  | encrypt (keylen : BitVec 7)
  | decrypt (keylen : BitVec 7)
deriving DecidableEq, Repr

/-- The format of an instruction's word (R70). -/
def Instr.format : Instr → Format
  | .encrypt _ => .H
  | .decrypt _ => .H
  | .addRoundKey _ => .M
  | .subBytes => .M
  | .invSubBytes => .M
  | .shiftRows => .M
  | .invShiftRows => .M
  | .mixColumns => .M
  | .invMixColumns => .M
  | .shiftRow _ => .M
  | .invShiftRow _ => .M
  | .expand => .M
  | .loadState => .M
  | .storeOut => .M
  | .encryptBlock _ => .M
  | .decryptBlock _ => .M

end Sys2Proof
end

