-- ==== Sys2Proof/Machine/State.lean ====
section
/-! DEFINITION. The state of one core (10_state.md rule R20), the ports the host drives, and the reasons a step can stop. -/

namespace Sys2Proof.Machine

open Sys2Proof

/-- A location: the bits it holds and the spec's mark whether it holds a value (`known`) or is `undef` (R12, R41). Where
`known` is false no rule reads `val` (R41). The pair is the model's form of it (log 3). -/
structure Slot (α : Type) where
  val : α
  known : Bool
deriving DecidableEq, Repr

/-- The cells of the expanded-key store `XK`, addresses strictly rising. An address that is not listed is `undef`: it has no
value and reading it is refused (R41). The list is the model's form of it (log 5). -/
abbrev Memory := List Host.Cell

/-- `STATUS` (R29). -/
structure Status where
  busy : Bool
  done : Bool
  err : BitVec 2
deriving DecidableEq, Repr

/-- The values on the input ports at one clock edge (R31), wide ports as wires (R52). -/
structure Ports where
  rst : Bool
  start : Bool
  cmd : Byte
  keyIn : BitVec 256
  din : BitVec 128
deriving DecidableEq, Repr

/-- The state. `st` to `upc` are the spec's (R20); `ports` are the values the host drives now; `host`, `uopIn` and `tick` are
the model's own (log 2, log 8, log 6). -/
structure State where
  /-- `ST[0..15]` (R21). -/
  st : Vector (Slot Byte) 16
  /-- `XK[0..239]` (R23). -/
  xk : Memory
  /-- `T[0..3]` (R22). -/
  t : Slot Word4
  /-- `OFF` (R22). -/
  off : Slot Nat
  /-- `RCI` (R22). -/
  rci : Slot Nat
  /-- `KEYREG[0..31]` (R25). -/
  keyreg : Vector (Slot Byte) 32
  /-- `DINREG[0..15]` (R26). -/
  dinreg : Vector (Slot Byte) 16
  /-- `CMDREG` (R27). -/
  cmdreg : Slot Byte
  /-- `DOUT[0..15]` (R28). -/
  dout : Vector (Slot Byte) 16
  /-- `STATUS` (R29). -/
  status : Status
  /-- `UPC` (R30). -/
  upc : Nat
  /-- The input ports at this clock edge (R31). -/
  ports : Ports
  /-- The input ports at the following clock edges, the next one first (log 2). -/
  host : List Ports
  /-- Format M words driven at the micro-op-level entry point, the next one first; empty in the hardware (log 8). -/
  uopIn : List Byte
  /-- Counts steps; the free values are applied to it (log 6). -/
  tick : Nat
deriving DecidableEq, Repr

/-- The address spaces (R50). -/
inductive Space where
  | sbox
  | isbox
  | rcon
  | xk
  | st
  | keyreg
  | dinreg
  | dout
deriving DecidableEq, Repr

/-- The exceptions of R185. A core never stops with one: it reports `InvalidKeySize` in `STATUS` and goes on (R191), so no step
answers a fault. The pure functions of R170 answer them. -/
inductive Fault where
  /-- "key length is not one of {16,24,32}" (R186): answered by `encryptFn` and `decryptFn`, and the code a rejected start
  writes. Safe: the spec gives it. -/
  | invalidKeySize
  /-- "input/output buffer length ≠ 16 bytes" (R187): answered by `encryptFn` and `decryptFn` only. Safe: the spec gives it. -/
  | invalidBlockLength
deriving DecidableEq, Repr

/-- Steps to which the spec gives no meaning (R201 b). All are safe: the model stops where the spec says a model stops. -/
inductive Refusal where
  /-- An instruction without a meaning in this model: answered by no arm. Safe. -/
  | notModelled (mnemonic : String)
  /-- The sequencer was driven with an illegal format M word (R77): raised by the step. Safe. -/
  | illegalUopWord (w : Byte)
  /-- An operand outside the static legal set of R74: raised by a meaning given an instruction that no word decodes to. Safe. -/
  | illegalOperand
  /-- A micro-op while `BUSY = 0` (93 U5): raised by every micro-op. Safe. -/
  | notBusy
  /-- A micro-op while `CMDREG` is `undef` (93 U5): raised by every micro-op and by the sequencer. Safe. -/
  | undefCommand
  /-- `CMDREG` holds a key length that is none of 16, 24, 32, so that `Nr` has no value (R27): raised by the sequencer and by
  the micro-ops that use `keySize` or `Nr`. Safe. -/
  | commandKeyLength
  /-- `addRoundKey r` with `r > Nr` (R79): raised by `addRoundKey`. Safe. -/
  | roundKeyAboveNr (r : Nat)
  /-- `encryptBlock` or `decryptBlock` with an operand other than `Nr` (R79): raised by those two. Safe. -/
  | roundCountMismatch (nr : Nat)
  /-- A read of an `undef` location: raised by `memRead`. Safe: R41 orders it ("a model refuses the step"), as do R61, R62,
  R201 (b) and 93 U2. -/
  | undefRead (space : Space) (addr : Nat)
  /-- A read of `OFF` or `RCI` while `undef` (R41): raised by the word loop of `expand`. Safe. -/
  | undefCounter
  /-- An access outside a space (R62): raised by `memRead` and `memWrite`. Safe. -/
  | outOfRange (space : Space) (addr : Nat)
  /-- A write to a ROM (R61): raised by `memWrite`. Safe. -/
  | romWrite (space : Space)
  /-- `roundConstant(i)` for `i = 0` or `i ≥ 15` (R95): raised by `roundConstant`. Safe. -/
  | roundConstantIndex (i : Nat)
  /-- `Expand` on a key of illegal length (R110): raised by `expandFn`. Safe. -/
  | expandKeyLength (n : Nat)
  /-- A slice of a byte sequence beyond its end (R61): raised by `sliceOf`. Safe. -/
  | sliceRange (addr : Nat)
  /-- `UPC` above the length of the micro-program (R30, "cannot exceed"): raised by the sequencer. Safe. -/
  | noUopAtIndex (upc : Nat)
deriving DecidableEq, Repr

/-- The outcome of a step of this machine. -/
abbrev Result := Host.Outcome State Fault Refusal

/-- A location that holds no value, with `x` behind the mark (R41). -/
def Slot.undef {α : Type} (x : α) : Slot α := ⟨x, false⟩

/-- A location that holds `x`. -/
def Slot.hold {α : Type} (x : α) : Slot α := ⟨x, true⟩

/-- Ports with nothing asserted (log 2). -/
def Ports.idle : Ports := ⟨false, false, 0, 0, 0⟩

/-- The machine right after a reset step (R39): `STATUS` and `UPC` 0, every data register `undef`. The values behind the marks
are the model's (log 4); the ports and the model's own fields are log 2, log 6, log 8. -/
def State.reset : State where
  st := Vector.replicate 16 (Slot.undef 0)
  xk := []
  t := Slot.undef (Vector.replicate 4 0)
  off := Slot.undef 0
  rci := Slot.undef 1
  keyreg := Vector.replicate 32 (Slot.undef 0)
  dinreg := Vector.replicate 16 (Slot.undef 0)
  cmdreg := Slot.undef 0
  dout := Vector.replicate 16 (Slot.undef 0)
  status := ⟨false, false, 0⟩
  upc := 0
  ports := Ports.idle
  host := []
  uopIn := []
  tick := 0

end Sys2Proof.Machine
end

