-- ==== Sys2Proof/Machine/Flags.lean ====
section
/-! DEFINITION. `STATUS` (10_state.md rules R29, R33): its bits and its four writers. No micro-op sets or reads a flag. -/

namespace Sys2Proof.Machine

open Sys2Proof

/-- The error code of an exception (R185). -/
def Fault.code : Fault → BitVec 2
  | .invalidKeySize => 1
  | .invalidBlockLength => 2

/-- `STATUS` as a number: `BUSY` bit 0, `DONE` bit 1, `ERR` bits 3:2 (R29). -/
def Status.word (x : Status) : BitVec 4 := x.err ++ BitVec.ofBool x.done ++ BitVec.ofBool x.busy

/-- An accepted start: `ERR <- 0`, `DONE <- 0`, `BUSY <- 1` (R167). -/
def Status.accepted : Status := ⟨true, false, 0⟩

/-- A rejected start: `ERR <- code`, `DONE <- 1`, `BUSY` unchanged (R168, R191). -/
def Status.rejected (x : Status) (e : Fault) : Status := { x with done := true, err := e.code }

/-- The completion step: `BUSY <- 0`, `DONE <- 1` (R30). -/
def Status.completed (x : Status) : Status := { x with busy := false, done := true }

end Sys2Proof.Machine
end

