-- ==== Sys2Proof/WellFormed.lean ====
section
/-! DEFINITION. Static legality of operands (30_encoding.md rules R74, R77). -/

namespace Sys2Proof

/-- Legal round-key number of `addRoundKey`: 0 to 14 (R74). -/
def legalRoundKeyArg (r : BitVec 4) : Bool := r.toNat ≤ 14

/-- Legal row number: 0 to 3 (R74). -/
def legalRowArg (n : BitVec 4) : Bool := n.toNat ≤ 3

/-- Legal round count: 10, 12 or 14 (R74). -/
def legalRoundCountArg (nr : BitVec 4) : Bool := nr == 10 || nr == 12 || nr == 14

/-- An instruction is well formed when its operand is in the legal set of R74. Every `KEYLEN` is well formed: an illegal
key length is an error of the start step, not of the encoding (R71, R85). -/
def Instr.wf : Instr → Bool
  | .addRoundKey r => legalRoundKeyArg r
  | .shiftRow n => legalRowArg n
  | .invShiftRow n => legalRowArg n
  | .encryptBlock nr => legalRoundCountArg nr
  | .decryptBlock nr => legalRoundCountArg nr
  | .subBytes => true
  | .invSubBytes => true
  | .shiftRows => true
  | .invShiftRows => true
  | .mixColumns => true
  | .invMixColumns => true
  | .expand => true
  | .loadState => true
  | .storeOut => true
  | .encrypt _ => true
  | .decrypt _ => true

end Sys2Proof
end

