-- ==== Sys2Proof/Decode.lean ====
section
/-! DEFINITION. Decoding and encoding of both formats (30_encoding.md rules R70 to R85) and the opcode table's match and mask
values (R83). -/

namespace Sys2Proof

/-- Field `UOP` of a format M word (R73). -/
def uopField (w : Byte) : BitVec 4 := w.extractLsb' 4 4

/-- Field `ARG` of a format M word (R73). -/
def argField (w : Byte) : BitVec 4 := w.extractLsb' 0 4

/-- Field `DIR` of a format H word (R71): true is 1, `decrypt`. -/
def dirField (w : Byte) : Bool := w.getLsbD 7

/-- Field `KEYLEN` of a format H word (R71). -/
def keylenField (w : Byte) : BitVec 7 := w.extractLsb' 0 7

/-- `some i` when an operand check holds, else "illegal micro-op word" (R85). -/
def whenLegal (ok : Bool) (i : Instr) : Option Instr := if ok then some i else none

/-- Decoding of a format M word, total on all 256 words (R85); `none` is "illegal micro-op word" (R77). -/
def decodeM (w : Byte) : Option Instr :=
  let a := argField w
  match (uopField w).toNat with
  | 1 => whenLegal (legalRoundKeyArg a) (.addRoundKey a)
  | 2 => whenLegal (a == 0) .subBytes
  | 3 => whenLegal (a == 0) .invSubBytes
  | 4 => whenLegal (a == 0) .shiftRows
  | 5 => whenLegal (a == 0) .invShiftRows
  | 6 => whenLegal (a == 0) .mixColumns
  | 7 => whenLegal (a == 0) .invMixColumns
  | 8 => whenLegal (legalRowArg a) (.shiftRow a)
  | 9 => whenLegal (legalRowArg a) (.invShiftRow a)
  | 10 => whenLegal (a == 0) .expand
  | 11 => whenLegal (a == 0) .loadState
  | 12 => whenLegal (a == 0) .storeOut
  | 13 => whenLegal (legalRoundCountArg a) (.encryptBlock a)
  | 14 => whenLegal (legalRoundCountArg a) (.decryptBlock a)
  | _ => none

/-- Decoding of a format H word, total on all 256 words: always a command (R85). -/
def decodeH (w : Byte) : Instr :=
  if dirField w then .decrypt (keylenField w) else .encrypt (keylenField w)

/-- Decoding by the position of the word: port `cmd` is format H, the sequencer's word is format M (R70). -/
def decode (f : Format) (w : Byte) : Option Instr :=
  match f with
  | .H => some (decodeH w)
  | .M => decodeM w

/-- A format M word from its two fields (R73). -/
def wordM (uop arg : BitVec 4) : Byte := uop ++ arg

/-- A format H word from its two fields (R71). -/
def wordH (dir : BitVec 1) (keylen : BitVec 7) : Byte := dir ++ keylen

/-- The word of an instruction (R71, R73, R75, R76). -/
def encode : Instr → Byte
  | .addRoundKey r => wordM 0x1 r
  | .subBytes => wordM 0x2 0
  | .invSubBytes => wordM 0x3 0
  | .shiftRows => wordM 0x4 0
  | .invShiftRows => wordM 0x5 0
  | .mixColumns => wordM 0x6 0
  | .invMixColumns => wordM 0x7 0
  | .shiftRow n => wordM 0x8 n
  | .invShiftRow n => wordM 0x9 n
  | .expand => wordM 0xa 0
  | .loadState => wordM 0xb 0
  | .storeOut => wordM 0xc 0
  | .encryptBlock nr => wordM 0xd nr
  | .decryptBlock nr => wordM 0xe nr
  | .encrypt keylen => wordH 0 keylen
  | .decrypt keylen => wordH 1 keylen

/-- An instruction as the spec writes it: the mnemonic, and its operand in decimal after a space (R80). -/
def assembly : Instr → String
  | .addRoundKey r => "addRoundKey " ++ toString r.toNat
  | .subBytes => "subBytes"
  | .invSubBytes => "invSubBytes"
  | .shiftRows => "shiftRows"
  | .invShiftRows => "invShiftRows"
  | .mixColumns => "mixColumns"
  | .invMixColumns => "invMixColumns"
  | .shiftRow n => "shiftRow " ++ toString n.toNat
  | .invShiftRow n => "invShiftRow " ++ toString n.toNat
  | .expand => "expand"
  | .loadState => "loadState"
  | .storeOut => "storeOut"
  | .encryptBlock nr => "encryptBlock " ++ toString nr.toNat
  | .decryptBlock nr => "decryptBlock " ++ toString nr.toNat
  | .encrypt keylen => "encrypt " ++ toString keylen.toNat
  | .decrypt keylen => "decrypt " ++ toString keylen.toNat

/-- A row of the opcode table: a word `w` selects the row when `w &&& mask = pattern` (R83). -/
structure OpcodeRow where
  mnemonic : String
  format : Format
  pattern : Byte
  mask : Byte
deriving DecidableEq, Repr

/-- The opcode table's rows, in the table's order (R83). -/
def opcodeRows : List OpcodeRow :=
  [⟨"addRoundKey", .M, 0x10, 0xf0⟩, ⟨"subBytes", .M, 0x20, 0xff⟩, ⟨"invSubBytes", .M, 0x30, 0xff⟩,
   ⟨"shiftRows", .M, 0x40, 0xff⟩, ⟨"invShiftRows", .M, 0x50, 0xff⟩, ⟨"mixColumns", .M, 0x60, 0xff⟩,
   ⟨"invMixColumns", .M, 0x70, 0xff⟩, ⟨"shiftRow", .M, 0x80, 0xfc⟩] ++
  [⟨"invShiftRow", .M, 0x90, 0xfc⟩, ⟨"expand", .M, 0xa0, 0xff⟩, ⟨"loadState", .M, 0xb0, 0xff⟩,
   ⟨"storeOut", .M, 0xc0, 0xff⟩, ⟨"encryptBlock", .M, 0xd0, 0xf0⟩, ⟨"decryptBlock", .M, 0xe0, 0xf0⟩,
   ⟨"encrypt", .H, 0x00, 0x80⟩, ⟨"decrypt", .H, 0x80, 0x80⟩]

/-- Whether a word selects a row (R83). -/
def OpcodeRow.selectedBy (row : OpcodeRow) (w : Byte) : Bool := w &&& row.mask == row.pattern

/-- The rows of one format that a word selects. -/
def rowsSelected (f : Format) (w : Byte) : List OpcodeRow :=
  opcodeRows.filter fun row => decide (row.format = f) && row.selectedBy w

/-- How `decodeTableWord` reads a bare word, which carries no position (log 9): format M where the word selects a format M
row of the table, else format H. -/
def tableWordFormat (w : Byte) : Format := if (rowsSelected .M w).isEmpty then .H else .M

/-- The instruction read from a bare table word (log 9). Every word of this machine is one byte. -/
def decodeTableWord (nbits w : Nat) : Option Instr :=
  if nbits ≤ 8 ∧ w < 256 then
    decode (tableWordFormat (BitVec.ofNat 8 w)) (BitVec.ofNat 8 w)
  else none

end Sys2Proof
end

