-- ==== Sys2Proof/Machine/Operands.lean ====
section
/-! DEFINITION. Operand forms: the key-size variants, the fields of the command word, matrix indices, wide ports, slices. -/

namespace Sys2Proof.Machine

open Sys2Proof

/-- The key-size variants, "a small closed enumeration" (R2, R149). -/
inductive Variant where
  | key16
  | key24
  | key32
deriving DecidableEq, Repr

/-- `keySize` in bytes (R2). -/
def Variant.keySize : Variant → Nat
  | .key16 => 16
  | .key24 => 24
  | .key32 => 32

/-- `Nr` (R2). -/
def Variant.nr : Variant → Nat
  | .key16 => 10
  | .key24 => 12
  | .key32 => 14

/-- `XKLEN = 16 × (Nr + 1)` (R2). -/
def Variant.xklen (v : Variant) : Nat := 16 * (v.nr + 1)

/-- The variant of a key length in bytes; none for every length that is no variant (R2, R186). -/
def variantOf (keyLen : Nat) : Option Variant :=
  match keyLen with
  | 16 => some .key16
  | 24 => some .key24
  | 32 => some .key32
  | _ => none

/-- The variant a format H word selects (R71). -/
def commandVariant (w : Byte) : Option Variant := variantOf (keylenField w).toNat

/-- Index of row `r`, column `c` of a 16-byte array: `4c + r` (R13). -/
def cellIndex (r c : Nat) : Nat := 4 * c + r

/-- Byte `i` of a wide port: bits `8i+7 : 8i` (R52). -/
def portByte {w : Nat} (p : BitVec w) (i : Nat) : Byte := p.extractLsb' (8 * i) 8

/-- The byte sequence on a wide port (R52). -/
def unpack (n : Nat) {w : Nat} (p : BitVec w) : Vector Byte n := Vector.ofFn fun i : Fin n => portByte p i.val

/-- The number whose base-256 digits are the bytes, byte 0 the least significant digit. -/
def digitsValue : List Byte → Nat
  | [] => 0
  | b :: bs => b.toNat + 256 * digitsValue bs

/-- A byte sequence placed on a wide port: byte `i` on bits `8i+7 : 8i` (R52). -/
def pack {n : Nat} (v : Vector Byte n) : BitVec (8 * n) := BitVec.ofNat (8 * n) (digitsValue v.toList)

/-- A byte list of length `n` as a sequence of fixed length; none for another length. -/
def exactly (n : Nat) (l : List Byte) : Option (Vector Byte n) :=
  if l.length = n then some (Vector.ofFn fun i : Fin n => (l[i.val]?).getD 0) else none

/-- `A[addr], ..., A[addr+n-1]` of a byte list, refused beyond its end (R12, R61). -/
def sliceOf (l : List Byte) (addr n : Nat) : Except Refusal (Vector Byte n) :=
  match exactly n ((l.drop addr).take n) with
  | some v => .ok v
  | none => .error (.sliceRange addr)

end Sys2Proof.Machine
end

