-- ==== Sys2Proof/Machine/Ops.lean ====
section
/-! DEFINITION. The named operations over stores, registers and steps: `MemRead` and `MemWrite` (R61), raising an error (R191),
the accepted start (R167), the completion step (R30), the reset step (R210), the output ports (R31), and the frame every
micro-op shares (R30, 93 U5). -/

namespace Sys2Proof.Machine

open Sys2Proof

/-! ### The expanded-key store -/

/-- The byte listed for an address, or none where the location is `undef`. -/
def Memory.find : Memory → Nat → Option Byte
  | [], _ => none
  | (a, b) :: m, k => if a = k then some b else Memory.find m k

/-- Write one byte, keeping addresses rising. -/
def Memory.put : Memory → Nat → Byte → Memory
  | [], k, v => [(k, v)]
  | (a, b) :: m, k, v =>
    if a = k then (k, v) :: m
    else if k < a then (k, v) :: (a, b) :: m
    else (a, b) :: Memory.put m k v

/-- Write bytes at increasing addresses. -/
def Memory.putAll (m : Memory) (addr : Nat) : List Byte → Memory
  | [] => m
  | b :: bs => Memory.putAll (Memory.put m addr b) (addr + 1) bs

/-- Addresses strictly rising, from `lo` on, and inside the 240 bytes of the store (R23). -/
def Memory.risingFrom : Nat → Memory → Bool
  | _, [] => true
  | lo, (a, _) :: m => decide (lo ≤ a) && decide (a < 240) && Memory.risingFrom (a + 1) m

/-- The canonical form (log 5). No entry can equal what an unlisted address reads as: that is no value. -/
def Memory.wf (m : Memory) : Bool := Memory.risingFrom 0 m

/-! ### The address spaces -/

/-- Size in bytes (R50). -/
def Space.size : Space → Nat
  | .sbox => 256
  | .isbox => 256
  | .rcon => 15
  | .xk => 240
  | .st => 16
  | .keyreg => 32
  | .dinreg => 16
  | .dout => 16

/-- Whether the space is a ROM (R50). -/
def Space.isRom : Space → Bool
  | .sbox => true
  | .isbox => true
  | .rcon => true
  | .xk => false
  | .st => false
  | .keyreg => false
  | .dinreg => false
  | .dout => false

/-- The value of a register location, none where it is `undef` or absent. -/
def slotAt {n : Nat} (v : Vector (Slot Byte) n) (a : Nat) : Option Byte :=
  match v[a]? with
  | some x => if x.known then some x.val else none
  | none => none

/-- The value at an address of a space, none where the location is `undef` or absent (R12, R41). -/
def State.location (s : State) (sp : Space) (a : Nat) : Option Byte :=
  match sp with
  | .sbox => tableAt sboxRows a
  | .isbox => tableAt isboxRows a
  | .rcon => rconTable[a]?
  | .xk => Memory.find s.xk a
  | .st => slotAt s.st a
  | .keyreg => slotAt s.keyreg a
  | .dinreg => slotAt s.dinreg a
  | .dout => slotAt s.dout a

/-- The first of `n` addresses from `addr` that holds no value. -/
def State.firstUndef (s : State) (sp : Space) (addr n : Nat) : Option Nat :=
  ((List.range n).map (addr + ·)).find? fun a => (s.location sp a).isNone

/-- `MemRead(space, addr, n)`, as the pseudocode of R61 has it: "require addr + n ≤ size(space) -- else refuse", "require
space[addr + k] ≠ undef for 0 ≤ k < n -- else refuse" (R41, R62: "as refusals, never as values"). -/
def State.memRead (s : State) (sp : Space) (addr n : Nat) : Except Refusal (Vector Byte n) :=
  if addr + n ≤ sp.size then
    match s.firstUndef sp addr n with
    | some a => .error (.undefRead sp a)
    | none => .ok (Vector.ofFn fun k : Fin n => (s.location sp (addr + k.val)).getD 0)
  else .error (.outOfRange sp addr)

/-- Bytes written to consecutive locations of a register from `addr` on. -/
def writeSlots {m n : Nat} (r : Vector (Slot Byte) m) (addr : Nat) (v : Vector Byte n) : Vector (Slot Byte) m :=
  Vector.ofFn fun i : Fin m =>
    if addr ≤ i.val then
      match v[i.val - addr]? with
      | some b => Slot.hold b
      | none => r[i]
    else r[i]

/-- The state with bytes stored in a writable space. -/
def State.store (s : State) (sp : Space) (addr : Nat) {n : Nat} (v : Vector Byte n) : State :=
  match sp with
  | .xk => { s with xk := Memory.putAll s.xk addr v.toList }
  | .st => { s with st := writeSlots s.st addr v }
  | .keyreg => { s with keyreg := writeSlots s.keyreg addr v }
  | .dinreg => { s with dinreg := writeSlots s.dinreg addr v }
  | .dout => { s with dout := writeSlots s.dout addr v }
  | .sbox => s
  | .isbox => s
  | .rcon => s

/-- `MemWrite(space, addr, n, v)` (R61): refused on a ROM and outside the space. -/
def State.memWrite (s : State) (sp : Space) (addr : Nat) {n : Nat} (v : Vector Byte n) : Except Refusal State :=
  if sp.isRom then .error (.romWrite sp)
  else if addr + n ≤ sp.size then .ok (s.store sp addr v)
  else .error (.outOfRange sp addr)

/-- The value of a single register, refused with `r` where it is `undef` (R41). -/
def Slot.get {α : Type} (x : Slot α) (r : Refusal) : Except Refusal α :=
  if x.known then .ok x.val else .error r

/-! ### The frame of a micro-op -/

/-- A micro-op (R30): refused while `BUSY = 0` or `CMDREG` is `undef` (93 U5); else its own effect, given the command word, and
then `UPC <- UPC + 1`. -/
def uop (s : State) (body : Byte → Except Refusal State) : Result :=
  if s.status.busy then
    match s.cmdreg.get .undefCommand with
    | .error r => .refused r
    | .ok c =>
      match body c with
      | .error r => .refused r
      | .ok s' => .next { s' with upc := s'.upc + 1 }
  else .refused .notBusy

/-- `ST <- f(ST)`, all sixteen bytes, as one simultaneous assignment (R125). -/
def State.mapST (s : State) (f : Block → Except Refusal Block) : Except Refusal State := do
  let old ← s.memRead .st 0 16
  let new ← f old
  s.memWrite .st 0 new

/-- The variant of the current command (R27), refused where `CMDREG` holds no legal key length. -/
def currentVariant (c : Byte) : Except Refusal Variant :=
  match commandVariant c with
  | some v => .ok v
  | none => .error .commandKeyLength

/-! ### Start, error, completion, reset -/

/-- `raise E` (R191): `ERR <- code(E)`, `DONE <- 1`, nothing else. This is the whole of exception entry: no state is saved, no
handler exists, control goes nowhere; and no return exists (R193). -/
def State.raise (s : State) (e : Fault) : State := { s with status := s.status.rejected e }

/-- The accepted start of command word `w` (R167). -/
def State.acceptStart (s : State) (w : Byte) : State :=
  { s with
    cmdreg := Slot.hold w
    keyreg := writeSlots s.keyreg 0 (unpack 32 s.ports.keyIn)
    dinreg := writeSlots s.dinreg 0 (unpack 16 s.ports.din)
    status := Status.accepted
    upc := 0 }

/-- The start step of command word `w` (R167, R168); while `BUSY = 1` a start is ignored without trace (R177). -/
def State.startStep (s : State) (w : Byte) : State :=
  if s.status.busy then s
  else
    match commandVariant w with
    | some _ => s.acceptStart w
    | none => s.raise .invalidKeySize

/-- Every location `undef`, with the given bits behind the mark (R38, R41). -/
def discardBytes {n : Nat} (bits : Vector Byte n) : Vector (Slot Byte) n :=
  Vector.ofFn fun i : Fin n => Slot.undef bits[i]

/-- The completion step (R30, R38): `BUSY <- 0`, `DONE <- 1`, the working state `undef`. -/
def State.complete (s : State) : State :=
  { s with
    status := s.status.completed
    st := discardBytes (Config.discardedST s.tick)
    xk := []
    t := Slot.undef (Config.discardedT s.tick)
    off := Slot.undef (Config.discardedOFF s.tick).val
    rci := Slot.undef ((Config.discardedRCIPred s.tick).val + 1)
    keyreg := discardBytes (Config.discardedKEYREG s.tick)
    dinreg := discardBytes (Config.discardedDINREG s.tick) }

/-- The reset step (R210, R212): the values of R39, whatever the state was. The ports and what the host drives next stay; words
waiting at the micro-op-level entry point are dropped with the command (log 8). -/
def State.resetStep (s : State) : State :=
  { State.reset with ports := s.ports, host := s.host, tick := s.tick }

/-- One clock edge has passed: the ports take the host's next values; with none planned, `rst` and `start` fall and the other
ports hold (log 2). -/
def State.advance (s : State) : State :=
  match s.host with
  | [] => { s with ports := { s.ports with rst := false, start := false }, tick := s.tick + 1 }
  | p :: rest => { s with ports := p, host := rest, tick := s.tick + 1 }

/-! ### Output ports -/

/-- The bytes port `dout` shows (R28): `DOUT`, and a free value for a byte that is `undef` (93 U2; log 7). -/
def State.doutBytes (s : State) : Block :=
  Vector.ofFn fun i : Fin 16 => (slotAt s.dout i.val).getD (Config.undefDout s.tick)[i]

/-- Port `dout` (R31, R52). -/
def State.doutPort (s : State) : BitVec 128 := pack s.doutBytes

/-- Port `busy` (R31). -/
def State.busyPort (s : State) : BitVec 1 := BitVec.ofBool s.status.busy

/-- Port `done` (R31). -/
def State.donePort (s : State) : BitVec 1 := BitVec.ofBool s.status.done

/-- Port `err` (R31). -/
def State.errPort (s : State) : BitVec 2 := s.status.err

end Sys2Proof.Machine
end

