-- ==== Sys2Proof/Machine/KeySchedule.lean ====
section
/-! DEFINITION. The key schedule expander (41_key_schedule.md): the micro-op `expand` and the function `Expand`. -/

namespace Sys2Proof.Machine

open Sys2Proof

/-- `RotWord(t) = [t[1], t[2], t[3], t[0]]` (R111). -/
def rotWord (t : Word4) : Word4 := #v[t[1], t[2], t[3], t[0]]

/-- `SubWord(t)`: each byte through the S-box (R111). -/
def subWord (t : Word4) : Word4 := Vector.ofFn fun j : Fin 4 => sBoxLookup t[j]

/-- `T[0] <- T[0] ^ c`, the other bytes unchanged (R103). -/
def addToFirst (t : Word4) (c : Byte) : Word4 := #v[t[0] ^^^ c, t[1], t[2], t[3]]

/-- The choice of case and its action on the word read (R102 to R105): the new `T` and the new `RCI`. -/
def scheduleCase (keySize off rci : Nat) (t : Word4) : Except Refusal (Word4 × Nat) :=
  if off % keySize = 0 then do
    let c ← roundConstant rci
    .ok (addToFirst (subWord (rotWord t)) c, rci + 1)
  else if keySize = 32 ∧ off % keySize = 16 then
    .ok (subWord t, rci)
  else
    .ok (t, rci)

/-- One iteration of the word loop (R102, R106). -/
def expandWord (keySize : Nat) (s : State) : Except Refusal State := do
  let off ← s.off.get .undefCounter
  let rci ← s.rci.get .undefCounter
  let prev ← s.memRead .xk (off - 4) 4
  let (t, rci') ← scheduleCase keySize off rci prev
  let earlier ← s.memRead .xk (off - keySize) 4
  let s' ← s.memWrite .xk off (xorBytes t earlier)
  .ok { s' with t := Slot.hold t, off := Slot.hold (off + 4), rci := Slot.hold rci' }

/-- `while OFF < XKLEN` (R102), at most the given number of iterations. -/
def expandLoop (keySize xklen : Nat) : Nat → State → Except Refusal State
  | 0, s => .ok s
  | n + 1, s => do
    let off ← s.off.get .undefCounter
    if off < xklen then
      let s' ← expandWord keySize s
      expandLoop keySize xklen n s'
    else .ok s

/-- Words generated for a variant (R108). -/
def Variant.words (v : Variant) : Nat := (v.xklen - v.keySize) / 4

/-- Key copy (R101): the key to the start of `XK`, `OFF <- keySize`, `RCI <- 1`. -/
def keyCopy (keySize : Nat) (s : State) : Except Refusal State := do
  let key ← s.memRead .keyreg 0 keySize
  let s' ← s.memWrite .xk 0 key
  .ok { s' with off := Slot.hold keySize, rci := Slot.hold 1 }

/-- `expand` (R100): the key copy and the whole word loop as one step. -/
def execExpand (s : State) : Result :=
  uop s fun c => do
    let v ← currentVariant c
    let s' ← keyCopy v.keySize s
    expandLoop v.keySize v.xklen v.words s'

/-- One iteration of the loop of `Expand(K)`, on the sequence built so far and `rci` (R110). -/
def expandFnWord (keySize : Nat) (x : List Byte) (rci : Nat) : Except Refusal (List Byte × Nat) := do
  let t ← sliceOf x (x.length - 4) 4
  let (t', rci') ← scheduleCase keySize x.length rci t
  let earlier ← sliceOf x (x.length - keySize) 4
  .ok (x ++ (xorBytes t' earlier).toList, rci')

/-- `while len(X) < n` of `Expand(K)` (R110), at most the given number of iterations. -/
def expandFnLoop (keySize xklen : Nat) : Nat → List Byte → Nat → Except Refusal (List Byte)
  | 0, x, _ => .ok x
  | n + 1, x, rci =>
    if x.length < xklen then do
      let (x', rci') ← expandFnWord keySize x rci
      expandFnLoop keySize xklen n x' rci'
    else .ok x

/-- `Expand(K)` (R110); refused for a length other than 16, 24, 32. -/
def expandFn (key : List Byte) : Except Refusal (List Byte) :=
  match variantOf key.length with
  | none => .error (.expandKeyLength key.length)
  | some v => expandFnLoop v.keySize v.xklen v.words key 1

end Sys2Proof.Machine
end

