-- ==== Sys2Proof/Machine/Galois.lean ====
section
/-! DEFINITION. The GF(2^8) multiplier (42_galois_multiplier.md) and the closed form of the S-box that R92 offers as a check. -/

namespace Sys2Proof.Machine

open Sys2Proof

/-- Doubling with reduction: the shift and the conditional exclusive-or by `0x1b` of R116, `xtime` of R118. -/
def xtime (a : Byte) : Byte := if a.getLsbD 7 then (a <<< 1) ^^^ 0x1b else a <<< 1

/-- `n` iterations of the add-and-shift loop (R116). -/
def galoisLoop : Nat → Byte → Byte → Byte → Byte
  | 0, _, _, p => p
  | n + 1, a, b, p => galoisLoop n (xtime a) (b >>> 1) (if b.getLsbD 0 then p ^^^ a else p)

/-- `galoisMultiply(a, b)` (R115, R116): exactly eight iterations from `p = 0`. -/
def galoisMultiply (a b : Byte) : Byte := galoisLoop 8 a b 0

/-- Port `gm_p` of the multiplier (R121). -/
def gmP (gmA gmB : BitVec 8) : BitVec 8 := galoisMultiply gmA gmB

/-- The affine step of R92: `v ^ rotl8(v, 1) ^ rotl8(v, 2) ^ rotl8(v, 3) ^ rotl8(v, 4) ^ 0x63`. -/
def sBoxAffine (v : Byte) : Byte :=
  v ^^^ v.rotateLeft 1 ^^^ v.rotateLeft 2 ^^^ v.rotateLeft 3 ^^^ v.rotateLeft 4 ^^^ 0x63

end Sys2Proof.Machine
end

