-- ==== Sys2Proof/Machine/Transforms.lean ====
section
/-! DEFINITION. The state transforms (43_state_transforms.md): the functions on blocks and the nine micro-ops. -/

namespace Sys2Proof.Machine

open Sys2Proof

/-! ### Functions on blocks -/

/-- Every byte through the S-box (R126). -/
def subBytesFn (b : Block) : Block := Vector.ofFn fun i : Fin 16 => sBoxLookup b[i]

/-- Every byte through the inverse S-box (R127). -/
def invSubBytesFn (b : Block) : Block := Vector.ofFn fun i : Fin 16 => inverseSBoxLookup b[i]

/-- `ShiftRowsPerm[i] = 4·((col(i) + row(i)) mod 4) + row(i)` (R132). -/
def shiftRowsPerm (i : Fin 16) : Fin 16 := ⟨cellIndex (i.val % 4) ((i.val / 4 + i.val % 4) % 4), by unfold cellIndex; omega⟩

/-- `InvShiftRowsPerm[i] = 4·((col(i) − row(i)) mod 4) + row(i)`, the remainder 0 to 3 (R132, R120). -/
def invShiftRowsPerm (i : Fin 16) : Fin 16 :=
  ⟨cellIndex (i.val % 4) ((i.val / 4 + 4 - i.val % 4) % 4), by unfold cellIndex; omega⟩

/-- All four rows rotated left (R130). -/
def shiftRowsFn (b : Block) : Block := Vector.ofFn fun i : Fin 16 => b[shiftRowsPerm i]

/-- All four rows rotated right (R131). -/
def invShiftRowsFn (b : Block) : Block := Vector.ofFn fun i : Fin 16 => b[invShiftRowsPerm i]

/-- A row left-rotated by `n`: the element of column `c + n` moves to column `c` (R128). -/
def rotateRowLeft (n : Nat) (w : Word4) : Word4 :=
  Vector.ofFn fun c : Fin 4 => w[(c.val + n) % 4]'(Nat.mod_lt _ (by decide))

/-- A row right-rotated by `n`, 0 to 3: the element of column `c − n` moves to column `c` (R129). -/
def rotateRowRight (n : Nat) (w : Word4) : Word4 :=
  Vector.ofFn fun c : Fin 4 => w[(c.val + (4 - n)) % 4]'(Nat.mod_lt _ (by decide))

/-- `MixCol(a)` (R133). -/
def mixCol (a : Word4) : Word4 :=
  #v[galoisMultiply a[0] 0x02 ^^^ galoisMultiply a[1] 0x03 ^^^ galoisMultiply a[2] 0x01 ^^^ galoisMultiply a[3] 0x01,
     galoisMultiply a[0] 0x01 ^^^ galoisMultiply a[1] 0x02 ^^^ galoisMultiply a[2] 0x03 ^^^ galoisMultiply a[3] 0x01,
     galoisMultiply a[0] 0x01 ^^^ galoisMultiply a[1] 0x01 ^^^ galoisMultiply a[2] 0x02 ^^^ galoisMultiply a[3] 0x03,
     galoisMultiply a[0] 0x03 ^^^ galoisMultiply a[1] 0x01 ^^^ galoisMultiply a[2] 0x01 ^^^ galoisMultiply a[3] 0x02]

/-- `InvMixCol(a)` (R135). -/
def invMixCol (a : Word4) : Word4 :=
  #v[galoisMultiply a[0] 0x0e ^^^ galoisMultiply a[1] 0x0b ^^^ galoisMultiply a[2] 0x0d ^^^ galoisMultiply a[3] 0x09,
     galoisMultiply a[0] 0x09 ^^^ galoisMultiply a[1] 0x0e ^^^ galoisMultiply a[2] 0x0b ^^^ galoisMultiply a[3] 0x0d,
     galoisMultiply a[0] 0x0d ^^^ galoisMultiply a[1] 0x09 ^^^ galoisMultiply a[2] 0x0e ^^^ galoisMultiply a[3] 0x0b,
     galoisMultiply a[0] 0x0b ^^^ galoisMultiply a[1] 0x0d ^^^ galoisMultiply a[2] 0x09 ^^^ galoisMultiply a[3] 0x0e]

/-- Column `c` of a block: bytes `4c` to `4c+3` (R13). -/
def column (b : Block) (c : Fin 4) : Word4 := Vector.ofFn fun r : Fin 4 => b[cellIndex r.val c.val]'(by unfold cellIndex; omega)

/-- A function applied to each of the four columns (R134, R136). -/
def mapColumns (f : Word4 → Word4) (b : Block) : Block :=
  Vector.ofFn fun i : Fin 16 => (f (column b ⟨i.val / 4, by omega⟩))[i.val % 4]'(Nat.mod_lt _ (by decide))

/-- Every column through `MixCol` (R134). -/
def mixColumnsFn (b : Block) : Block := mapColumns mixCol b

/-- Every column through `InvMixCol` (R136). -/
def invMixColumnsFn (b : Block) : Block := mapColumns invMixCol b

/-- Byte-wise exclusive-or of the state with a round key (R137). -/
def addRoundKeyFn (b k : Block) : Block := xorBytes b k

/-! ### Rows of `ST` -/

/-- Row `n` of `ST`: `ST[n], ST[4+n], ST[8+n], ST[12+n]` (R13). -/
def State.readRow (s : State) (n : Nat) : Except Refusal Word4 := do
  let b0 ← s.memRead .st (cellIndex n 0) 1
  let b1 ← s.memRead .st (cellIndex n 1) 1
  let b2 ← s.memRead .st (cellIndex n 2) 1
  let b3 ← s.memRead .st (cellIndex n 3) 1
  .ok #v[b0[0], b1[0], b2[0], b3[0]]

/-- Writes row `n` of `ST`; all other bytes unchanged. -/
def State.writeRow (s : State) (n : Nat) (w : Word4) : Except Refusal State := do
  let s ← s.memWrite .st (cellIndex n 0) #v[w[0]]
  let s ← s.memWrite .st (cellIndex n 1) #v[w[1]]
  let s ← s.memWrite .st (cellIndex n 2) #v[w[2]]
  s.memWrite .st (cellIndex n 3) #v[w[3]]

/-- Row `n` of `ST` replaced by a function of its old value; the four reads precede the four writes (R128, R220). -/
def State.mapRow (s : State) (n : BitVec 4) (f : Nat → Word4 → Word4) : Except Refusal State :=
  if legalRowArg n then do
    let w ← s.readRow n.toNat
    s.writeRow n.toNat (f n.toNat w)
  else .error .illegalOperand

/-! ### The micro-ops -/

/-- `subBytes` (R126). -/
def execSubBytes (s : State) : Result := uop s fun _ => s.mapST fun b => .ok (subBytesFn b)

/-- `invSubBytes` (R127). -/
def execInvSubBytes (s : State) : Result := uop s fun _ => s.mapST fun b => .ok (invSubBytesFn b)

/-- `shiftRow n` (R128). -/
def execShiftRow (n : BitVec 4) (s : State) : Result := uop s fun _ => s.mapRow n rotateRowLeft

/-- `invShiftRow n` (R129). -/
def execInvShiftRow (n : BitVec 4) (s : State) : Result := uop s fun _ => s.mapRow n rotateRowRight

/-- `shiftRows` (R130). -/
def execShiftRows (s : State) : Result := uop s fun _ => s.mapST fun b => .ok (shiftRowsFn b)

/-- `invShiftRows` (R131). -/
def execInvShiftRows (s : State) : Result := uop s fun _ => s.mapST fun b => .ok (invShiftRowsFn b)

/-- `mixColumns` (R134). -/
def execMixColumns (s : State) : Result := uop s fun _ => s.mapST fun b => .ok (mixColumnsFn b)

/-- `invMixColumns` (R136). -/
def execInvMixColumns (s : State) : Result := uop s fun _ => s.mapST fun b => .ok (invMixColumnsFn b)

/-- Round key `r`: the 16 bytes of `XK` at offset `16 × r` (R23). -/
def State.roundKey (s : State) (r : Nat) : Except Refusal Block := s.memRead .xk (16 * r) 16

/-- `addRoundKey r` (R137); refused for `r > Nr` (R79). -/
def execAddRoundKey (r : BitVec 4) (s : State) : Result :=
  uop s fun c =>
    if legalRoundKeyArg r then do
      let v ← currentVariant c
      if r.toNat ≤ v.nr then do
        let k ← s.roundKey r.toNat
        s.mapST fun b => .ok (addRoundKeyFn b k)
      else .error (.roundKeyAboveNr r.toNat)
    else .error .illegalOperand

end Sys2Proof.Machine
end

