-- ==== Sys2Proof/Machine/Orchestrator.lean ====
section
/-! DEFINITION. The round orchestrator (44_round_orchestrator.md): the two whole-block micro-ops, the functions `EncryptBlock` and
`DecryptBlock`, and the micro-program. -/

namespace Sys2Proof.Machine

open Sys2Proof

/-- `count` full encryption rounds from round `i` upward: `subBytes → shiftRows → mixColumns → addRoundKey i` (R145). -/
def encryptRounds (key : Nat → Except Refusal Block) : (i count : Nat) → Block → Except Refusal Block
  | _, 0, b => .ok b
  | i, n + 1, b => do
    let k ← key i
    encryptRounds key (i + 1) n (addRoundKeyFn (mixColumnsFn (shiftRowsFn (subBytesFn b))) k)

/-- The sequence of `encryptBlock` (R145), given how round key `r` is found. -/
def encryptBlockWith (key : Nat → Except Refusal Block) (nr : Nat) (b : Block) : Except Refusal Block := do
  let k0 ← key 0
  let b' ← encryptRounds key 1 (nr - 1) (addRoundKeyFn b k0)
  let k ← key nr
  .ok (addRoundKeyFn (shiftRowsFn (subBytesFn b')) k)

/-- Decryption rounds from round `i` down to round 1: `invShiftRows → invSubBytes → addRoundKey i → invMixColumns` (R146). -/
def decryptRounds (key : Nat → Except Refusal Block) : (i : Nat) → Block → Except Refusal Block
  | 0, b => .ok b
  | i + 1, b => do
    let k ← key (i + 1)
    decryptRounds key i (invMixColumnsFn (addRoundKeyFn (invSubBytesFn (invShiftRowsFn b)) k))

/-- The sequence of `decryptBlock` (R146), given how round key `r` is found. -/
def decryptBlockWith (key : Nat → Except Refusal Block) (nr : Nat) (b : Block) : Except Refusal Block := do
  let k ← key nr
  let b' ← decryptRounds key (nr - 1) (addRoundKeyFn b k)
  let k0 ← key 0
  .ok (addRoundKeyFn (invSubBytesFn (invShiftRowsFn b')) k0)

/-- `EncryptBlock(S, X, Nr)` (R150). -/
def encryptBlockFn (b : Block) (x : List Byte) (nr : Nat) : Except Refusal Block :=
  encryptBlockWith (fun r => sliceOf x (16 * r) 16) nr b

/-- `DecryptBlock(S, X, Nr)` (R150). -/
def decryptBlockFn (b : Block) (x : List Byte) (nr : Nat) : Except Refusal Block :=
  decryptBlockWith (fun r => sliceOf x (16 * r) 16) nr b

/-- The operand of a whole-block micro-op: 10, 12 or 14 (R74) and equal to `Nr` of the current command (R79). -/
def roundCount (c : Byte) (arg : BitVec 4) : Except Refusal Nat :=
  if legalRoundCountArg arg then do
    let v ← currentVariant c
    if arg.toNat = v.nr then .ok v.nr else .error (.roundCountMismatch arg.toNat)
  else .error .illegalOperand

/-- `encryptBlock Nr` (R145): `ST` as its expansion leaves it, in one step. -/
def execEncryptBlock (nr : BitVec 4) (s : State) : Result :=
  uop s fun c => do
    let n ← roundCount c nr
    s.mapST (encryptBlockWith s.roundKey n)

/-- `decryptBlock Nr` (R146). -/
def execDecryptBlock (nr : BitVec 4) (s : State) : Result :=
  uop s fun c => do
    let n ← roundCount c nr
    s.mapST (decryptBlockWith s.roundKey n)

/-! ### The micro-program -/

/-- The round-key operand of `addRoundKey` as it stands in a word (R74). -/
def roundKeyArg (r : Nat) : BitVec 4 := BitVec.ofNat 4 r

/-- The full rounds of `encryptBlock` as micro-ops, `count` of them from round `i` upward (R145). -/
def encryptRoundUops : (i count : Nat) → List Instr
  | _, 0 => []
  | i, n + 1 => [.subBytes, .shiftRows, .mixColumns, .addRoundKey (roundKeyArg i)] ++ encryptRoundUops (i + 1) n

/-- The expansion of `encryptBlock Nr` (R82). -/
def encryptBlockUops (nr : Nat) : List Instr :=
  .addRoundKey (roundKeyArg 0) :: encryptRoundUops 1 (nr - 1) ++ [.subBytes, .shiftRows, .addRoundKey (roundKeyArg nr)]

/-- The rounds of `decryptBlock` as micro-ops, from round `i` down to round 1 (R146). -/
def decryptRoundUops : Nat → List Instr
  | 0 => []
  | i + 1 => [.invShiftRows, .invSubBytes, .addRoundKey (roundKeyArg (i + 1)), .invMixColumns] ++ decryptRoundUops i

/-- The expansion of `decryptBlock Nr` (R82). -/
def decryptBlockUops (nr : Nat) : List Instr :=
  .addRoundKey (roundKeyArg nr) :: decryptRoundUops (nr - 1) ++ [.invShiftRows, .invSubBytes, .addRoundKey (roundKeyArg 0)]

/-- The micro-program with the whole-block micro-ops kept as single words: the expansion of a host command (R82, R152). -/
def uprogWithBlock (dir : Bool) (nr : Nat) : List Instr :=
  [.expand, .loadState, if dir then .decryptBlock (BitVec.ofNat 4 nr) else .encryptBlock (BitVec.ofNat 4 nr), .storeOut]

/-- `uprog(DIR, Nr)` (R147). -/
def uprog (dir : Bool) (nr : Nat) : List Instr :=
  [.expand, .loadState] ++ (if dir then decryptBlockUops nr else encryptBlockUops nr) ++ [.storeOut]

end Sys2Proof.Machine
end

