-- ==== Sys2Proof/Machine/Commands.lean ====
section
/-! DEFINITION. Host commands and the two block copies (45_host_commands.md), and the pure functions `Encrypt` and `Decrypt`. -/

namespace Sys2Proof.Machine

open Sys2Proof

/-- `loadState` (R172): `DINREG` to `ST`. -/
def execLoadState (s : State) : Result :=
  uop s fun _ => do
    let block ← s.memRead .dinreg 0 16
    s.memWrite .st 0 block

/-- `storeOut` (R173): `ST` to `DOUT`, all sixteen bytes in one step. -/
def execStoreOut (s : State) : Result :=
  uop s fun _ => do
    let block ← s.memRead .st 0 16
    s.memWrite .dout 0 block

/-- `encrypt keylen` (R165): the start step of a command word with `DIR = 0`. -/
def execEncrypt (keylen : BitVec 7) (s : State) : Result := .next (s.startStep (wordH 0 keylen))

/-- `decrypt keylen` (R166): the start step of a command word with `DIR = 1`. -/
def execDecrypt (keylen : BitVec 7) (s : State) : Result := .next (s.startStep (wordH 1 keylen))

/-- An answer of the pure layer as an outcome. -/
def answerOf (x : Except Refusal Block) : Host.Outcome Block Fault Refusal :=
  match x with
  | .ok b => .next b
  | .error r => .refused r

/-- The procedure of R170 with the last line's routine as an argument: the key length is checked first (R190). -/
def cipherFn (routine : Block → List Byte → Nat → Except Refusal Block) (input key : List Byte) :
    Host.Outcome Block Fault Refusal :=
  match variantOf key.length with
  | none => .fault .invalidKeySize
  | some v =>
    match exactly 16 input with
    | none => .fault .invalidBlockLength
    | some b =>
      answerOf do
        let x ← expandFn key
        routine b x v.nr

/-- `Encrypt(input, key)` (R170). -/
def encryptFn (input key : List Byte) : Host.Outcome Block Fault Refusal := cipherFn encryptBlockFn input key

/-- `Decrypt(input, key)` (R170). -/
def decryptFn (input key : List Byte) : Host.Outcome Block Fault Refusal := cipherFn decryptBlockFn input key

end Sys2Proof.Machine
end

