-- ==== Sys2Proof/Machine/Dispatch.lean ====
section
/-! DEFINITION. One arm per instruction. -/

namespace Sys2Proof.Machine

open Sys2Proof

def exec (i : Instr) (s : State) : Host.Outcome State Fault Refusal :=
  match i with
  | .addRoundKey r => Sys2Proof.Machine.execAddRoundKey r s
  | .subBytes => Sys2Proof.Machine.execSubBytes s
  | .invSubBytes => Sys2Proof.Machine.execInvSubBytes s
  | .shiftRows => Sys2Proof.Machine.execShiftRows s
  | .invShiftRows => Sys2Proof.Machine.execInvShiftRows s
  | .mixColumns => Sys2Proof.Machine.execMixColumns s
  | .invMixColumns => Sys2Proof.Machine.execInvMixColumns s
  | .shiftRow n => Sys2Proof.Machine.execShiftRow n s
  | .invShiftRow n => Sys2Proof.Machine.execInvShiftRow n s
  | .expand => Sys2Proof.Machine.execExpand s
  | .loadState => Sys2Proof.Machine.execLoadState s
  | .storeOut => Sys2Proof.Machine.execStoreOut s
  | .encryptBlock nr => Sys2Proof.Machine.execEncryptBlock nr s
  | .decryptBlock nr => Sys2Proof.Machine.execDecryptBlock nr s
  | .encrypt keylen => Sys2Proof.Machine.execEncrypt keylen s
  | .decrypt keylen => Sys2Proof.Machine.execDecrypt keylen s

end Sys2Proof.Machine
end

