-- ==== Sys2Proof/Machine/Sequencer.lean ====
section
/-! DEFINITION. What one step does: the choice between reset, start, micro-op, completion and idle (R30, R148, R167, R177, R210),
the fetch of the next micro-op, and how an instruction is placed for the next step. -/

namespace Sys2Proof.Machine

open Sys2Proof

/-- The word the sequencer presents (R30, R66): `encode` of `uprog(DIR, Nr)[UPC]`, or the next word driven at the
micro-op-level entry point (log 8); none when `UPC = len(uprog)`, the completion step. -/
def State.fetch (s : State) : Except Refusal (Option Byte) := do
  let c ← s.cmdreg.get .undefCommand
  let v ← currentVariant c
  match (uprog (dirField c) v.nr)[s.upc]? with
  | some i =>
    match s.uopIn with
    | [] => .ok (some (encode i))
    | w :: _ => .ok (some w)
  | none =>
    if s.upc = (uprog (dirField c) v.nr).length then .ok none
    else .error (.noUopAtIndex s.upc)

/-- What a step does. -/
inductive Action where
  /-- The reset step. -/
  | reset
  /-- An instruction runs on the given state. -/
  | run (i : Instr) (t : State)
  /-- The completion step. -/
  | complete
  /-- Nothing: `BUSY = 0` and no start. -/
  | idle
  /-- The spec gives the step no meaning. -/
  | refuse (r : Refusal)
deriving DecidableEq, Repr

/-- The word at the entry point is taken when its step runs (log 8). -/
def State.takeUop (s : State) : State := { s with uopIn := s.uopIn.tail }

/-- The core's step while `BUSY = 1` (R148). -/
def State.busyAction (s : State) : Action :=
  match s.fetch with
  | .error r => .refuse r
  | .ok none => .complete
  | .ok (some w) =>
    match decode .M w with
    | some i => .run i s.takeUop
    | none => .refuse (.illegalUopWord w)

/-- The action at one clock edge: `rst` first (R190), then a start step when `start = 1` and `BUSY = 0` (R167), else the core's
step while busy (R148; a `start` then is ignored, R177), else idle. -/
def State.action (s : State) : Action :=
  if s.ports.rst then .reset
  else if s.status.busy then s.busyAction
  else if s.ports.start then
    match decode .H s.ports.cmd with
    | some i => .run i s
    | none => .idle
  else .idle

/-- An outcome's state after the clock edge has passed. -/
def advanced : Result → Result
  | .next s => .next s.advance
  | .fault r => .fault r
  | .refused r => .refused r

/-! ### Placing an instruction for the next step (log 9) -/

/-- A command under which a format M word is legal: the one that fixes `Nr` for a whole-block micro-op, the one with the most
round keys for `addRoundKey`, any for the others. -/
def commandFor (w : Byte) : Byte :=
  match decodeM w with
  | some (.addRoundKey _) => 0x20
  | some (.encryptBlock nr) => if nr == 10 then 0x10 else if nr == 12 then 0x18 else 0x20
  | some (.decryptBlock nr) => if nr == 10 then 0x90 else if nr == 12 then 0x98 else 0xa0
  | _ => 0x10

/-- Every location holds a value: what it held, or the given bits where it was `undef`. -/
def fillSlots {n : Nat} (r : Vector (Slot Byte) n) (bits : Vector Byte n) : Vector (Slot Byte) n :=
  Vector.ofFn fun i : Fin n => if r[i].known then r[i] else Slot.hold bits[i]

/-- `XK` as a command's `expand` leaves it: `XK[0..XKLEN-1]` hold values (R155), those already there and free ones. -/
def placedStore (s : State) (command : Byte) : Memory :=
  match commandVariant command with
  | some v => (List.range v.xklen).map fun a => (a, (Memory.find s.xk a).getD (Config.placedXK s.tick a))
  | none => s.xk

/-- A running command at the micro-op-level entry point with word `w` next: the sequencer presents a word only inside a
command, whose registers hold values (R155, R221); the values not yet there are free (log 9). -/
def State.placeUop (s : State) (w : Byte) : State :=
  { s with
    ports := { s.ports with rst := false }
    status := Status.accepted
    cmdreg := Slot.hold (commandFor w)
    upc := 0
    uopIn := [w]
    keyreg := fillSlots s.keyreg (Config.discardedKEYREG s.tick)
    dinreg := fillSlots s.dinreg (Config.discardedDINREG s.tick)
    st := fillSlots s.st (Config.discardedST s.tick)
    xk := placedStore s (commandFor w) }

/-- Command word `w` on port `cmd` with `start` raised and the core idle (R167). -/
def State.placeCommand (s : State) (w : Byte) : State :=
  { s with
    ports := { s.ports with rst := false, start := true, cmd := w }
    status := { s.status with busy := false } }

/-- A word placed where its format is fetched. -/
def State.placeWord (s : State) (w : Byte) : State :=
  match tableWordFormat w with
  | .M => s.placeUop w
  | .H => s.placeCommand w

end Sys2Proof.Machine
end

