-- ==== Sys2Proof/Machine/Step.lean ====
section
/-! DEFINITION. One step of the machine: one clock edge (log 1). -/

namespace Sys2Proof.Machine

open Sys2Proof

/-- One step: the action of the edge, then the ports move on. -/
def step (s : State) : Host.Outcome State Fault Refusal :=
  match s.action with
  | .reset => .next s.resetStep.advance
  | .run i t => advanced (exec i t)
  | .complete => .next s.complete.advance
  | .idle => .next s.advance
  | .refuse r => .refused r

/-- The state with a bare word placed so that the next step runs it (log 9). -/
def State.withFetchWord (s : State) (nbits w : Nat) : State :=
  if nbits ≤ 8 then s.placeWord (BitVec.ofNat 8 w) else s

end Sys2Proof.Machine
end

