-- ==== Sys2Proof/Safety.lean ====
section
/-! DEFINITION. The terms claims are stated in: when a micro-op may run, the invariants of R29, R42, R155, runs of micro-ops, and
the printed table of the micro-program (R147). -/

namespace Sys2Proof.Machine

open Sys2Proof

/-- A micro-op may run: a command is being executed and `CMDREG` holds a value (93 U5). -/
def State.InCommand (s : State) : Prop := s.status.busy = true ∧ s.cmdreg.known = true

/-- A command of variant `v` is being executed (R27). -/
def State.Running (s : State) (v : Variant) : Prop := s.InCommand ∧ commandVariant s.cmdreg.val = some v

/-- Only `ST` and `UPC` differ, `UPC` by 1 (R34). -/
def OnlySTChanged (s t : State) : Prop := t = { s with st := t.st, upc := s.upc + 1 }

/-- `t` and `u` agree on the spec's state (R20) and the entry point; nothing is said of the ports and what the host drives next
(log 2) or of the counter (log 6). -/
def SameCore (t u : State) : Prop := u = { t with ports := u.ports, host := u.host, tick := u.tick }

/-- Every location of a register is `undef` (R41). -/
def AllUndef {n : Nat} (r : Vector (Slot Byte) n) : Prop := ∀ i : Nat, i < n → slotAt r i = none

/-- The flag invariants (R29, R42). -/
def FlagsOk (x : Status) : Prop :=
  ¬(x.busy = true ∧ x.done = true) ∧ (x.err = 0 ∨ x.err = 1) ∧ (x.err ≠ 0 → x.done = true ∧ x.busy = false)

/-- While `BUSY = 1`, `CMDREG` holds a legal command and `UPC ≤ 4·Nr + 3` (R42). -/
def CommandOk (s : State) : Prop :=
  s.status.busy = true → s.cmdreg.known = true ∧ ∃ v, commandVariant s.cmdreg.val = some v ∧ s.upc ≤ 4 * v.nr + 3

/-- `OFF` is 0 to 240 and `RCI` 1 to 15 (R20). -/
def CountersOk (s : State) : Prop := s.off.val ≤ 240 ∧ 1 ≤ s.rci.val ∧ s.rci.val ≤ 15

/-- The invariant every step keeps: flags, command, counters, and the canonical form of the expanded-key store. -/
def State.Inv (s : State) : Prop := FlagsOk s.status ∧ CommandOk s ∧ CountersOk s ∧ Memory.wf s.xk = true

/-- `n` locations from `addr` on hold values. -/
def State.Holds (s : State) (sp : Space) (addr n : Nat) : Prop :=
  ∀ k, k < n → (s.location sp (addr + k)).isSome = true

/-- Which state holds a value at each index of a running command (R155): `KEYREG` and `DINREG` from the start step,
`XK[0..XKLEN-1]` after index 0, `ST` after index 1, `DOUT` after `storeOut`; and after the completion step `DOUT` still does:
whenever `DONE = 1` and `ERR = 0` (R29, R64). The entry point of log 8 is unused, as in the hardware. -/
def State.ValuesOk (s : State) : Prop :=
  s.uopIn = [] ∧
    (s.status.busy = true →
      s.Holds .keyreg 0 32 ∧ s.Holds .dinreg 0 16 ∧
        (1 ≤ s.upc → ∀ v, commandVariant s.cmdreg.val = some v → s.Holds .xk 0 v.xklen) ∧
        (2 ≤ s.upc → s.Holds .st 0 16) ∧
        (∀ v, commandVariant s.cmdreg.val = some v → 4 * v.nr + 3 ≤ s.upc → s.Holds .dout 0 16)) ∧
    (s.status.done = true → s.status.err = 0 → s.Holds .dout 0 16)

/-- Instructions executed one after another (R63). -/
def runUops : List Instr → State → Result
  | [], s => .next s
  | i :: is, s =>
    match exec i s with
    | .next t => runUops is t
    | .fault r => .fault r
    | .refused r => .refused r

/-- The micro-op at index `u` as the table of R147 prints it. -/
def uprogTable (dir : Bool) (nr u : Nat) : Option Instr :=
  if u = 0 then some .expand
  else if u = 1 then some .loadState
  else if u = 2 then some (.addRoundKey (BitVec.ofNat 4 (if dir then nr else 0)))
  else if u < 4 * nr - 1 then
    let j := (u - 3) / 4
    match (u - 3) % 4 with
    | 0 => some (if dir then .invShiftRows else .subBytes)
    | 1 => some (if dir then .invSubBytes else .shiftRows)
    | 2 => some (if dir then .addRoundKey (BitVec.ofNat 4 (nr - 1 - j)) else .mixColumns)
    | _ => some (if dir then .invMixColumns else .addRoundKey (BitVec.ofNat 4 (j + 1)))
  else if u = 4 * nr - 1 then some (if dir then .invShiftRows else .subBytes)
  else if u = 4 * nr then some (if dir then .invSubBytes else .shiftRows)
  else if u = 4 * nr + 1 then some (.addRoundKey (BitVec.ofNat 4 (if dir then 0 else nr)))
  else if u = 4 * nr + 2 then some .storeOut
  else none

/-- Byte `i` of a block. -/
def blockByte (b : Block) (i : Nat) : Byte := (b[i]?).getD 0

/-- The coefficient of `a_k` in `b_r`: element `(k − r) mod 4` of the first row of a mix matrix (R133, R135). -/
def mixCoefficient (row : Word4) (r k : Nat) : Byte := (row[(k + 4 - r) % 4]?).getD 0

/-- Row `r`, column `c` of a block after every column is multiplied by the matrix whose rows are `row` cyclically permuted
(R133, R135). -/
def mixedByte (row : Word4) (b : Block) (r c : Nat) : Byte :=
  galoisMultiply (blockByte b (4 * c)) (mixCoefficient row r 0) ^^^
    galoisMultiply (blockByte b (4 * c + 1)) (mixCoefficient row r 1) ^^^
    galoisMultiply (blockByte b (4 * c + 2)) (mixCoefficient row r 2) ^^^
    galoisMultiply (blockByte b (4 * c + 3)) (mixCoefficient row r 3)

/-- The working word of the schedule at offset `off`, from the word before it, with the round constant of the `off / keySize`-th
application of case 1 (R103, R104, R105, R107). -/
def scheduleWord (keySize off : Nat) (prev : Word4) : Word4 :=
  if off % keySize = 0 then addToFirst (subWord (rotWord prev)) ((rconTable[off / keySize]?).getD 0)
  else if keySize = 32 ∧ off % keySize = 16 then subWord prev
  else prev

/-- `RCI` after `expand` (R108). -/
def rciAfter : Variant → Nat
  | .key16 => 11
  | .key24 => 9
  | .key32 => 8

/-- A command's answer by the pure functions of R170, from the values on the ports. -/
def commandAnswer (p : Ports) : Host.Outcome Block Fault Refusal :=
  let key := (unpack 32 p.keyIn).toList.take (keylenField p.cmd).toNat
  let input := (unpack 16 p.din).toList
  if dirField p.cmd then decryptFn input key else encryptFn input key

end Sys2Proof.Machine
end

