-- ==== Sys2Proof/Certificates/Slice0/Obligations.lean ====
section
/-! DEFINITION. The statements for the provers. Each says which rule of spec/ it formalises; where a rule is a decision of the
spec itself (92_eei_decisions.md) it is still the spec's. -/

open Sys2Proof Sys2Proof.Machine

/-! ### Encoding (30_encoding.md) -/

/-- R71, R73, R74, R75, R85: every well-formed instruction, with every operand its encoding admits, decodes from its own word in
its own format. -/
def Obligations.DecodeEncode : Prop :=
  ∀ i : Instr, i.wf = true → decode i.format (encode i) = some i

/-- R71, R73, R75, R85: a word that decodes is the word of what it decodes to, which is well formed and of that format. -/
def Obligations.EncodeDecode : Prop :=
  ∀ (f : Format) (w : Byte) (i : Instr), decode f w = some i → encode i = w ∧ i.format = f ∧ i.wf = true

/-- R86: the worked encodings, both directions, and the illegal words it lists. -/
def Obligations.WorkedEncodings : Prop :=
  decodeH 0x10 = .encrypt 16 ∧ encode (.encrypt 16) = 0x10 ∧
  decodeH 0xa0 = .decrypt 32 ∧ encode (.decrypt 32) = 0xa0 ∧
  decodeH 0x14 = .encrypt 20 ∧ encode (.encrypt 20) = 0x14 ∧
  (∀ s : State, s.status.busy = false → exec (.encrypt 20) s = .next (s.raise .invalidKeySize)) ∧
  decodeM 0x10 = some (.addRoundKey 0) ∧ encode (.addRoundKey 0) = 0x10 ∧
  decodeM 0x1e = some (.addRoundKey 14) ∧ encode (.addRoundKey 14) = 0x1e ∧
  decodeM 0x83 = some (.shiftRow 3) ∧ encode (.shiftRow 3) = 0x83 ∧
  decodeM 0x91 = some (.invShiftRow 1) ∧ encode (.invShiftRow 1) = 0x91 ∧
  decodeM 0x60 = some .mixColumns ∧ encode .mixColumns = 0x60 ∧
  decodeM 0xdc = some (.encryptBlock 12) ∧ encode (.encryptBlock 12) = 0xdc ∧
  decodeM 0xee = some (.decryptBlock 14) ∧ encode (.decryptBlock 14) = 0xee ∧
  decodeM 0x00 = none ∧ decodeM 0x1f = none ∧ decodeM 0x61 = none ∧ decodeM 0x84 = none ∧ decodeM 0xdb = none ∧
  decodeM 0xff = none

/-- R77: exactly the listed format M words are illegal, they are 218, no micro-program has one, and a step driven with one, at the
entry point of log 8, is refused by name. -/
def Obligations.IllegalWords : Prop :=
  (∀ w : Byte, decodeM w = none ↔
    uopField w = 0x0 ∨ uopField w = 0xf ∨ w = 0x1f ∨
    (0x2 ≤ uopField w ∧ uopField w ≤ 0x7 ∧ argField w ≠ 0) ∨
    ((uopField w = 0x8 ∨ uopField w = 0x9) ∧ 3 < argField w) ∨
    (0xa ≤ uopField w ∧ uopField w ≤ 0xc ∧ argField w ≠ 0) ∨
    ((uopField w = 0xd ∨ uopField w = 0xe) ∧ argField w ≠ 10 ∧ argField w ≠ 12 ∧ argField w ≠ 14)) ∧
  ((List.range 256).filter fun n => (decodeM (BitVec.ofNat 8 n)).isNone).length = 218 ∧
  (∀ (dir : Bool) (v : Variant) (i : Instr), i ∈ uprog dir v.nr → decodeM (encode i) = some i) ∧
  ∀ (s : State) (v : Variant) (w : Byte) (rest : List Byte), s.ports.rst = false → s.Running v → s.upc < 4 * v.nr + 3 →
    s.uopIn = w :: rest → decodeM w = none → step s = .refused (.illegalUopWord w)

/-- R83: a word selects at most one format M row of the opcode table and exactly one format H row. -/
def Obligations.TableRowsDisjoint : Prop :=
  ∀ w : Byte, (rowsSelected .M w).length ≤ 1 ∧ (rowsSelected .H w).length = 1

/-! ### Function units (40_lookup_tables.md, 42_galois_multiplier.md) -/

/-- R91, R93: the two tables are inverse permutations; the S-box has no fixed point and no entry with `SBOX[b] = b ^ 0xff`. The
values are general knowledge that the spec records (log 11). -/
def Obligations.SBoxTables : Prop :=
  ∀ b : Byte, inverseSBoxLookup (sBoxLookup b) = b ∧ sBoxLookup (inverseSBoxLookup b) = b ∧ sBoxLookup b ≠ b ∧
    sBoxLookup b ≠ b ^^^ 0xff

/-- R92: the closed form regenerates the table: `v` the multiplicative inverse of `b`, 0 for 0, then the affine step. General
knowledge that the spec records (log 11). -/
def Obligations.SBoxClosedForm : Prop :=
  ∀ b : Byte, ∃ v : Byte, (b = 0 → v = 0) ∧ (b ≠ 0 → galoisMultiply b v = 1) ∧ sBoxLookup b = sBoxAffine v

/-- R95: `RCON[1] = 0x01`, each next entry up to 14 is the one before doubled in the field, and every other index is refused,
although the ROM's location 0 holds `0x8d`. -/
def Obligations.RoundConstants : Prop :=
  roundConstant 1 = .ok 0x01 ∧
  (∀ i : Nat, 2 ≤ i → i ≤ 14 → ∃ c d, roundConstant (i - 1) = .ok c ∧ roundConstant i = .ok d ∧
    d = galoisMultiply c 0x02) ∧
  (∀ i : Nat, i = 0 ∨ 15 ≤ i → roundConstant i = .error (.roundConstantIndex i)) ∧
  rcData 0 = 0x8d

/-- R117: the laws of the field multiplication. -/
def Obligations.GaloisFieldLaws : Prop :=
  (∀ a : Byte, galoisMultiply a 0 = 0 ∧ galoisMultiply a 1 = a) ∧
  (∀ a b : Byte, galoisMultiply a b = galoisMultiply b a) ∧
  (∀ a b c : Byte, galoisMultiply (galoisMultiply a b) c = galoisMultiply a (galoisMultiply b c)) ∧
  (∀ a b c : Byte, galoisMultiply a (b ^^^ c) = galoisMultiply a b ^^^ galoisMultiply a c) ∧
  (∀ b : Byte, galoisMultiply 0 b = 0) ∧
  (∀ b : Byte, b ≠ 0 → ∃! v : Byte, galoisMultiply b v = 1) ∧
  (∀ a b : Byte, galoisMultiply a b = 0 → a = 0 ∨ b = 0)

/-- R118: multiplication by each constant the core uses, written with `xtime`. -/
def Obligations.MultiplyByConstants : Prop :=
  ∀ a : Byte,
    xtime a = galoisMultiply a 0x02 ∧
    galoisMultiply a 0x01 = a ∧
    galoisMultiply a 0x03 = xtime a ^^^ a ∧
    galoisMultiply a 0x09 = xtime (xtime (xtime a)) ^^^ a ∧
    galoisMultiply a 0x0b = xtime (xtime (xtime a)) ^^^ xtime a ^^^ a ∧
    galoisMultiply a 0x0d = xtime (xtime (xtime a)) ^^^ xtime (xtime a) ^^^ a ∧
    galoisMultiply a 0x0e = xtime (xtime (xtime a)) ^^^ xtime (xtime a) ^^^ xtime a

/-! ### State transforms (43_state_transforms.md): each completes, with its result, and changes `ST` and `UPC` only -/

/-- R126. `OnlySTChanged` is the whole frame: every other field, `XK` with every byte, `DOUT`, `STATUS` and the rest unchanged,
`UPC` one further. -/
def Obligations.SubBytes : Prop :=
  encode .subBytes = 0x20 ∧
  ∀ (s : State) (b : Block), s.InCommand → s.memRead .st 0 16 = .ok b →
    ∃ t, exec .subBytes s = .next t ∧ OnlySTChanged s t ∧
      ∀ (i : Nat) (h : i < 16), slotAt t.st i = some (sBoxLookup b[i])

/-- R127. -/
def Obligations.InvSubBytes : Prop :=
  encode .invSubBytes = 0x30 ∧
  ∀ (s : State) (b : Block), s.InCommand → s.memRead .st 0 16 = .ok b →
    ∃ t, exec .invSubBytes s = .next t ∧ OnlySTChanged s t ∧
      ∀ (i : Nat) (h : i < 16), slotAt t.st i = some (inverseSBoxLookup b[i])

/-- R128: only row `n` is read, so only row `n` need hold values; the other rows keep their locations as they are. -/
def Obligations.ShiftRow : Prop :=
  (∀ n : BitVec 4, n.toNat ≤ 3 → encode (.shiftRow n) = 0x80 + n.setWidth 8) ∧
  ∀ (s : State) (n : BitVec 4), n.toNat ≤ 3 → s.InCommand →
    (∀ k, k < 4 → (s.location .st (4 * k + n.toNat)).isSome = true) →
    ∃ t, exec (.shiftRow n) s = .next t ∧ OnlySTChanged s t ∧
      (∀ k, k < 4 → slotAt t.st (4 * k + n.toNat) = slotAt s.st (4 * ((k + n.toNat) % 4) + n.toNat)) ∧
      ∀ i, i % 4 ≠ n.toNat → t.st[i]? = s.st[i]?

/-- R129: the element of column `c − n`, taken modulo 4 with result 0 to 3 (R120), moves to column `c`. -/
def Obligations.InvShiftRow : Prop :=
  (∀ n : BitVec 4, n.toNat ≤ 3 → encode (.invShiftRow n) = 0x90 + n.setWidth 8) ∧
  ∀ (s : State) (n : BitVec 4), n.toNat ≤ 3 → s.InCommand →
    (∀ k, k < 4 → (s.location .st (4 * k + n.toNat)).isSome = true) →
    ∃ t, exec (.invShiftRow n) s = .next t ∧ OnlySTChanged s t ∧
      (∀ k, k < 4 → slotAt t.st (4 * k + n.toNat) = slotAt s.st (4 * ((k + 4 - n.toNat) % 4) + n.toNat)) ∧
      ∀ i, i % 4 ≠ n.toNat → t.st[i]? = s.st[i]?

/-- R130: `new ST[4c + r] = old ST[4·((c + r) mod 4) + r]`, `UPC` one further in total. -/
def Obligations.ShiftRows : Prop :=
  encode .shiftRows = 0x40 ∧
  ∀ (s : State) (b : Block), s.InCommand → s.memRead .st 0 16 = .ok b →
    ∃ t, exec .shiftRows s = .next t ∧ OnlySTChanged s t ∧
      ∀ r k, r < 4 → k < 4 → slotAt t.st (4 * k + r) = slotAt s.st (4 * ((k + r) % 4) + r)

/-- R131: `new ST[4c + r] = old ST[4·((c − r) mod 4) + r]`. -/
def Obligations.InvShiftRows : Prop :=
  encode .invShiftRows = 0x50 ∧
  ∀ (s : State) (b : Block), s.InCommand → s.memRead .st 0 16 = .ok b →
    ∃ t, exec .invShiftRows s = .next t ∧ OnlySTChanged s t ∧
      ∀ r k, r < 4 → k < 4 → slotAt t.st (4 * k + r) = slotAt s.st (4 * ((k + 4 - r) % 4) + r)

/-- R133, R134: byte `r` of column `c` is the sum of the column's four old bytes with the coefficients
`{02, 03, 01, 01}` taken at `(k − r) mod 4`. -/
def Obligations.MixColumns : Prop :=
  encode .mixColumns = 0x60 ∧
  ∀ (s : State) (b : Block), s.InCommand → s.memRead .st 0 16 = .ok b →
    ∃ t, exec .mixColumns s = .next t ∧ OnlySTChanged s t ∧
      ∀ r k, r < 4 → k < 4 → slotAt t.st (4 * k + r) = some (mixedByte #v[0x02, 0x03, 0x01, 0x01] b r k)

/-- R135, R136: the same with `{0e, 0b, 0d, 09}`. -/
def Obligations.InvMixColumns : Prop :=
  encode .invMixColumns = 0x70 ∧
  ∀ (s : State) (b : Block), s.InCommand → s.memRead .st 0 16 = .ok b →
    ∃ t, exec .invMixColumns s = .next t ∧ OnlySTChanged s t ∧
      ∀ r k, r < 4 → k < 4 → slotAt t.st (4 * k + r) = some (mixedByte #v[0x0e, 0x0b, 0x0d, 0x09] b r k)

/-- R137, for every round-key number the current command has. -/
def Obligations.AddRoundKey : Prop :=
  (∀ r : BitVec 4, r.toNat ≤ 14 → encode (.addRoundKey r) = 0x10 + r.setWidth 8) ∧
  ∀ (s : State) (v : Variant) (r : BitVec 4) (b k : Block), s.Running v → r.toNat ≤ v.nr →
    s.memRead .st 0 16 = .ok b → s.memRead .xk (16 * r.toNat) 16 = .ok k →
    ∃ t, exec (.addRoundKey r) s = .next t ∧ OnlySTChanged s t ∧
      ∀ (i : Nat) (h : i < 16), slotAt t.st i = some (b[i] ^^^ k[i])

/-- R132: the two index tables as printed, their formulas, and that each is the inverse permutation of the other. -/
def Obligations.RowPermutations : Prop :=
  (List.finRange 16).map (fun i => (shiftRowsPerm i).val) = [0, 5, 10, 15, 4, 9, 14, 3, 8, 13, 2, 7, 12, 1, 6, 11] ∧
  (List.finRange 16).map (fun i => (invShiftRowsPerm i).val) = [0, 13, 10, 7, 4, 1, 14, 11, 8, 5, 2, 15, 12, 9, 6, 3] ∧
  ∀ i : Fin 16,
    (shiftRowsPerm i).val = 4 * ((i.val / 4 + i.val % 4) % 4) + i.val % 4 ∧
    ((invShiftRowsPerm i).val : Int) = 4 * (((i.val / 4 : Nat) - (i.val % 4 : Nat) : Int) % 4) + (i.val % 4 : Nat) ∧
    invShiftRowsPerm (shiftRowsPerm i) = i ∧ shiftRowsPerm (invShiftRowsPerm i) = i

/-- R138: each transform and its inverse, in either order, leave the whole state as it was but for `UPC`; and the two
commutation facts. -/
def Obligations.InversePairs : Prop :=
  (∀ (s : State) (b : Block) (i j : Instr), s.InCommand → s.memRead .st 0 16 = .ok b →
    (i, j) ∈ [(Instr.subBytes, Instr.invSubBytes), (.invSubBytes, .subBytes), (.shiftRows, .invShiftRows),
      (.invShiftRows, .shiftRows), (.mixColumns, .invMixColumns), (.invMixColumns, .mixColumns)] →
    runUops [i, j] s = .next { s with upc := s.upc + 2 }) ∧
  (∀ (s : State) (b : Block) (n : BitVec 4), s.InCommand → n.toNat ≤ 3 → s.memRead .st 0 16 = .ok b →
    runUops [.shiftRow n, .invShiftRow n] s = .next { s with upc := s.upc + 2 } ∧
    runUops [.invShiftRow n, .shiftRow n] s = .next { s with upc := s.upc + 2 }) ∧
  (∀ (s : State) (v : Variant) (r : BitVec 4) (b k : Block), s.Running v → r.toNat ≤ v.nr →
    s.memRead .st 0 16 = .ok b → s.memRead .xk (16 * r.toNat) 16 = .ok k →
    runUops [.addRoundKey r, .addRoundKey r] s = .next { s with upc := s.upc + 2 }) ∧
  (∀ (s : State) (b : Block), s.InCommand → s.memRead .st 0 16 = .ok b →
    runUops [.subBytes, .shiftRows] s = runUops [.shiftRows, .subBytes] s ∧
    runUops [.invSubBytes, .invShiftRows] s = runUops [.invShiftRows, .invSubBytes] s)

/-- R82, R130, R131: the four single-row micro-ops, in any order, do what the one word for all rows does, `UPC` apart. -/
def Obligations.RowByRow : Prop :=
  ∀ (s : State) (b : Block) (rows : List (BitVec 4)), s.InCommand → s.memRead .st 0 16 = .ok b →
    rows.Perm [0, 1, 2, 3] →
    (∃ t, exec .shiftRows s = .next t ∧ runUops (rows.map .shiftRow) s = .next { t with upc := s.upc + 4 }) ∧
    (∃ t, exec .invShiftRows s = .next t ∧ runUops (rows.map .invShiftRow) s = .next { t with upc := s.upc + 4 })

/-! ### Key schedule (41_key_schedule.md) -/

/-- R100, R108, R109 (b): `expand` completes for every key that holds values; it leaves `Expand(KEYREG[0..keySize-1])` in
`XK[0..XKLEN-1]`, the rest of `XK` as it was, `OFF = XKLEN`, `RCI` as the table of R108 says, and nothing else changed. -/
def Obligations.ExpandResult : Prop :=
  ∀ (s : State) (v : Variant) (key : Vector Byte v.keySize), s.Running v → s.memRead .keyreg 0 v.keySize = .ok key →
    ∃ t x, exec .expand s = .next t ∧ expandFn key.toList = .ok x ∧ x.length = v.xklen ∧
      (∀ a, a < v.xklen → t.location .xk a = x[a]?) ∧
      (∀ a, v.xklen ≤ a → t.location .xk a = s.location .xk a) ∧
      t.t.known = true ∧
      t = { s with
        xk := t.xk
        t := t.t
        off := Slot.hold v.xklen
        rci := Slot.hold (rciAfter v)
        upc := s.upc + 1 }

/-- R24 (a) (b), R101 to R107: the key verbatim, then every word is the working word of its case exclusive-or the word `keySize`
bytes earlier, the `k`-th application of case 1 using `roundConstant(k)`, `k` never above 10. -/
def Obligations.ScheduleRecurrence : Prop :=
  ∀ (key : List Byte) (v : Variant), variantOf key.length = some v →
    ∃ x, expandFn key = .ok x ∧ x.length = v.xklen ∧ x.take v.keySize = key ∧
      ∀ off, v.keySize ≤ off → off < v.xklen → off % 4 = 0 →
        off / v.keySize ≤ 10 ∧
        ∃ prev earlier new, sliceOf x (off - 4) 4 = .ok prev ∧ sliceOf x (off - v.keySize) 4 = .ok earlier ∧
          sliceOf x off 4 = .ok new ∧ new = xorBytes (scheduleWord v.keySize off prev) earlier

/-- R24 (d), R25, R109 (a) (e): what `expand` writes depends on `KEYREG[0..keySize-1]` and the key length alone: not on the key
bytes above, `DIR`, `DINREG`, `ST`, `DOUT` or what `XK` held. -/
def Obligations.ExpandReadsOnlyTheKey : Prop :=
  ∀ (s₁ s₂ t₁ : State) (v : Variant), s₁.Running v → s₂.Running v →
    (∀ i, i < v.keySize → s₁.location .keyreg i = s₂.location .keyreg i) → exec .expand s₁ = .next t₁ →
    ∃ t₂, exec .expand s₂ = .next t₂ ∧ (∀ a, a < v.xklen → t₁.location .xk a = t₂.location .xk a) ∧
      t₁.t = t₂.t ∧ t₁.off = t₂.off ∧ t₁.rci = t₂.rci

/-! ### Round orchestrator (44_round_orchestrator.md) -/

/-- R145, R150: `encryptBlock Nr` leaves `EncryptBlock(ST, XK[0..XKLEN-1], Nr)` in `ST`, `UPC` one further, nothing else
changed. -/
def Obligations.EncryptBlockResult : Prop :=
  ∀ (s : State) (v : Variant) (b : Block) (x : Vector Byte v.xklen), s.Running v → s.memRead .st 0 16 = .ok b →
    s.memRead .xk 0 v.xklen = .ok x →
    ∃ t b', exec (.encryptBlock (BitVec.ofNat 4 v.nr)) s = .next t ∧ encryptBlockFn b x.toList v.nr = .ok b' ∧
      OnlySTChanged s t ∧ ∀ (i : Nat) (h : i < 16), slotAt t.st i = some b'[i]

/-- R146, R150: the same for `decryptBlock Nr`. -/
def Obligations.DecryptBlockResult : Prop :=
  ∀ (s : State) (v : Variant) (b : Block) (x : Vector Byte v.xklen), s.Running v → s.memRead .st 0 16 = .ok b →
    s.memRead .xk 0 v.xklen = .ok x →
    ∃ t b', exec (.decryptBlock (BitVec.ofNat 4 v.nr)) s = .next t ∧ decryptBlockFn b x.toList v.nr = .ok b' ∧
      OnlySTChanged s t ∧ ∀ (i : Nat) (h : i < 16), slotAt t.st i = some b'[i]

/-- R82, R145, R146: each whole-block micro-op has exactly the effect of its expansion on everything but `UPC`, which the
expansion advances by its `4·Nr` words. -/
def Obligations.BlockExpansion : Prop :=
  ∀ (s : State) (v : Variant) (b : Block) (x : Vector Byte v.xklen), s.Running v → s.memRead .st 0 16 = .ok b →
    s.memRead .xk 0 v.xklen = .ok x →
    (∃ t, exec (.encryptBlock (BitVec.ofNat 4 v.nr)) s = .next t ∧
      runUops (encryptBlockUops v.nr) s = .next { t with upc := s.upc + 4 * v.nr }) ∧
    (∃ t, exec (.decryptBlock (BitVec.ofNat 4 v.nr)) s = .next t ∧
      runUops (decryptBlockUops v.nr) s = .next { t with upc := s.upc + 4 * v.nr })

/-- R82, R152: a command's expansion with the whole-block micro-op as one word leaves, from every running command with key and
input block, the state that the micro-program leaves, `UPC` apart, which counts the words. -/
def Obligations.CommandExpansion : Prop :=
  ∀ (s : State) (v : Variant) (dir : Bool) (key : Vector Byte v.keySize) (b : Block), s.Running v →
    s.memRead .keyreg 0 v.keySize = .ok key → s.memRead .dinreg 0 16 = .ok b →
    ∃ t, runUops (uprogWithBlock dir v.nr) s = .next t ∧ t.upc = s.upc + 4 ∧
      runUops (uprog dir v.nr) s = .next { t with upc := s.upc + (4 * v.nr + 3) }

/-- R151: for every block, every legal `Nr` and every expanded key of the right length, the two procedures undo each other, in
both orders. -/
def Obligations.BlockProceduresInverse : Prop :=
  ∀ (b : Block) (v : Variant) (x : List Byte), x.length = 16 * (v.nr + 1) →
    (∃ e, encryptBlockFn b x v.nr = .ok e ∧ decryptBlockFn e x v.nr = .ok b) ∧
    (∃ d, decryptBlockFn b x v.nr = .ok d ∧ encryptBlockFn d x v.nr = .ok b)

/-- R147: the micro-program at every index is what the table of R147 prints, and its length is `4·Nr + 3`. -/
def Obligations.MicroProgramTable : Prop :=
  ∀ (dir : Bool) (v : Variant), (uprog dir v.nr).length = 4 * v.nr + 3 ∧
    ∀ u : Nat, (uprog dir v.nr)[u]? = uprogTable dir v.nr u

/-! ### Host commands (45_host_commands.md) -/

/-- R167: the accepted start step, for both commands: what is loaded, from which port bits, and that all else is unchanged; and
that the step takes it when `start = 1`, `BUSY = 0`, `rst = 0`. -/
def Obligations.AcceptedStart : Prop :=
  ∀ (s : State) (i : Instr) (keylen : BitVec 7), i = .encrypt keylen ∨ i = .decrypt keylen → s.status.busy = false →
    keylen = 16 ∨ keylen = 24 ∨ keylen = 32 →
    ∃ t, exec i s = .next t ∧ t.cmdreg = Slot.hold (encode i) ∧
      (∀ k, k < 32 → slotAt t.keyreg k = some (s.ports.keyIn.extractLsb' (8 * k) 8)) ∧
      (∀ k, k < 16 → slotAt t.dinreg k = some (s.ports.din.extractLsb' (8 * k) 8)) ∧
      t = { s with
        cmdreg := t.cmdreg
        keyreg := t.keyreg
        dinreg := t.dinreg
        status := ⟨true, false, 0⟩
        upc := 0 } ∧
      (s.ports.rst = false → s.ports.start = true → s.ports.cmd = encode i → ∃ u, step s = .next u ∧ SameCore t u)

/-- R168, R186, R191: a key length that is none of 16, 24, 32 is rejected: `ERR <- 1`, `DONE <- 1`, everything else unchanged. -/
def Obligations.RejectedStart : Prop :=
  ∀ (s : State) (i : Instr) (keylen : BitVec 7), i = .encrypt keylen ∨ i = .decrypt keylen → s.status.busy = false →
    keylen ≠ 16 → keylen ≠ 24 → keylen ≠ 32 →
    exec i s = .next { s with status := ⟨false, true, 1⟩ } ∧
    (s.ports.rst = false → s.ports.start = true → s.ports.cmd = encode i →
      ∃ u, step s = .next u ∧ SameCore { s with status := ⟨false, true, 1⟩ } u)

/-- R177, R217, U18: no start step while `BUSY = 1` (the command word has no effect, and raising `start` changes nothing the
step does), none with `rst = 1`, none with `start = 0`. -/
def Obligations.IgnoredStart : Prop :=
  (∀ (s : State) (i : Instr), i.format = .H → s.status.busy = true → exec i s = .next s) ∧
  (∀ s : State, s.status.busy = true → s.ports.rst = false →
    step { s with ports := { s.ports with start := true } } = step { s with ports := { s.ports with start := false } }) ∧
  (∀ s : State, s.ports.rst = true → step s = .next s.resetStep.advance) ∧
  (∀ s : State, s.ports.rst = false → s.status.busy = false → s.ports.start = false → step s = .next s.advance)

/-- R172. -/
def Obligations.LoadState : Prop :=
  encode .loadState = 0xb0 ∧
  ∀ (s : State) (b : Block), s.InCommand → s.memRead .dinreg 0 16 = .ok b →
    ∃ t, exec .loadState s = .next t ∧ OnlySTChanged s t ∧
      ∀ (i : Nat) (h : i < 16), slotAt t.st i = some b[i]

/-- R173: and it is the last micro-op of every micro-program and the only writer of `DOUT`. -/
def Obligations.StoreOut : Prop :=
  encode .storeOut = 0xc0 ∧
  (∀ (dir : Bool) (v : Variant), (uprog dir v.nr).getLast? = some .storeOut) ∧
  (∀ (i : Instr) (s t : State), exec i s = .next t → i ≠ .storeOut → t.dout = s.dout) ∧
  ∀ (s : State) (b : Block), s.InCommand → s.memRead .st 0 16 = .ok b →
    ∃ t, exec .storeOut s = .next t ∧ t = { s with dout := t.dout, upc := s.upc + 1 } ∧
      ∀ (i : Nat) (h : i < 16), slotAt t.dout i = some b[i]

/-- R170, R187, R190: the pure functions answer `InvalidKeySize` for every illegal key length, whatever the block's length; else
`InvalidBlockLength` for every block that is not 16 bytes; else a block. -/
def Obligations.PureErrors : Prop :=
  ∀ input key : List Byte,
    (variantOf key.length = none →
      encryptFn input key = .fault .invalidKeySize ∧ decryptFn input key = .fault .invalidKeySize) ∧
    (variantOf key.length ≠ none → input.length ≠ 16 →
      encryptFn input key = .fault .invalidBlockLength ∧ decryptFn input key = .fault .invalidBlockLength) ∧
    (variantOf key.length ≠ none → input.length = 16 →
      (∃ b, encryptFn input key = .next b) ∧ ∃ b, decryptFn input key = .next b)

/-- R171: for all keys of 16, 24 or 32 bytes and all 16-byte blocks, decryption undoes encryption and conversely. -/
def Obligations.RoundTrip : Prop :=
  ∀ (p : Block) (key : List Byte), variantOf key.length ≠ none →
    (∃ e, encryptFn p.toList key = .next e ∧ decryptFn e.toList key = .next p) ∧
    (∃ d, decryptFn p.toList key = .next d ∧ encryptFn d.toList key = .next p)

/-- R171: the known-answer vector. -/
def Obligations.KnownAnswer : Prop :=
  encryptFn [0x00, 0x11, 0x22, 0x33, 0x44, 0x55, 0x66, 0x77, 0x88, 0x99, 0xaa, 0xbb, 0xcc, 0xdd, 0xee, 0xff]
      [0x00, 0x01, 0x02, 0x03, 0x04, 0x05, 0x06, 0x07, 0x08, 0x09, 0x0a, 0x0b, 0x0c, 0x0d, 0x0e, 0x0f] =
    .next #v[0x69, 0xc4, 0xe0, 0xd8, 0x6a, 0x7b, 0x04, 0x30, 0xd8, 0xcd, 0xb7, 0x80, 0x70, 0xb4, 0xc5, 0x5a]

/-- R148, R165, R166, R169, R174, R225: from every idle state in which a start step accepts a command, whatever the host drives in
between short of `rst`, the machine is busy for the start step and the `4·Nr + 3` micro-ops, and the next step, the
`4·Nr + 4`-th after the start, ends with `DONE = 1`, `ERR = 0` and in `DOUT` the answer of `Encrypt` or `Decrypt` for the values
on the ports at the start step. The count of steps is the model's, one for each core step (log 1); what the host drives in
between is the list of port values in State, and the ports fall or hold when it ends (log 2); the premise on `uopIn` says the entry
point of log 8 is unused, as in the hardware. -/
def Obligations.CommandEquivalence : Prop :=
  ∀ (s : State) (v : Variant), s.ports.rst = false → s.ports.start = true → s.status.busy = false →
    commandVariant s.ports.cmd = some v → s.uopIn = [] → (∀ p ∈ s.host, p.rst = false) →
    ∃ b, commandAnswer s.ports = .next b ∧
      (∀ k, k ≤ 4 * v.nr + 3 → ∃ t, core.run (k + 1) s = .next t ∧ t.status = ⟨true, false, 0⟩) ∧
      ∃ t, core.run (4 * v.nr + 5) s = .next t ∧ t.status = ⟨false, true, 0⟩ ∧
        ∀ (i : Nat) (h : i < 16), slotAt t.dout i = some b[i]

/-! ### Steps -/

/-- R30, R66, R148: while busy, with the sequencer presenting word `w`, a step is exec of what `w` decodes to, and then the
ports move on (log 2); the entry point's word, if any, is taken (log 8). -/
def Obligations.StepRunsUop : Prop :=
  ∀ (s : State) (w : Byte) (i : Instr), s.ports.rst = false → s.status.busy = true → s.fetch = .ok (some w) →
    decode .M w = some i →
    step s = (match exec i { s with uopIn := s.uopIn.tail } with
      | .next t => .next t.advance
      | .fault r => .fault r
      | .refused r => .refused r)

/-- R30, R66, R147: in a running command with the entry point unused, the word presented is the micro-program's at `UPC`. -/
def Obligations.FetchIsWired : Prop :=
  ∀ (s : State) (v : Variant) (i : Instr), s.Running v → s.uopIn = [] →
    uprogTable (dirField s.cmdreg.val) v.nr s.upc = some i → s.fetch = .ok (some (encode i)) ∧ decode .M (encode i) = some i

/-- R32, R167: at a start step the step is exec of what port `cmd` decodes to, and then the ports move on (log 2). -/
def Obligations.StepRunsCommand : Prop :=
  ∀ (s : State) (i : Instr), s.ports.rst = false → s.status.busy = false → s.ports.start = true →
    decode .H s.ports.cmd = some i →
    step s = (match exec i s with
      | .next t => .next t.advance
      | .fault r => .fault r
      | .refused r => .refused r)

/-- R30, R38, R155, R169: the completion step: `BUSY <- 0`, `DONE <- 1`, `ERR` as it was; `ST`, `XK`, `T`, `OFF`, `RCI`, `KEYREG`,
`DINREG` are `undef`; `DOUT`, `CMDREG`, `UPC` unchanged. Nothing is said of the bits behind the marks (log 6). -/
def Obligations.Completion : Prop :=
  ∀ (s : State) (v : Variant), s.ports.rst = false → s.Running v → s.upc = 4 * v.nr + 3 →
    ∃ t, step s = .next t ∧ t.status = ⟨false, true, s.status.err⟩ ∧
      AllUndef t.st ∧ AllUndef t.keyreg ∧ AllUndef t.dinreg ∧ (∀ a, t.location .xk a = none) ∧
      t.t.known = false ∧ t.off.known = false ∧ t.rci.known = false ∧
      t.dout = s.dout ∧ t.cmdreg = s.cmdreg ∧ t.upc = s.upc

/-- R39, R190, R210, R212: with `rst = 1` the reset step is taken from every state, a running command included: `STATUS` and `UPC`
are 0 and every data register is `undef`. -/
def Obligations.ResetStep : Prop :=
  ∀ s : State, s.ports.rst = true →
    ∃ t, step s = .next t ∧ t.status = ⟨false, false, 0⟩ ∧ t.upc = 0 ∧ t.cmdreg.known = false ∧
      AllUndef t.keyreg ∧ AllUndef t.dinreg ∧ AllUndef t.st ∧ AllUndef t.dout ∧ (∀ a, t.location .xk a = none) ∧
      t.t.known = false ∧ t.off.known = false ∧ t.rci.known = false

/-- R39: the values the spec gives for reset, in `State.reset`. -/
def Obligations.ResetValues : Prop :=
  State.reset.status = ⟨false, false, 0⟩ ∧ State.reset.upc = 0 ∧ State.reset.cmdreg.known = false ∧
    AllUndef State.reset.keyreg ∧ AllUndef State.reset.dinreg ∧ AllUndef State.reset.st ∧ AllUndef State.reset.dout ∧
    (∀ a, State.reset.location .xk a = none) ∧
    State.reset.t.known = false ∧ State.reset.off.known = false ∧ State.reset.rci.known = false

/-- R20, R27, R29, R42: every step keeps the flag invariants, a legal command with `UPC ≤ 4·Nr + 3` while busy, the ranges of `OFF`
and `RCI`, and the canonical form of the store (log 5). -/
def Obligations.InvariantKept : Prop :=
  ∀ s t : State, s.Inv → step s = .next t → t.Inv

/-- R39, R42: the invariant holds at reset. `OFF` and `RCI` are the model's values there (log 4), inside the ranges of R20. -/
def Obligations.InvariantAtReset : Prop := State.reset.Inv

/-- R29, R64, R155, R201, R221: in every state with the invariant and the values R155 says are there, the step answers a next
state, and those values are there again, all sixteen bytes of `DOUT` whenever `DONE = 1` and `ERR = 0` among them: no refusal is
reachable through the ports. -/
def Obligations.NoRefusal : Prop :=
  ∀ s : State, s.Inv → s.ValuesOk → ∃ t, step s = .next t ∧ t.Inv ∧ t.ValuesOk

/-- R155: the values' premise of `NoRefusal` holds at reset. -/
def Obligations.ValuesAtReset : Prop := State.reset.ValuesOk

/-- The model's choice (log 16): no instruction and no step answers a Fault, from any state. The spec classes the core's one
error as `fault`, a defined error outcome (93 U1), and says that it leaves a state in which the core goes on (R191, R201 a); the
model answers that state as a next state and keeps the Fault names for the pure functions of R170. -/
def Obligations.NeverFaults : Prop :=
  ∀ (s : State) (r : Fault), step s ≠ .fault r ∧ ∀ i : Instr, exec i s ≠ .fault r

/-- R23, R28, R30, R33, R34: the table of who writes what, for every micro-op that answers: `STATUS`, `CMDREG`, `KEYREG`, `DINREG`
never; `UPC` by exactly 1; `XK`, `T`, `OFF`, `RCI` only by `expand`; `DOUT` only by `storeOut`; `ST` not by those two. -/
def Obligations.WriteTable : Prop :=
  ∀ (i : Instr) (s t : State), i.format = .M → exec i s = .next t →
    t.status = s.status ∧ t.cmdreg = s.cmdreg ∧ t.keyreg = s.keyreg ∧ t.dinreg = s.dinreg ∧ t.upc = s.upc + 1 ∧
    t.ports = s.ports ∧ t.host = s.host ∧ t.uopIn = s.uopIn ∧ t.tick = s.tick ∧
    (i ≠ .expand → t.xk = s.xk ∧ t.t = s.t ∧ t.off = s.off ∧ t.rci = s.rci) ∧
    (i ≠ .storeOut → t.dout = s.dout) ∧
    (i = .expand ∨ i = .storeOut → t.st = s.st)

/-- R32, R36: while a command runs and `rst = 0`, the values on the other input ports have no effect on the step: another set of
port values gives the same outcome, the ports themselves apart. -/
def Obligations.PortsUnreadWhileBusy : Prop :=
  ∀ (s : State) (p : Ports), s.status.busy = true → s.ports.rst = false → p.rst = false →
    (∀ t, step s = .next t → ∃ t', step { s with ports := p } = .next t' ∧ { t' with ports := t.ports } = t) ∧
    (∀ r, step s = .refused r → step { s with ports := p } = .refused r)

/-! ### Refusals and the memory primitives -/

/-- R79: `addRoundKey r` with `r > Nr`, and a whole-block micro-op whose operand is not `Nr`, are refused; no micro-program
contains one. -/
def Obligations.DynamicallyIllegal : Prop :=
  (∀ (s : State) (v : Variant) (r : BitVec 4), s.Running v → r.toNat ≤ 14 → v.nr < r.toNat →
    exec (.addRoundKey r) s = .refused (.roundKeyAboveNr r.toNat)) ∧
  (∀ (s : State) (v : Variant) (nr : BitVec 4), s.Running v → nr = 10 ∨ nr = 12 ∨ nr = 14 → nr.toNat ≠ v.nr →
    exec (.encryptBlock nr) s = .refused (.roundCountMismatch nr.toNat) ∧
    exec (.decryptBlock nr) s = .refused (.roundCountMismatch nr.toNat)) ∧
  (∀ (dir : Bool) (v : Variant) (i : Instr), i ∈ uprog dir v.nr →
    (∀ r, i = .addRoundKey r → r.toNat ≤ v.nr) ∧ (∀ nr, i ≠ .encryptBlock nr) ∧ ∀ nr, i ≠ .decryptBlock nr)

/-- 93 U5: every micro-op is refused while `BUSY = 0`, and while `CMDREG` is `undef`. -/
def Obligations.UopsNeedACommand : Prop :=
  ∀ (i : Instr) (s : State), i.format = .M →
    (s.status.busy = false → exec i s = .refused .notBusy) ∧
    (s.status.busy = true → s.cmdreg.known = false → exec i s = .refused .undefCommand)

/-- R41, R61: a micro-op that would read an `undef` location is refused, with the location named: every micro-op and every space it
reads. The bytes of `XK`, `OFF` and `RCI` that `expand` reads it has written itself (R221). That the location named is the first in
the order of the rule's reads is the model's choice (log 15). -/
def Obligations.UndefReadsRefused : Prop :=
  (∀ (i : Instr) (s : State) (a : Nat), s.InCommand → s.firstUndef .st 0 16 = some a →
    i ∈ [Instr.subBytes, .invSubBytes, .shiftRows, .invShiftRows, .mixColumns, .invMixColumns, .storeOut] →
    exec i s = .refused (.undefRead .st a)) ∧
  (∀ (s : State) (n : BitVec 4) (c : Nat), s.InCommand → n.toNat ≤ 3 → c < 4 → s.location .st (4 * c + n.toNat) = none →
    (∀ c', c' < c → s.location .st (4 * c' + n.toNat) ≠ none) →
    exec (.shiftRow n) s = .refused (.undefRead .st (4 * c + n.toNat)) ∧
    exec (.invShiftRow n) s = .refused (.undefRead .st (4 * c + n.toNat))) ∧
  (∀ (s : State) (a : Nat), s.InCommand → s.firstUndef .dinreg 0 16 = some a →
    exec .loadState s = .refused (.undefRead .dinreg a)) ∧
  (∀ (s : State) (v : Variant) (a : Nat), s.Running v → s.firstUndef .keyreg 0 v.keySize = some a →
    exec .expand s = .refused (.undefRead .keyreg a)) ∧
  (∀ (s : State) (v : Variant) (r : BitVec 4) (a : Nat), s.Running v → r.toNat ≤ v.nr →
    (s.firstUndef .xk (16 * r.toNat) 16 = some a → exec (.addRoundKey r) s = .refused (.undefRead .xk a)) ∧
    (s.firstUndef .xk (16 * r.toNat) 16 = none → s.firstUndef .st 0 16 = some a →
      exec (.addRoundKey r) s = .refused (.undefRead .st a))) ∧
  (∀ (s : State) (v : Variant) (a : Nat), s.Running v → s.firstUndef .st 0 16 = some a →
    exec (.encryptBlock (BitVec.ofNat 4 v.nr)) s = .refused (.undefRead .st a) ∧
    exec (.decryptBlock (BitVec.ofNat 4 v.nr)) s = .refused (.undefRead .st a)) ∧
  (∀ (s : State) (v : Variant) (a : Nat), s.Running v → s.firstUndef .st 0 16 = none → s.firstUndef .xk 0 v.xklen = some a →
    exec (.encryptBlock (BitVec.ofNat 4 v.nr)) s = .refused (.undefRead .xk a)) ∧
  (∀ (s : State) (v : Variant) (r a : Nat), s.Running v → s.firstUndef .st 0 16 = none → r ≤ v.nr →
    s.firstUndef .xk (16 * r) 16 = some a → (∀ r', r < r' → r' ≤ v.nr → s.firstUndef .xk (16 * r') 16 = none) →
    exec (.decryptBlock (BitVec.ofNat 4 v.nr)) s = .refused (.undefRead .xk a))

/-- 00_scope.md R12, 20_memory.md R61: what `MemWrite` wrote `MemRead` reads back, and every other location of every space is as before. -/
def Obligations.ReadAfterWrite : Prop :=
  ∀ (s t : State) (sp : Space) (addr n : Nat) (v : Vector Byte n), s.memWrite sp addr v = .ok t →
    t.memRead sp addr n = .ok v ∧
    ∀ (sp' : Space) (a : Nat), sp' ≠ sp ∨ a < addr ∨ addr + n ≤ a → t.location sp' a = s.location sp' a

/-- R61, R62: a read beyond a space, a read of an `undef` location, a write to a ROM and a write beyond a space are refused, and
every other read and write answers. -/
def Obligations.AccessRefusals : Prop :=
  (∀ (s : State) (sp : Space) (addr n : Nat), sp.size < addr + n → s.memRead sp addr n = .error (.outOfRange sp addr)) ∧
  (∀ (s : State) (sp : Space) (addr n a : Nat), addr + n ≤ sp.size → s.firstUndef sp addr n = some a →
    s.memRead sp addr n = .error (.undefRead sp a) ∧ addr ≤ a ∧ a < addr + n ∧ s.location sp a = none) ∧
  (∀ (s : State) (sp : Space) (addr n : Nat), addr + n ≤ sp.size → s.firstUndef sp addr n = none →
    ∃ v, s.memRead sp addr n = .ok v) ∧
  (∀ (s : State) (sp : Space) (addr n : Nat) (v : Vector Byte n), sp.isRom = true →
    s.memWrite sp addr v = .error (.romWrite sp)) ∧
  (∀ (s : State) (sp : Space) (addr n : Nat) (v : Vector Byte n), sp.isRom = false → sp.size < addr + n →
    s.memWrite sp addr v = .error (.outOfRange sp addr)) ∧
  (∀ (s : State) (sp : Space) (addr n : Nat) (v : Vector Byte n), sp.isRom = false → addr + n ≤ sp.size →
    ∃ t, s.memWrite sp addr v = .ok t)

/-- R52: byte `i` of a sequence is on bits `8i+7 : 8i` of its port, both ways; so an accepted start takes Key byte 0 from
`key_in[7:0]` and input byte 15 from `din[127:120]`, and `dout[7:0]` is output byte 0. -/
def Obligations.PortPacking : Prop :=
  (∀ (n : Nat) (v : Vector Byte n) (i : Nat) (h : i < n), (pack v).extractLsb' (8 * i) 8 = v[i]) ∧
  (∀ (n : Nat) (p : BitVec (8 * n)), pack (unpack n p) = p) ∧
  (∀ (s : State) (w : Byte), slotAt (s.acceptStart w).keyreg 0 = some (s.ports.keyIn.extractLsb' 0 8) ∧
    slotAt (s.acceptStart w).dinreg 15 = some (s.ports.din.extractLsb' 120 8)) ∧
  (∀ (s : State) (b : Byte), slotAt s.dout 0 = some b → s.doutPort.extractLsb' 0 8 = b)

/-- R28, R29, R31: port `dout` shows `DOUT` where it holds values; `busy`, `done`, `err` are the fields of `STATUS`, at bits 0, 1
and 3:2 of register 4. Nothing is said of `dout` where it is `undef` (log 7). -/
def Obligations.OutputPorts : Prop :=
  (∀ (s : State) (b : Block), s.memRead .dout 0 16 = .ok b → s.doutPort = pack b) ∧
  (∀ s : State, s.busyPort = s.status.word.extractLsb' 0 1 ∧ s.donePort = s.status.word.extractLsb' 1 1 ∧
    s.errPort = s.status.word.extractLsb' 2 2)
end

