-- ==== Sys2Proof/Laws/Memory.lean ====
section
/-! SUPPORT. The expanded-key store: read after write, and the canonical form (log 5). -/

namespace Sys2Proof.Machine

open Sys2Proof

@[simp] theorem Memory.find_nil (k : Nat) : Memory.find [] k = none := rfl

/-- Reading the address just written gives the byte written. -/
@[simp] theorem Memory.find_put_same (m : Memory) (k : Nat) (v : Byte) : (Memory.put m k v).find k = some v := by
  induction m with
  | nil => simp [Memory.put, Memory.find]
  | cons c m ih =>
    obtain ⟨a, b⟩ := c
    unfold Memory.put
    split
    · simp [Memory.find]
    · split
      · simp [Memory.find]
      · simp [Memory.find, *]

/-- A write leaves every other address alone. -/
theorem Memory.find_put_other (m : Memory) (k a : Nat) (v : Byte) (h : a ≠ k) :
    (Memory.put m k v).find a = m.find a := by
  induction m with
  | nil => simp [Memory.put, Memory.find, Ne.symm h]
  | cons c m ih =>
    obtain ⟨a', b⟩ := c
    unfold Memory.put
    split
    · subst_vars; simp [Memory.find, Ne.symm h]
    · split
      · simp [Memory.find, Ne.symm h]
      · simp [Memory.find, ih]

/-- Bytes written in a row: those addresses read them, every other address reads as before. -/
theorem Memory.find_putAll (l : List Byte) (m : Memory) (addr a : Nat) :
    (Memory.putAll m addr l).find a =
      if addr ≤ a ∧ a < addr + l.length then l[a - addr]? else m.find a := by
  induction l generalizing m addr with
  | nil =>
    have h : ¬(addr ≤ a ∧ a < addr + ([] : List Byte).length) := by simp
    rw [if_neg h, Memory.putAll]
  | cons b bs ih =>
    rw [Memory.putAll, ih]
    by_cases h : a = addr
    · subst h
      have h1 : ¬(a + 1 ≤ a ∧ a < a + 1 + bs.length) := by omega
      have h2 : a ≤ a ∧ a < a + (b :: bs).length := by simp
      rw [if_neg h1, if_pos h2]
      simp
    · rw [Memory.find_put_other _ _ _ _ h]
      by_cases h1 : addr + 1 ≤ a ∧ a < addr + 1 + bs.length
      · have h2 : addr ≤ a ∧ a < addr + (b :: bs).length := by simp; omega
        rw [if_pos h1, if_pos h2]
        have h3 : a - addr = (a - (addr + 1)) + 1 := by omega
        rw [h3]; simp
      · have h2 : ¬(addr ≤ a ∧ a < addr + (b :: bs).length) := by simp; omega
        rw [if_neg h1, if_neg h2]

/-- A store that lists every address of a range reads the listed bytes there and nothing else. -/
theorem Memory.find_range' (f : Nat → Byte) (n lo k : Nat) :
    Memory.find ((List.range' lo n).map fun a => (a, f a)) k = if lo ≤ k ∧ k < lo + n then some (f k) else none := by
  induction n generalizing lo with
  | zero =>
    simp
  | succ n ih =>
    simp only [List.range'_succ, List.map_cons, Memory.find, ih]
    by_cases h : lo = k
    · rw [if_pos h, if_pos (by omega), h]
    · have h' : (lo + 1 ≤ k ∧ k < lo + 1 + n) ↔ (lo ≤ k ∧ k < lo + (n + 1)) := by omega
      simp only [h', if_neg h]

/-- The same for addresses from 0 on. -/
theorem Memory.find_range (f : Nat → Byte) (n k : Nat) :
    Memory.find ((List.range n).map fun a => (a, f a)) k = if k < n then some (f k) else none := by
  rw [List.range_eq_range', Memory.find_range']; simp

theorem Memory.risingFrom_mono (m : Memory) (lo lo' : Nat) (h : lo' ≤ lo) (w : Memory.risingFrom lo m = true) :
    Memory.risingFrom lo' m = true := by
  cases m with
  | nil => rfl
  | cons c m =>
    obtain ⟨a, b⟩ := c
    simp only [Memory.risingFrom, Bool.and_eq_true, decide_eq_true_eq] at w ⊢
    exact ⟨⟨by omega, w.1.2⟩, w.2⟩

theorem Memory.risingFrom_put (m : Memory) (lo k : Nat) (v : Byte) (hlo : lo ≤ k) (hk : k < 240)
    (w : Memory.risingFrom lo m = true) : Memory.risingFrom lo (Memory.put m k v) = true := by
  induction m generalizing lo with
  | nil => simp [Memory.put, Memory.risingFrom, hlo, hk]
  | cons c m ih =>
    obtain ⟨a, b⟩ := c
    simp only [Memory.risingFrom, Bool.and_eq_true, decide_eq_true_eq] at w
    obtain ⟨⟨w1, w2⟩, w3⟩ := w
    unfold Memory.put
    split
    · subst_vars
      simp [Memory.risingFrom, hlo, hk, w3]
    · split
      · simp only [Memory.risingFrom, Bool.and_eq_true, decide_eq_true_eq]
        exact ⟨⟨hlo, hk⟩, ⟨by omega, w2⟩, w3⟩
      · simp only [Memory.risingFrom, Bool.and_eq_true, decide_eq_true_eq]
        exact ⟨⟨w1, w2⟩, ih (a + 1) (by omega) w3⟩

/-- Writing a byte inside the store keeps the canonical form. -/
theorem Memory.wf_put (m : Memory) (k : Nat) (v : Byte) (hk : k < 240) (w : Memory.wf m = true) :
    Memory.wf (Memory.put m k v) = true := Memory.risingFrom_put m 0 k v (by omega) hk w

/-- Writing bytes inside the store keeps the canonical form. -/
theorem Memory.wf_putAll (l : List Byte) (m : Memory) (addr : Nat) (h : addr + l.length ≤ 240) (w : Memory.wf m = true) :
    Memory.wf (Memory.putAll m addr l) = true := by
  induction l generalizing m addr with
  | nil => exact w
  | cons b bs ih =>
    simp only [List.length_cons] at h
    exact ih _ _ (by omega) (Memory.wf_put m addr b (by omega) w)

/-- The store after reset is in canonical form. -/
theorem State.reset_xk_wf : Memory.wf State.reset.xk = true := rfl

/-- Every store operation keeps the canonical form. -/
theorem State.memWrite_wf (s t : State) (sp : Space) (addr : Nat) {n : Nat} (v : Vector Byte n)
    (h : s.memWrite sp addr v = .ok t) (w : Memory.wf s.xk = true) : Memory.wf t.xk = true := by
  unfold State.memWrite at h
  split at h
  · cases h
  · split at h
    · cases h
      rename_i hrom hr
      cases sp with
      | xk =>
        simp only [Space.size] at hr
        simp only [State.store]
        exact Memory.wf_putAll _ _ _ (by simpa using hr) w
      | st => simpa only [State.store] using w
      | keyreg => simpa only [State.store] using w
      | dinreg => simpa only [State.store] using w
      | dout => simpa only [State.store] using w
      | sbox => simp [Space.isRom] at hrom
      | isbox => simp [Space.isRom] at hrom
      | rcon => simp [Space.isRom] at hrom
    · cases h

end Sys2Proof.Machine
end

