-- ==== Sys2Proof/Laws/State.lean ====
section
/-! SUPPORT. One lemma for each field under each named update of State, so that no later proof unfolds a record update. -/

namespace Sys2Proof.Machine

open Sys2Proof

/-! ### `State.acceptStart` -/

@[simp] theorem State.acceptStart_st (s : State) (w : Byte) : (s.acceptStart w).st = s.st := by
  simp only [State.acceptStart]
@[simp] theorem State.acceptStart_xk (s : State) (w : Byte) : (s.acceptStart w).xk = s.xk := by
  simp only [State.acceptStart]
@[simp] theorem State.acceptStart_t (s : State) (w : Byte) : (s.acceptStart w).t = s.t := by
  simp only [State.acceptStart]
@[simp] theorem State.acceptStart_off (s : State) (w : Byte) : (s.acceptStart w).off = s.off := by
  simp only [State.acceptStart]
@[simp] theorem State.acceptStart_rci (s : State) (w : Byte) : (s.acceptStart w).rci = s.rci := by
  simp only [State.acceptStart]
@[simp] theorem State.acceptStart_keyreg (s : State) (w : Byte) : (s.acceptStart w).keyreg = writeSlots s.keyreg 0 (unpack 32 s.ports.keyIn) := by
  simp only [State.acceptStart]
@[simp] theorem State.acceptStart_dinreg (s : State) (w : Byte) : (s.acceptStart w).dinreg = writeSlots s.dinreg 0 (unpack 16 s.ports.din) := by
  simp only [State.acceptStart]
@[simp] theorem State.acceptStart_cmdreg (s : State) (w : Byte) : (s.acceptStart w).cmdreg = Slot.hold w := by
  simp only [State.acceptStart]
@[simp] theorem State.acceptStart_dout (s : State) (w : Byte) : (s.acceptStart w).dout = s.dout := by
  simp only [State.acceptStart]
@[simp] theorem State.acceptStart_status (s : State) (w : Byte) : (s.acceptStart w).status = Status.accepted := by
  simp only [State.acceptStart]
@[simp] theorem State.acceptStart_upc (s : State) (w : Byte) : (s.acceptStart w).upc = 0 := by
  simp only [State.acceptStart]
@[simp] theorem State.acceptStart_ports (s : State) (w : Byte) : (s.acceptStart w).ports = s.ports := by
  simp only [State.acceptStart]
@[simp] theorem State.acceptStart_host (s : State) (w : Byte) : (s.acceptStart w).host = s.host := by
  simp only [State.acceptStart]
@[simp] theorem State.acceptStart_uopIn (s : State) (w : Byte) : (s.acceptStart w).uopIn = s.uopIn := by
  simp only [State.acceptStart]
@[simp] theorem State.acceptStart_tick (s : State) (w : Byte) : (s.acceptStart w).tick = s.tick := by
  simp only [State.acceptStart]

/-! ### `State.raise` -/

@[simp] theorem State.raise_st (s : State) (e : Fault) : (s.raise e).st = s.st := by
  simp only [State.raise]
@[simp] theorem State.raise_xk (s : State) (e : Fault) : (s.raise e).xk = s.xk := by
  simp only [State.raise]
@[simp] theorem State.raise_t (s : State) (e : Fault) : (s.raise e).t = s.t := by
  simp only [State.raise]
@[simp] theorem State.raise_off (s : State) (e : Fault) : (s.raise e).off = s.off := by
  simp only [State.raise]
@[simp] theorem State.raise_rci (s : State) (e : Fault) : (s.raise e).rci = s.rci := by
  simp only [State.raise]
@[simp] theorem State.raise_keyreg (s : State) (e : Fault) : (s.raise e).keyreg = s.keyreg := by
  simp only [State.raise]
@[simp] theorem State.raise_dinreg (s : State) (e : Fault) : (s.raise e).dinreg = s.dinreg := by
  simp only [State.raise]
@[simp] theorem State.raise_cmdreg (s : State) (e : Fault) : (s.raise e).cmdreg = s.cmdreg := by
  simp only [State.raise]
@[simp] theorem State.raise_dout (s : State) (e : Fault) : (s.raise e).dout = s.dout := by
  simp only [State.raise]
@[simp] theorem State.raise_status (s : State) (e : Fault) : (s.raise e).status = s.status.rejected e := by
  simp only [State.raise]
@[simp] theorem State.raise_upc (s : State) (e : Fault) : (s.raise e).upc = s.upc := by
  simp only [State.raise]
@[simp] theorem State.raise_ports (s : State) (e : Fault) : (s.raise e).ports = s.ports := by
  simp only [State.raise]
@[simp] theorem State.raise_host (s : State) (e : Fault) : (s.raise e).host = s.host := by
  simp only [State.raise]
@[simp] theorem State.raise_uopIn (s : State) (e : Fault) : (s.raise e).uopIn = s.uopIn := by
  simp only [State.raise]
@[simp] theorem State.raise_tick (s : State) (e : Fault) : (s.raise e).tick = s.tick := by
  simp only [State.raise]

/-! ### `State.complete` -/

@[simp] theorem State.complete_st (s : State) : (s.complete).st = discardBytes (Config.discardedST s.tick) := by
  simp only [State.complete]
@[simp] theorem State.complete_xk (s : State) : (s.complete).xk = [] := by
  simp only [State.complete]
@[simp] theorem State.complete_t (s : State) : (s.complete).t = Slot.undef (Config.discardedT s.tick) := by
  simp only [State.complete]
@[simp] theorem State.complete_off (s : State) : (s.complete).off = Slot.undef (Config.discardedOFF s.tick).val := by
  simp only [State.complete]
@[simp] theorem State.complete_rci (s : State) : (s.complete).rci = Slot.undef ((Config.discardedRCIPred s.tick).val + 1) := by
  simp only [State.complete]
@[simp] theorem State.complete_keyreg (s : State) : (s.complete).keyreg = discardBytes (Config.discardedKEYREG s.tick) := by
  simp only [State.complete]
@[simp] theorem State.complete_dinreg (s : State) : (s.complete).dinreg = discardBytes (Config.discardedDINREG s.tick) := by
  simp only [State.complete]
@[simp] theorem State.complete_cmdreg (s : State) : (s.complete).cmdreg = s.cmdreg := by
  simp only [State.complete]
@[simp] theorem State.complete_dout (s : State) : (s.complete).dout = s.dout := by
  simp only [State.complete]
@[simp] theorem State.complete_status (s : State) : (s.complete).status = s.status.completed := by
  simp only [State.complete]
@[simp] theorem State.complete_upc (s : State) : (s.complete).upc = s.upc := by
  simp only [State.complete]
@[simp] theorem State.complete_ports (s : State) : (s.complete).ports = s.ports := by
  simp only [State.complete]
@[simp] theorem State.complete_host (s : State) : (s.complete).host = s.host := by
  simp only [State.complete]
@[simp] theorem State.complete_uopIn (s : State) : (s.complete).uopIn = s.uopIn := by
  simp only [State.complete]
@[simp] theorem State.complete_tick (s : State) : (s.complete).tick = s.tick := by
  simp only [State.complete]

/-! ### `State.resetStep` -/

@[simp] theorem State.resetStep_st (s : State) : (s.resetStep).st = State.reset.st := by
  simp only [State.resetStep]
@[simp] theorem State.resetStep_xk (s : State) : (s.resetStep).xk = State.reset.xk := by
  simp only [State.resetStep]
@[simp] theorem State.resetStep_t (s : State) : (s.resetStep).t = State.reset.t := by
  simp only [State.resetStep]
@[simp] theorem State.resetStep_off (s : State) : (s.resetStep).off = State.reset.off := by
  simp only [State.resetStep]
@[simp] theorem State.resetStep_rci (s : State) : (s.resetStep).rci = State.reset.rci := by
  simp only [State.resetStep]
@[simp] theorem State.resetStep_keyreg (s : State) : (s.resetStep).keyreg = State.reset.keyreg := by
  simp only [State.resetStep]
@[simp] theorem State.resetStep_dinreg (s : State) : (s.resetStep).dinreg = State.reset.dinreg := by
  simp only [State.resetStep]
@[simp] theorem State.resetStep_cmdreg (s : State) : (s.resetStep).cmdreg = State.reset.cmdreg := by
  simp only [State.resetStep]
@[simp] theorem State.resetStep_dout (s : State) : (s.resetStep).dout = State.reset.dout := by
  simp only [State.resetStep]
@[simp] theorem State.resetStep_status (s : State) : (s.resetStep).status = State.reset.status := by
  simp only [State.resetStep]
@[simp] theorem State.resetStep_upc (s : State) : (s.resetStep).upc = State.reset.upc := by
  simp only [State.resetStep]
@[simp] theorem State.resetStep_ports (s : State) : (s.resetStep).ports = s.ports := by
  simp only [State.resetStep]
@[simp] theorem State.resetStep_host (s : State) : (s.resetStep).host = s.host := by
  simp only [State.resetStep]
@[simp] theorem State.resetStep_uopIn (s : State) : (s.resetStep).uopIn = State.reset.uopIn := by
  simp only [State.resetStep]
@[simp] theorem State.resetStep_tick (s : State) : (s.resetStep).tick = s.tick := by
  simp only [State.resetStep]

/-! ### `State.takeUop` -/

@[simp] theorem State.takeUop_st (s : State) : (s.takeUop).st = s.st := by
  simp only [State.takeUop]
@[simp] theorem State.takeUop_xk (s : State) : (s.takeUop).xk = s.xk := by
  simp only [State.takeUop]
@[simp] theorem State.takeUop_t (s : State) : (s.takeUop).t = s.t := by
  simp only [State.takeUop]
@[simp] theorem State.takeUop_off (s : State) : (s.takeUop).off = s.off := by
  simp only [State.takeUop]
@[simp] theorem State.takeUop_rci (s : State) : (s.takeUop).rci = s.rci := by
  simp only [State.takeUop]
@[simp] theorem State.takeUop_keyreg (s : State) : (s.takeUop).keyreg = s.keyreg := by
  simp only [State.takeUop]
@[simp] theorem State.takeUop_dinreg (s : State) : (s.takeUop).dinreg = s.dinreg := by
  simp only [State.takeUop]
@[simp] theorem State.takeUop_cmdreg (s : State) : (s.takeUop).cmdreg = s.cmdreg := by
  simp only [State.takeUop]
@[simp] theorem State.takeUop_dout (s : State) : (s.takeUop).dout = s.dout := by
  simp only [State.takeUop]
@[simp] theorem State.takeUop_status (s : State) : (s.takeUop).status = s.status := by
  simp only [State.takeUop]
@[simp] theorem State.takeUop_upc (s : State) : (s.takeUop).upc = s.upc := by
  simp only [State.takeUop]
@[simp] theorem State.takeUop_ports (s : State) : (s.takeUop).ports = s.ports := by
  simp only [State.takeUop]
@[simp] theorem State.takeUop_host (s : State) : (s.takeUop).host = s.host := by
  simp only [State.takeUop]
@[simp] theorem State.takeUop_uopIn (s : State) : (s.takeUop).uopIn = s.uopIn.tail := by
  simp only [State.takeUop]
@[simp] theorem State.takeUop_tick (s : State) : (s.takeUop).tick = s.tick := by
  simp only [State.takeUop]

/-! ### `State.store` -/

@[simp] theorem State.store_xk_st (s : State) (addr : Nat) {n : Nat} (v : Vector Byte n) :
    (s.store .xk addr v).st = s.st := by
  simp only [State.store]
@[simp] theorem State.store_xk_xk (s : State) (addr : Nat) {n : Nat} (v : Vector Byte n) :
    (s.store .xk addr v).xk = Memory.putAll s.xk addr v.toList := by
  simp only [State.store]
@[simp] theorem State.store_xk_t (s : State) (addr : Nat) {n : Nat} (v : Vector Byte n) :
    (s.store .xk addr v).t = s.t := by
  simp only [State.store]
@[simp] theorem State.store_xk_off (s : State) (addr : Nat) {n : Nat} (v : Vector Byte n) :
    (s.store .xk addr v).off = s.off := by
  simp only [State.store]
@[simp] theorem State.store_xk_rci (s : State) (addr : Nat) {n : Nat} (v : Vector Byte n) :
    (s.store .xk addr v).rci = s.rci := by
  simp only [State.store]
@[simp] theorem State.store_xk_keyreg (s : State) (addr : Nat) {n : Nat} (v : Vector Byte n) :
    (s.store .xk addr v).keyreg = s.keyreg := by
  simp only [State.store]
@[simp] theorem State.store_xk_dinreg (s : State) (addr : Nat) {n : Nat} (v : Vector Byte n) :
    (s.store .xk addr v).dinreg = s.dinreg := by
  simp only [State.store]
@[simp] theorem State.store_xk_cmdreg (s : State) (addr : Nat) {n : Nat} (v : Vector Byte n) :
    (s.store .xk addr v).cmdreg = s.cmdreg := by
  simp only [State.store]
@[simp] theorem State.store_xk_dout (s : State) (addr : Nat) {n : Nat} (v : Vector Byte n) :
    (s.store .xk addr v).dout = s.dout := by
  simp only [State.store]
@[simp] theorem State.store_xk_status (s : State) (addr : Nat) {n : Nat} (v : Vector Byte n) :
    (s.store .xk addr v).status = s.status := by
  simp only [State.store]
@[simp] theorem State.store_xk_upc (s : State) (addr : Nat) {n : Nat} (v : Vector Byte n) :
    (s.store .xk addr v).upc = s.upc := by
  simp only [State.store]
@[simp] theorem State.store_xk_ports (s : State) (addr : Nat) {n : Nat} (v : Vector Byte n) :
    (s.store .xk addr v).ports = s.ports := by
  simp only [State.store]
@[simp] theorem State.store_xk_host (s : State) (addr : Nat) {n : Nat} (v : Vector Byte n) :
    (s.store .xk addr v).host = s.host := by
  simp only [State.store]
@[simp] theorem State.store_xk_uopIn (s : State) (addr : Nat) {n : Nat} (v : Vector Byte n) :
    (s.store .xk addr v).uopIn = s.uopIn := by
  simp only [State.store]
@[simp] theorem State.store_xk_tick (s : State) (addr : Nat) {n : Nat} (v : Vector Byte n) :
    (s.store .xk addr v).tick = s.tick := by
  simp only [State.store]
@[simp] theorem State.store_st_st (s : State) (addr : Nat) {n : Nat} (v : Vector Byte n) :
    (s.store .st addr v).st = writeSlots s.st addr v := by
  simp only [State.store]
@[simp] theorem State.store_st_xk (s : State) (addr : Nat) {n : Nat} (v : Vector Byte n) :
    (s.store .st addr v).xk = s.xk := by
  simp only [State.store]
@[simp] theorem State.store_st_t (s : State) (addr : Nat) {n : Nat} (v : Vector Byte n) :
    (s.store .st addr v).t = s.t := by
  simp only [State.store]
@[simp] theorem State.store_st_off (s : State) (addr : Nat) {n : Nat} (v : Vector Byte n) :
    (s.store .st addr v).off = s.off := by
  simp only [State.store]
@[simp] theorem State.store_st_rci (s : State) (addr : Nat) {n : Nat} (v : Vector Byte n) :
    (s.store .st addr v).rci = s.rci := by
  simp only [State.store]
@[simp] theorem State.store_st_keyreg (s : State) (addr : Nat) {n : Nat} (v : Vector Byte n) :
    (s.store .st addr v).keyreg = s.keyreg := by
  simp only [State.store]
@[simp] theorem State.store_st_dinreg (s : State) (addr : Nat) {n : Nat} (v : Vector Byte n) :
    (s.store .st addr v).dinreg = s.dinreg := by
  simp only [State.store]
@[simp] theorem State.store_st_cmdreg (s : State) (addr : Nat) {n : Nat} (v : Vector Byte n) :
    (s.store .st addr v).cmdreg = s.cmdreg := by
  simp only [State.store]
@[simp] theorem State.store_st_dout (s : State) (addr : Nat) {n : Nat} (v : Vector Byte n) :
    (s.store .st addr v).dout = s.dout := by
  simp only [State.store]
@[simp] theorem State.store_st_status (s : State) (addr : Nat) {n : Nat} (v : Vector Byte n) :
    (s.store .st addr v).status = s.status := by
  simp only [State.store]
@[simp] theorem State.store_st_upc (s : State) (addr : Nat) {n : Nat} (v : Vector Byte n) :
    (s.store .st addr v).upc = s.upc := by
  simp only [State.store]
@[simp] theorem State.store_st_ports (s : State) (addr : Nat) {n : Nat} (v : Vector Byte n) :
    (s.store .st addr v).ports = s.ports := by
  simp only [State.store]
@[simp] theorem State.store_st_host (s : State) (addr : Nat) {n : Nat} (v : Vector Byte n) :
    (s.store .st addr v).host = s.host := by
  simp only [State.store]
@[simp] theorem State.store_st_uopIn (s : State) (addr : Nat) {n : Nat} (v : Vector Byte n) :
    (s.store .st addr v).uopIn = s.uopIn := by
  simp only [State.store]
@[simp] theorem State.store_st_tick (s : State) (addr : Nat) {n : Nat} (v : Vector Byte n) :
    (s.store .st addr v).tick = s.tick := by
  simp only [State.store]
@[simp] theorem State.store_keyreg_st (s : State) (addr : Nat) {n : Nat} (v : Vector Byte n) :
    (s.store .keyreg addr v).st = s.st := by
  simp only [State.store]
@[simp] theorem State.store_keyreg_xk (s : State) (addr : Nat) {n : Nat} (v : Vector Byte n) :
    (s.store .keyreg addr v).xk = s.xk := by
  simp only [State.store]
@[simp] theorem State.store_keyreg_t (s : State) (addr : Nat) {n : Nat} (v : Vector Byte n) :
    (s.store .keyreg addr v).t = s.t := by
  simp only [State.store]
@[simp] theorem State.store_keyreg_off (s : State) (addr : Nat) {n : Nat} (v : Vector Byte n) :
    (s.store .keyreg addr v).off = s.off := by
  simp only [State.store]
@[simp] theorem State.store_keyreg_rci (s : State) (addr : Nat) {n : Nat} (v : Vector Byte n) :
    (s.store .keyreg addr v).rci = s.rci := by
  simp only [State.store]
@[simp] theorem State.store_keyreg_keyreg (s : State) (addr : Nat) {n : Nat} (v : Vector Byte n) :
    (s.store .keyreg addr v).keyreg = writeSlots s.keyreg addr v := by
  simp only [State.store]
@[simp] theorem State.store_keyreg_dinreg (s : State) (addr : Nat) {n : Nat} (v : Vector Byte n) :
    (s.store .keyreg addr v).dinreg = s.dinreg := by
  simp only [State.store]
@[simp] theorem State.store_keyreg_cmdreg (s : State) (addr : Nat) {n : Nat} (v : Vector Byte n) :
    (s.store .keyreg addr v).cmdreg = s.cmdreg := by
  simp only [State.store]
@[simp] theorem State.store_keyreg_dout (s : State) (addr : Nat) {n : Nat} (v : Vector Byte n) :
    (s.store .keyreg addr v).dout = s.dout := by
  simp only [State.store]
@[simp] theorem State.store_keyreg_status (s : State) (addr : Nat) {n : Nat} (v : Vector Byte n) :
    (s.store .keyreg addr v).status = s.status := by
  simp only [State.store]
@[simp] theorem State.store_keyreg_upc (s : State) (addr : Nat) {n : Nat} (v : Vector Byte n) :
    (s.store .keyreg addr v).upc = s.upc := by
  simp only [State.store]
@[simp] theorem State.store_keyreg_ports (s : State) (addr : Nat) {n : Nat} (v : Vector Byte n) :
    (s.store .keyreg addr v).ports = s.ports := by
  simp only [State.store]
@[simp] theorem State.store_keyreg_host (s : State) (addr : Nat) {n : Nat} (v : Vector Byte n) :
    (s.store .keyreg addr v).host = s.host := by
  simp only [State.store]
@[simp] theorem State.store_keyreg_uopIn (s : State) (addr : Nat) {n : Nat} (v : Vector Byte n) :
    (s.store .keyreg addr v).uopIn = s.uopIn := by
  simp only [State.store]
@[simp] theorem State.store_keyreg_tick (s : State) (addr : Nat) {n : Nat} (v : Vector Byte n) :
    (s.store .keyreg addr v).tick = s.tick := by
  simp only [State.store]
@[simp] theorem State.store_dinreg_st (s : State) (addr : Nat) {n : Nat} (v : Vector Byte n) :
    (s.store .dinreg addr v).st = s.st := by
  simp only [State.store]
@[simp] theorem State.store_dinreg_xk (s : State) (addr : Nat) {n : Nat} (v : Vector Byte n) :
    (s.store .dinreg addr v).xk = s.xk := by
  simp only [State.store]
@[simp] theorem State.store_dinreg_t (s : State) (addr : Nat) {n : Nat} (v : Vector Byte n) :
    (s.store .dinreg addr v).t = s.t := by
  simp only [State.store]
@[simp] theorem State.store_dinreg_off (s : State) (addr : Nat) {n : Nat} (v : Vector Byte n) :
    (s.store .dinreg addr v).off = s.off := by
  simp only [State.store]
@[simp] theorem State.store_dinreg_rci (s : State) (addr : Nat) {n : Nat} (v : Vector Byte n) :
    (s.store .dinreg addr v).rci = s.rci := by
  simp only [State.store]
@[simp] theorem State.store_dinreg_keyreg (s : State) (addr : Nat) {n : Nat} (v : Vector Byte n) :
    (s.store .dinreg addr v).keyreg = s.keyreg := by
  simp only [State.store]
@[simp] theorem State.store_dinreg_dinreg (s : State) (addr : Nat) {n : Nat} (v : Vector Byte n) :
    (s.store .dinreg addr v).dinreg = writeSlots s.dinreg addr v := by
  simp only [State.store]
@[simp] theorem State.store_dinreg_cmdreg (s : State) (addr : Nat) {n : Nat} (v : Vector Byte n) :
    (s.store .dinreg addr v).cmdreg = s.cmdreg := by
  simp only [State.store]
@[simp] theorem State.store_dinreg_dout (s : State) (addr : Nat) {n : Nat} (v : Vector Byte n) :
    (s.store .dinreg addr v).dout = s.dout := by
  simp only [State.store]
@[simp] theorem State.store_dinreg_status (s : State) (addr : Nat) {n : Nat} (v : Vector Byte n) :
    (s.store .dinreg addr v).status = s.status := by
  simp only [State.store]
@[simp] theorem State.store_dinreg_upc (s : State) (addr : Nat) {n : Nat} (v : Vector Byte n) :
    (s.store .dinreg addr v).upc = s.upc := by
  simp only [State.store]
@[simp] theorem State.store_dinreg_ports (s : State) (addr : Nat) {n : Nat} (v : Vector Byte n) :
    (s.store .dinreg addr v).ports = s.ports := by
  simp only [State.store]
@[simp] theorem State.store_dinreg_host (s : State) (addr : Nat) {n : Nat} (v : Vector Byte n) :
    (s.store .dinreg addr v).host = s.host := by
  simp only [State.store]
@[simp] theorem State.store_dinreg_uopIn (s : State) (addr : Nat) {n : Nat} (v : Vector Byte n) :
    (s.store .dinreg addr v).uopIn = s.uopIn := by
  simp only [State.store]
@[simp] theorem State.store_dinreg_tick (s : State) (addr : Nat) {n : Nat} (v : Vector Byte n) :
    (s.store .dinreg addr v).tick = s.tick := by
  simp only [State.store]
@[simp] theorem State.store_dout_st (s : State) (addr : Nat) {n : Nat} (v : Vector Byte n) :
    (s.store .dout addr v).st = s.st := by
  simp only [State.store]
@[simp] theorem State.store_dout_xk (s : State) (addr : Nat) {n : Nat} (v : Vector Byte n) :
    (s.store .dout addr v).xk = s.xk := by
  simp only [State.store]
@[simp] theorem State.store_dout_t (s : State) (addr : Nat) {n : Nat} (v : Vector Byte n) :
    (s.store .dout addr v).t = s.t := by
  simp only [State.store]
@[simp] theorem State.store_dout_off (s : State) (addr : Nat) {n : Nat} (v : Vector Byte n) :
    (s.store .dout addr v).off = s.off := by
  simp only [State.store]
@[simp] theorem State.store_dout_rci (s : State) (addr : Nat) {n : Nat} (v : Vector Byte n) :
    (s.store .dout addr v).rci = s.rci := by
  simp only [State.store]
@[simp] theorem State.store_dout_keyreg (s : State) (addr : Nat) {n : Nat} (v : Vector Byte n) :
    (s.store .dout addr v).keyreg = s.keyreg := by
  simp only [State.store]
@[simp] theorem State.store_dout_dinreg (s : State) (addr : Nat) {n : Nat} (v : Vector Byte n) :
    (s.store .dout addr v).dinreg = s.dinreg := by
  simp only [State.store]
@[simp] theorem State.store_dout_cmdreg (s : State) (addr : Nat) {n : Nat} (v : Vector Byte n) :
    (s.store .dout addr v).cmdreg = s.cmdreg := by
  simp only [State.store]
@[simp] theorem State.store_dout_dout (s : State) (addr : Nat) {n : Nat} (v : Vector Byte n) :
    (s.store .dout addr v).dout = writeSlots s.dout addr v := by
  simp only [State.store]
@[simp] theorem State.store_dout_status (s : State) (addr : Nat) {n : Nat} (v : Vector Byte n) :
    (s.store .dout addr v).status = s.status := by
  simp only [State.store]
@[simp] theorem State.store_dout_upc (s : State) (addr : Nat) {n : Nat} (v : Vector Byte n) :
    (s.store .dout addr v).upc = s.upc := by
  simp only [State.store]
@[simp] theorem State.store_dout_ports (s : State) (addr : Nat) {n : Nat} (v : Vector Byte n) :
    (s.store .dout addr v).ports = s.ports := by
  simp only [State.store]
@[simp] theorem State.store_dout_host (s : State) (addr : Nat) {n : Nat} (v : Vector Byte n) :
    (s.store .dout addr v).host = s.host := by
  simp only [State.store]
@[simp] theorem State.store_dout_uopIn (s : State) (addr : Nat) {n : Nat} (v : Vector Byte n) :
    (s.store .dout addr v).uopIn = s.uopIn := by
  simp only [State.store]
@[simp] theorem State.store_dout_tick (s : State) (addr : Nat) {n : Nat} (v : Vector Byte n) :
    (s.store .dout addr v).tick = s.tick := by
  simp only [State.store]

/-! ### `State.advance` -/

@[simp] theorem State.advance_st (s : State) : s.advance.st = s.st := by
  unfold State.advance; split <;> simp only []
@[simp] theorem State.advance_xk (s : State) : s.advance.xk = s.xk := by
  unfold State.advance; split <;> simp only []
@[simp] theorem State.advance_t (s : State) : s.advance.t = s.t := by
  unfold State.advance; split <;> simp only []
@[simp] theorem State.advance_off (s : State) : s.advance.off = s.off := by
  unfold State.advance; split <;> simp only []
@[simp] theorem State.advance_rci (s : State) : s.advance.rci = s.rci := by
  unfold State.advance; split <;> simp only []
@[simp] theorem State.advance_keyreg (s : State) : s.advance.keyreg = s.keyreg := by
  unfold State.advance; split <;> simp only []
@[simp] theorem State.advance_dinreg (s : State) : s.advance.dinreg = s.dinreg := by
  unfold State.advance; split <;> simp only []
@[simp] theorem State.advance_cmdreg (s : State) : s.advance.cmdreg = s.cmdreg := by
  unfold State.advance; split <;> simp only []
@[simp] theorem State.advance_dout (s : State) : s.advance.dout = s.dout := by
  unfold State.advance; split <;> simp only []
@[simp] theorem State.advance_status (s : State) : s.advance.status = s.status := by
  unfold State.advance; split <;> simp only []
@[simp] theorem State.advance_upc (s : State) : s.advance.upc = s.upc := by
  unfold State.advance; split <;> simp only []
@[simp] theorem State.advance_uopIn (s : State) : s.advance.uopIn = s.uopIn := by
  unfold State.advance; split <;> simp only []
@[simp] theorem State.advance_tick (s : State) : s.advance.tick = s.tick + 1 := by
  unfold State.advance; split <;> simp only []

/-- With nothing planned the pulses fall and the other ports hold (log 2). -/
theorem State.advance_ports_nil (s : State) (h : s.host = []) :
    s.advance.ports = { s.ports with rst := false, start := false } ∧ s.advance.host = [] := by
  simp [State.advance, h]

/-- With values planned the ports take the next ones (log 2). -/
theorem State.advance_ports_cons (s : State) (p : Ports) (rest : List Ports) (h : s.host = p :: rest) :
    s.advance.ports = p ∧ s.advance.host = rest := by
  simp [State.advance, h]

end Sys2Proof.Machine
end

