-- ==== Sys2Proof/Laws/Access.lean ====
section
/-! SUPPORT. What `MemRead`, `MemWrite` and the register writes can do (R61). -/

namespace Sys2Proof.Machine

open Sys2Proof

/-- A location outside a register holds nothing. -/
theorem slotAt_of_ge {n : Nat} (r : Vector (Slot Byte) n) (a : Nat) (h : n ≤ a) : slotAt r a = none := by
  have h' : ¬ a < n := by omega
  simp [slotAt, h']

/-- A written location holds the byte written; every other location is as before. -/
theorem slotAt_writeSlots {m n : Nat} (r : Vector (Slot Byte) m) (addr : Nat) (v : Vector Byte n) (a : Nat)
    (ha : a < m) :
    slotAt (writeSlots r addr v) a = if addr ≤ a ∧ a < addr + n then v[a - addr]? else slotAt r a := by
  unfold slotAt writeSlots
  simp only [Vector.getElem?_eq_getElem ha, Vector.getElem_ofFn]
  by_cases h1 : addr ≤ a
  · by_cases h2 : a < addr + n
    · have h3 : a - addr < n := by omega
      simp [h1, h2, h3, Slot.hold]
    · have h3 : ¬ a - addr < n := by omega
      simp [h1, h2, h3]
  · simp [h1]

/-- The same for a write that fits, at any address. -/
theorem slotAt_writeSlots_of_fits {m n : Nat} (r : Vector (Slot Byte) m) (addr : Nat) (v : Vector Byte n) (a : Nat)
    (hr : addr + n ≤ m) :
    slotAt (writeSlots r addr v) a = if addr ≤ a ∧ a < addr + n then v[a - addr]? else slotAt r a := by
  by_cases ha : a < m
  · exact slotAt_writeSlots r addr v a ha
  · have h : ¬(addr ≤ a ∧ a < addr + n) := by omega
    rw [if_neg h, slotAt_of_ge _ _ (by omega), slotAt_of_ge _ _ (by omega)]

/-- A location outside the written ones keeps its bits and its mark. -/
theorem writeSlots_other {m n : Nat} (r : Vector (Slot Byte) m) (addr : Nat) (v : Vector Byte n) (a : Nat)
    (h : a < addr ∨ addr + n ≤ a) : (writeSlots r addr v)[a]? = r[a]? := by
  by_cases ha : a < m
  · simp only [Vector.getElem?_eq_getElem ha, writeSlots, Vector.getElem_ofFn, Option.some.injEq]
    by_cases h1 : addr ≤ a
    · have h2 : ¬ a - addr < n := by omega
      simp [h1, h2]
    · simp [h1]
  · simp [ha]

/-- A whole register written. -/
theorem writeSlots_all {n : Nat} (r : Vector (Slot Byte) n) (v : Vector Byte n) :
    writeSlots r 0 v = Vector.ofFn fun i : Fin n => Slot.hold v[i] := by
  ext i h
  simp [writeSlots]

/-- Discarded locations are `undef`. -/
theorem slotAt_discardBytes {n : Nat} (bits : Vector Byte n) (a : Nat) : slotAt (discardBytes bits) a = none := by
  by_cases h : a < n
  · simp [slotAt, discardBytes, h, Slot.undef]
  · exact slotAt_of_ge _ _ (by omega)

theorem State.firstUndef_none_iff (s : State) (sp : Space) (addr n : Nat) :
    s.firstUndef sp addr n = none ↔ ∀ k, k < n → (s.location sp (addr + k)).isSome = true := by
  simp [State.firstUndef, List.find?_eq_none, Option.isSome_iff_ne_none]

/-- The location that is named: in the range, without a value, every location of the range before it with one. -/
theorem State.firstUndef_some_iff (s : State) (sp : Space) (addr n a : Nat) :
    s.firstUndef sp addr n = some a ↔
      addr ≤ a ∧ a < addr + n ∧ s.location sp a = none ∧ ∀ j, addr ≤ j → j < a → (s.location sp j).isSome = true := by
  simp only [State.firstUndef, List.find?_map, Option.map_eq_some_iff, List.find?_range_eq_some, Function.comp_apply,
    Option.isNone_iff_eq_none, List.mem_range, Bool.not_eq_true', Option.isNone_eq_false_iff]
  constructor
  · rintro ⟨k, ⟨h1, h2, h3⟩, rfl⟩
    refine ⟨by omega, by omega, h1, fun j hj hj' => ?_⟩
    have h := h3 (j - addr) (by omega)
    rwa [show addr + (j - addr) = j by omega] at h
  · rintro ⟨h1, h2, h3, h4⟩
    refine ⟨a - addr, ⟨?_, by omega, fun j hj => h4 _ (by omega) (by omega)⟩, by omega⟩
    rwa [show addr + (a - addr) = a by omega]

/-- `MemRead` answers `v` exactly when the access is in range and every location holds the byte `v` has there. -/
theorem State.memRead_ok_iff (s : State) (sp : Space) (addr n : Nat) (v : Vector Byte n) :
    s.memRead sp addr n = .ok v ↔
      addr + n ≤ sp.size ∧ ∀ k (h : k < n), s.location sp (addr + k) = some v[k] := by
  unfold State.memRead
  by_cases hr : addr + n ≤ sp.size
  · simp only [hr, if_true, true_and]
    cases hf : s.firstUndef sp addr n with
    | some a =>
      simp only [reduceCtorEq, false_iff]
      intro h
      have hn := (s.firstUndef_none_iff sp addr n).mpr fun k hk => by simp [h k hk]
      simp [hn] at hf
    | none =>
      have hall := (s.firstUndef_none_iff sp addr n).mp hf
      simp only [Except.ok.injEq]
      constructor
      · rintro rfl k hk
        obtain ⟨b, hb⟩ := Option.isSome_iff_exists.mp (hall k hk)
        simp [hb]
      · intro h
        ext1 k hk
        simp [h k hk]
  · simp [hr]

/-- `MemRead` of a location without a value is refused, naming the first (R41). -/
theorem State.memRead_undef (s : State) (sp : Space) (addr n a : Nat) (hr : addr + n ≤ sp.size)
    (h : s.firstUndef sp addr n = some a) : s.memRead sp addr n = .error (.undefRead sp a) := by
  simp [State.memRead, hr, h]

/-- `MemRead` in range with every location holding a value answers. -/
theorem State.memRead_isOk (s : State) (sp : Space) (addr n : Nat) (hr : addr + n ≤ sp.size) 
    (h : ∀ k, k < n → (s.location sp (addr + k)).isSome = true) :
    ∃ v, s.memRead sp addr n = .ok v := by
  refine ⟨Vector.ofFn fun k : Fin n => (s.location sp (addr + k.val)).getD 0, ?_⟩
  unfold State.memRead
  rw [if_pos hr, (s.firstUndef_none_iff sp addr n).mpr h]

/-- `MemWrite` answers exactly in range of a writable space, and stores. -/
theorem State.memWrite_ok_iff (s t : State) (sp : Space) (addr : Nat) {n : Nat} (v : Vector Byte n) :
    s.memWrite sp addr v = .ok t ↔ sp.isRom = false ∧ addr + n ≤ sp.size ∧ t = s.store sp addr v := by
  unfold State.memWrite
  cases hrom : sp.isRom
  · by_cases hr : addr + n ≤ sp.size
    · simp [hr, eq_comm]
    · simp [hr]
  · simp

/-- What a store leaves at every location. -/
theorem State.location_store (s : State) (sp : Space) (addr : Nat) {n : Nat} (v : Vector Byte n) (sp' : Space) (a : Nat)
    (hw : sp.isRom = false) (hr : addr + n ≤ sp.size) :
    (s.store sp addr v).location sp' a =
      if sp' = sp ∧ addr ≤ a ∧ a < addr + n then v[a - addr]? else s.location sp' a := by
  by_cases hs : sp' = sp
  · subst hs
    cases sp' with
    | sbox => simp [Space.isRom] at hw
    | isbox => simp [Space.isRom] at hw
    | rcon => simp [Space.isRom] at hw
    | xk => simp [State.location, State.store, Memory.find_putAll]
    | st =>
      simp only [State.location, State.store, true_and]
      exact slotAt_writeSlots_of_fits s.st addr v a hr
    | keyreg =>
      simp only [State.location, State.store, true_and]
      exact slotAt_writeSlots_of_fits s.keyreg addr v a hr
    | dinreg =>
      simp only [State.location, State.store, true_and]
      exact slotAt_writeSlots_of_fits s.dinreg addr v a hr
    | dout =>
      simp only [State.location, State.store, true_and]
      exact slotAt_writeSlots_of_fits s.dout addr v a hr
  · simp only [hs, false_and, if_false]
    cases sp <;> cases sp' <;> first | (exact absurd rfl hs) | simp only [State.location, State.store]

end Sys2Proof.Machine
end

