-- ==== Sys2Proof/Laws/Uop.lean ====
section
/-! SUPPORT. What the shared operations behind the micro-ops can do: the common frame, the whole-block assignment to `ST`, the row
access, the word loop of `expand`. -/

namespace Sys2Proof.Machine

open Sys2Proof

theorem Slot.get_ok_iff {α : Type} (x : Slot α) (r : Refusal) (a : α) :
    x.get r = .ok a ↔ x.known = true ∧ x.val = a := by
  unfold Slot.get
  cases h : x.known <;> simp

/-- A chain of partial operations answers exactly when each part answers. -/
theorem except_bind_ok_iff {α β : Type} (x : Except Refusal α) (f : α → Except Refusal β) (y : β) :
    (x >>= f) = .ok y ↔ ∃ a, x = .ok a ∧ f a = .ok y := by
  cases x <;> simp [bind, Except.bind]

/-- A micro-op answers exactly inside a command whose word its own effect accepts, with `UPC` one further. -/
theorem uop_next_iff (s t : State) (body : Byte → Except Refusal State) :
    uop s body = .next t ↔
      s.status.busy = true ∧ s.cmdreg.known = true ∧
        ∃ s', body s.cmdreg.val = .ok s' ∧ t = { s' with upc := s'.upc + 1 } := by
  unfold uop Slot.get
  cases s.status.busy
  · simp
  · cases s.cmdreg.known
    · simp
    · cases hb : body s.cmdreg.val with
      | error r => simp [hb]
      | ok s' => simp [hb, eq_comm]

/-- No micro-op faults (R188). -/
theorem uop_ne_fault (s : State) (body : Byte → Except Refusal State) (r : Fault) : uop s body ≠ .fault r := by
  unfold uop
  split
  · split
    · simp
    · split <;> simp
  · simp

/-- Inside a command a micro-op whose own effect is refused is refused with the same name. -/
theorem uop_of_error (s : State) (body : Byte → Except Refusal State) (r : Refusal) (hb : s.status.busy = true)
    (hk : s.cmdreg.known = true) (h : body s.cmdreg.val = .error r) : uop s body = .refused r := by
  have hg : s.cmdreg.get .undefCommand = .ok s.cmdreg.val := (Slot.get_ok_iff _ _ _).mpr ⟨hk, rfl⟩
  simp [uop, hb, hg, h]

/-- While no command runs every micro-op is refused (93 U5). -/
theorem uop_idle (s : State) (body : Byte → Except Refusal State) (h : s.status.busy = false) :
    uop s body = .refused .notBusy := by
  simp [uop, h]

/-- The whole-block assignment answers exactly when all of `ST` holds values and the function answers. -/
theorem State.mapST_ok_iff (s t : State) (f : Block → Except Refusal Block) :
    s.mapST f = .ok t ↔
      ∃ b b', s.memRead .st 0 16 = .ok b ∧ f b = .ok b' ∧ t = s.store .st 0 b' := by
  unfold State.mapST
  cases hr : s.memRead .st 0 16 with
  | error r => simp [bind, Except.bind]
  | ok b =>
    cases hf : f b with
    | error r => simp [bind, Except.bind, hf]
    | ok b' =>
      simp only [bind, Except.bind, hf, State.memWrite_ok_iff, Except.ok.injEq, exists_and_left,
        exists_eq_left', Space.isRom, Space.size, true_and]
      constructor
      · rintro ⟨_, h⟩; exact h
      · intro h; exact ⟨by omega, h⟩

/-- The whole-block assignment writes `ST` only. -/
theorem State.mapST_frame (s t : State) (f : Block → Except Refusal Block) (h : s.mapST f = .ok t) :
    t = { s with st := t.st } := by
  obtain ⟨b, b', _, _, rfl⟩ := (State.mapST_ok_iff _ _ _).mp h
  simp only [State.store]

/-- A location of `ST` after a whole-block assignment. -/
theorem State.slotAt_store_st (s : State) (b : Block) (i : Nat) (h : i < 16) :
    slotAt (s.store .st 0 b).st i = some b[i] := by
  rw [State.store_st_st, slotAt_writeSlots _ _ _ _ h]
  simp [h]

theorem State.readRow_ok_iff (s : State) (n : Nat) (w : Word4) (hn : n ≤ 3) :
    s.readRow n = .ok w ↔ ∀ c (h : c < 4), s.location .st (4 * c + n) = some w[c] := by
  have key : ∀ c, c < 4 → ∀ b : Vector Byte 1,
      s.memRead .st (cellIndex n c) 1 = .ok b ↔ s.location .st (4 * c + n) = some b[0] := by
    intro c hc b
    rw [State.memRead_ok_iff]
    constructor
    · intro h; simpa [cellIndex] using h.2 0 (by omega)
    · intro h
      refine ⟨by simp only [cellIndex, Space.size]; omega, ?_⟩
      intro k hk
      obtain rfl : k = 0 := by omega
      simpa [cellIndex] using h
  have get : ∀ c, c < 4 → (∃ b, s.memRead .st (cellIndex n c) 1 = .ok b) ∨
      (∃ r, s.memRead .st (cellIndex n c) 1 = .error r ∧ ∀ x, s.location .st (4 * c + n) ≠ some x) := by
    intro c hc
    cases h : s.memRead .st (cellIndex n c) 1 with
    | ok b => exact .inl ⟨b, rfl⟩
    | error r =>
      refine .inr ⟨r, rfl, ?_⟩
      intro x hx
      have := (key c hc #v[x]).mpr (by simpa using hx)
      simp [h] at this
  unfold State.readRow
  constructor
  · intro h
    rcases get 0 (by omega) with ⟨b0, h0⟩ | ⟨r, h0, _⟩ <;> simp only [h0, bind, Except.bind, reduceCtorEq] at h
    rcases get 1 (by omega) with ⟨b1, h1⟩ | ⟨r, h1, _⟩ <;> simp only [h1, reduceCtorEq] at h
    rcases get 2 (by omega) with ⟨b2, h2⟩ | ⟨r, h2, _⟩ <;> simp only [h2, reduceCtorEq] at h
    rcases get 3 (by omega) with ⟨b3, h3⟩ | ⟨r, h3, _⟩ <;> simp only [h3, reduceCtorEq] at h
    simp only [Except.ok.injEq] at h
    subst h
    intro c hc
    match c, hc with
    | 0, _ => exact (key 0 (by omega) b0).mp h0
    | 1, _ => exact (key 1 (by omega) b1).mp h1
    | 2, _ => exact (key 2 (by omega) b2).mp h2
    | 3, _ => exact (key 3 (by omega) b3).mp h3
  · intro h
    have h0 := (key 0 (by omega) #v[w[0]]).mpr (by simpa using h 0 (by omega))
    have h1 := (key 1 (by omega) #v[w[1]]).mpr (by simpa using h 1 (by omega))
    have h2 := (key 2 (by omega) #v[w[2]]).mpr (by simpa using h 2 (by omega))
    have h3 := (key 3 (by omega) #v[w[3]]).mpr (by simpa using h 3 (by omega))
    simp only [h0, h1, h2, h3, bind, Except.bind, Except.ok.injEq]
    ext1 c hc
    match c, hc with
    | 0, _ => simp
    | 1, _ => simp
    | 2, _ => simp
    | 3, _ => simp

/-- Reading a row is refused at its first column without a value (R41). -/
theorem State.readRow_undef (s : State) (n c : Nat) (hn : n ≤ 3) (hc : c < 4) (h : s.location .st (4 * c + n) = none)
    (hb : ∀ c', c' < c → s.location .st (4 * c' + n) ≠ none) : s.readRow n = .error (.undefRead .st (4 * c + n)) := by
  have bad : s.memRead .st (cellIndex n c) 1 = .error (.undefRead .st (4 * c + n)) := by
    refine s.memRead_undef .st _ 1 _ (by simp only [cellIndex, Space.size]; omega) ?_
    exact (s.firstUndef_some_iff _ _ _ _).mpr ⟨by simp only [cellIndex]; omega, by simp only [cellIndex]; omega, h,
      fun j hj hj' => by simp only [cellIndex] at hj; omega⟩
  have good : ∀ c', c' < c → ∃ v, s.memRead .st (cellIndex n c') 1 = .ok v := by
    intro c' hc'
    refine s.memRead_isOk .st _ 1 (by simp only [cellIndex, Space.size]; omega) fun k hk => ?_
    obtain rfl : k = 0 := by omega
    exact Option.isSome_iff_ne_none.mpr (hb c' hc')
  unfold State.readRow
  match c, hc with
  | 0, _ => simp only [bad, bind, Except.bind]
  | 1, _ =>
    obtain ⟨v0, h0⟩ := good 0 (by omega)
    simp only [h0, bad, bind, Except.bind]
  | 2, _ =>
    obtain ⟨v0, h0⟩ := good 0 (by omega)
    obtain ⟨v1, h1⟩ := good 1 (by omega)
    simp only [h0, h1, bad, bind, Except.bind]
  | 3, _ =>
    obtain ⟨v0, h0⟩ := good 0 (by omega)
    obtain ⟨v1, h1⟩ := good 1 (by omega)
    obtain ⟨v2, h2⟩ := good 2 (by omega)
    simp only [h0, h1, h2, bad, bind, Except.bind]

/-- A row write answers, changes `ST` only, and in `ST` that row only: the other locations keep their bits and marks. -/
theorem State.writeRow_ok (s : State) (n : Nat) (w : Word4) (hn : n ≤ 3) :
    ∃ t, s.writeRow n w = .ok t ∧ t = { s with st := t.st } ∧
      (∀ c (h : c < 4), slotAt t.st (4 * c + n) = some w[c]) ∧
      ∀ i, i % 4 ≠ n → t.st[i]? = s.st[i]? := by
  have wr : ∀ (u : State) (c : Nat) (b : Byte), c < 4 →
      u.memWrite .st (cellIndex n c) #v[b] = .ok (u.store .st (cellIndex n c) #v[b]) := by
    intro u c b hc
    rw [State.memWrite_ok_iff]
    exact ⟨rfl, by simp only [cellIndex, Space.size]; omega, rfl⟩
  have at' : ∀ (r : Vector (Slot Byte) 16) (c i : Nat) (b : Byte), c < 4 →
      slotAt (writeSlots r (cellIndex n c) #v[b]) i = if i = 4 * c + n then some b else slotAt r i := by
    intro r c i b hc
    rw [slotAt_writeSlots_of_fits _ _ _ _ (by simp only [cellIndex]; omega)]
    by_cases h : i = 4 * c + n
    · have h1 : cellIndex n c ≤ i ∧ i < cellIndex n c + 1 := by simp only [cellIndex]; omega
      rw [if_pos h1, if_pos h]
      have h2 : i - cellIndex n c = 0 := by simp only [cellIndex]; omega
      simp [h2]
    · have h1 : ¬(cellIndex n c ≤ i ∧ i < cellIndex n c + 1) := by simp only [cellIndex]; omega
      rw [if_neg h1, if_neg h]
  refine ⟨_, by simp only [State.writeRow, wr _ 0 _ (by omega), wr _ 1 _ (by omega), wr _ 2 _ (by omega),
    wr _ 3 _ (by omega), bind, Except.bind]; rfl, ?_, ?_, ?_⟩
  · simp only [State.store]
  · intro c hc
    simp only [State.store_st_st]
    rw [at' _ 3 _ _ (by omega), at' _ 2 _ _ (by omega), at' _ 1 _ _ (by omega), at' _ 0 _ _ (by omega)]
    match c, hc with
    | 0, _ => rw [if_neg (by omega), if_neg (by omega), if_neg (by omega), if_pos (by omega)]
    | 1, _ => rw [if_neg (by omega), if_neg (by omega), if_pos (by omega)]
    | 2, _ => rw [if_neg (by omega), if_pos (by omega)]
    | 3, _ => rw [if_pos (by omega)]
  · intro i hi
    simp only [State.store_st_st]
    rw [writeSlots_other _ _ _ _ (by simp only [cellIndex]; omega), writeSlots_other _ _ _ _ (by simp only [cellIndex]; omega),
      writeSlots_other _ _ _ _ (by simp only [cellIndex]; omega), writeSlots_other _ _ _ _ (by simp only [cellIndex]; omega)]

/-- A row access writes `ST` only. -/
theorem State.mapRow_frame (s t : State) (n : BitVec 4) (f : Nat → Word4 → Word4) (h : s.mapRow n f = .ok t) :
    t = { s with st := t.st } := by
  unfold State.mapRow at h
  split at h
  · rename_i hl
    obtain ⟨w, _, h⟩ := (except_bind_ok_iff _ _ _).mp h
    obtain ⟨u, hu, hf, _⟩ := s.writeRow_ok n.toNat (f n.toNat w) (by simpa [legalRowArg] using hl)
    rw [hu] at h
    cases h
    exact hf
  · cases h

/-- One iteration of the word loop writes `XK`, `T`, `OFF`, `RCI` only, and moves `OFF` on by 4 (R106). -/
theorem expandWord_frame (keySize : Nat) (s t : State) (h : expandWord keySize s = .ok t) :
    t = { s with xk := t.xk, t := t.t, off := Slot.hold (s.off.val + 4), rci := t.rci } := by
  unfold expandWord at h
  cases ho : s.off.get .undefCounter with
  | error r => simp [ho, bind, Except.bind] at h
  | ok off =>
    cases hc : s.rci.get .undefCounter with
    | error r => simp [ho, hc, bind, Except.bind] at h
    | ok rci =>
      cases hp : s.memRead .xk (off - 4) 4 with
      | error r => simp [ho, hc, hp, bind, Except.bind] at h
      | ok prev =>
        cases hs : scheduleCase keySize off rci prev with
        | error r => simp [ho, hc, hp, hs, bind, Except.bind] at h
        | ok p =>
          cases he : s.memRead .xk (off - keySize) 4 with
          | error r => simp [ho, hc, hp, hs, he, bind, Except.bind] at h
          | ok e =>
            cases hw : s.memWrite .xk off (xorBytes p.1 e) with
            | error r => simp [ho, hc, hp, hs, he, hw, bind, Except.bind] at h
            | ok u =>
              simp only [ho, hc, hp, hs, he, hw, bind, Except.bind, Except.ok.injEq] at h
              obtain ⟨-, -, rfl⟩ := (State.memWrite_ok_iff _ _ _ _ _).mp hw
              obtain ⟨-, rfl⟩ := (Slot.get_ok_iff _ _ _).mp ho
              subst h
              simp only [State.store]

/-- The word loop writes `XK`, `T`, `OFF`, `RCI` only. -/
theorem expandLoop_frame (keySize xklen n : Nat) (s t : State) (h : expandLoop keySize xklen n s = .ok t) :
    t = { s with xk := t.xk, t := t.t, off := t.off, rci := t.rci } := by
  induction n generalizing s with
  | zero => cases h; rfl
  | succ n ih =>
    unfold expandLoop at h
    cases ho : s.off.get .undefCounter with
    | error r => simp [ho, bind, Except.bind] at h
    | ok off =>
      simp only [ho, bind, Except.bind] at h
      split at h
      · cases hw : expandWord keySize s with
        | error r => simp [hw] at h
        | ok u =>
          simp only [hw] at h
          have h1 := ih u h
          have h2 := expandWord_frame keySize s u hw
          rw [h1, h2]
      · cases h; rfl

/-- The key copy answers when the key holds values: `XK[0..keySize-1]` written, `OFF` and `RCI` set (R101). -/
theorem keyCopy_ok_iff (keySize : Nat) (s t : State) (hk : keySize ≤ 240) :
    keyCopy keySize s = .ok t ↔
      ∃ key, s.memRead .keyreg 0 keySize = .ok key ∧
        t = { s.store .xk 0 key with off := Slot.hold keySize, rci := Slot.hold 1 } := by
  unfold keyCopy
  cases hr : s.memRead .keyreg 0 keySize with
  | error r => simp [bind, Except.bind]
  | ok key =>
    have hw : s.memWrite .xk 0 key = .ok (s.store .xk 0 key) :=
      (State.memWrite_ok_iff _ _ _ _ _).mpr ⟨rfl, by simp only [Space.size]; omega, rfl⟩
    simp [bind, Except.bind, hw, eq_comm]

end Sys2Proof.Machine
end

