-- ==== Sys2Proof/Laws/Orchestrator.lean ====
section
/-! SUPPORT. What the two round sequences can do with the round keys they ask for: they answer when every key is there, they depend on
those keys alone, and the first key that is refused refuses them. -/

namespace Sys2Proof.Machine

open Sys2Proof

/-- A source of round keys answers for the keys `0` to `n`. -/
def AnswersKeys (key : Nat → Except Refusal Block) (n : Nat) : Prop := ∀ r, r ≤ n → ∃ k, key r = .ok k

theorem encryptRounds_isOk (key : Nat → Except Refusal Block) (n i : Nat) (b : Block)
    (h : ∀ r, i ≤ r → r < i + n → ∃ k, key r = .ok k) : ∃ b', encryptRounds key i n b = .ok b' := by
  induction n generalizing i b with
  | zero => exact ⟨b, rfl⟩
  | succ n ih =>
    obtain ⟨k, hk⟩ := h i (by omega) (by omega)
    obtain ⟨b', hb⟩ := ih (i + 1) (addRoundKeyFn (mixColumnsFn (shiftRowsFn (subBytesFn b))) k)
      fun r h1 h2 => h r (by omega) (by omega)
    exact ⟨b', (except_bind_ok_iff _ _ _).mpr ⟨k, hk, hb⟩⟩

theorem decryptRounds_isOk (key : Nat → Except Refusal Block) (n : Nat) (b : Block)
    (h : ∀ r, 1 ≤ r → r ≤ n → ∃ k, key r = .ok k) : ∃ b', decryptRounds key n b = .ok b' := by
  induction n generalizing b with
  | zero => exact ⟨b, rfl⟩
  | succ n ih =>
    obtain ⟨k, hk⟩ := h (n + 1) (by omega) (by omega)
    obtain ⟨b', hb⟩ := ih (invMixColumnsFn (addRoundKeyFn (invSubBytesFn (invShiftRowsFn b)) k))
      fun r h1 h2 => h r h1 (by omega)
    exact ⟨b', (except_bind_ok_iff _ _ _).mpr ⟨k, hk, hb⟩⟩

/-- The encryption sequence answers when every round key is there (R145). -/
theorem encryptBlockWith_isOk (key : Nat → Except Refusal Block) (nr : Nat) (b : Block) (h : AnswersKeys key nr) :
    ∃ b', encryptBlockWith key nr b = .ok b' := by
  obtain ⟨k0, h0⟩ := h 0 (by omega)
  obtain ⟨k, hk⟩ := h nr (by omega)
  obtain ⟨b', hb⟩ := encryptRounds_isOk key (nr - 1) 1 (addRoundKeyFn b k0) fun r _ _ => h r (by omega)
  exact ⟨_, (except_bind_ok_iff _ _ _).mpr ⟨k0, h0, (except_bind_ok_iff _ _ _).mpr ⟨b', hb,
    (except_bind_ok_iff _ _ _).mpr ⟨k, hk, rfl⟩⟩⟩⟩

/-- The decryption sequence answers when every round key is there (R146). -/
theorem decryptBlockWith_isOk (key : Nat → Except Refusal Block) (nr : Nat) (b : Block) (h : AnswersKeys key nr) :
    ∃ b', decryptBlockWith key nr b = .ok b' := by
  obtain ⟨k0, h0⟩ := h 0 (by omega)
  obtain ⟨k, hk⟩ := h nr (by omega)
  obtain ⟨b', hb⟩ := decryptRounds_isOk key (nr - 1) (addRoundKeyFn b k) fun r _ _ => h r (by omega)
  exact ⟨_, (except_bind_ok_iff _ _ _).mpr ⟨k, hk, (except_bind_ok_iff _ _ _).mpr ⟨b', hb,
    (except_bind_ok_iff _ _ _).mpr ⟨k0, h0, rfl⟩⟩⟩⟩

theorem encryptRounds_congr (key key' : Nat → Except Refusal Block) (n i : Nat) (b : Block)
    (h : ∀ r, i ≤ r → r < i + n → key r = key' r) : encryptRounds key i n b = encryptRounds key' i n b := by
  induction n generalizing i b with
  | zero => rfl
  | succ n ih =>
    simp only [encryptRounds, h i (by omega) (by omega)]
    congr 1
    funext k
    exact ih (i + 1) _ fun r h1 h2 => h r (by omega) (by omega)

theorem decryptRounds_congr (key key' : Nat → Except Refusal Block) (n : Nat) (b : Block)
    (h : ∀ r, 1 ≤ r → r ≤ n → key r = key' r) : decryptRounds key n b = decryptRounds key' n b := by
  induction n generalizing b with
  | zero => rfl
  | succ n ih =>
    simp only [decryptRounds, h (n + 1) (by omega) (by omega)]
    congr 1
    funext k
    exact ih _ fun r h1 h2 => h r h1 (by omega)

/-- The encryption sequence depends on the round keys `0` to `Nr` alone. -/
theorem encryptBlockWith_congr (key key' : Nat → Except Refusal Block) (nr : Nat) (b : Block)
    (h : ∀ r, r ≤ nr → key r = key' r) : encryptBlockWith key nr b = encryptBlockWith key' nr b := by
  have hr : ∀ b, encryptRounds key 1 (nr - 1) b = encryptRounds key' 1 (nr - 1) b :=
    fun b => encryptRounds_congr key key' (nr - 1) 1 b fun r _ _ => h r (by omega)
  simp only [encryptBlockWith, h 0 (by omega), h nr (by omega), hr]

/-- The decryption sequence depends on the round keys `0` to `Nr` alone. -/
theorem decryptBlockWith_congr (key key' : Nat → Except Refusal Block) (nr : Nat) (b : Block)
    (h : ∀ r, r ≤ nr → key r = key' r) : decryptBlockWith key nr b = decryptBlockWith key' nr b := by
  have hr : ∀ b, decryptRounds key (nr - 1) b = decryptRounds key' (nr - 1) b :=
    fun b => decryptRounds_congr key key' (nr - 1) b fun r _ _ => h r (by omega)
  simp only [decryptBlockWith, h 0 (by omega), h nr (by omega), hr]

theorem encryptRounds_error (key : Nat → Except Refusal Block) (n i r : Nat) (b : Block) (e : Refusal) (hi : i ≤ r)
    (hr : r < i + n) (he : key r = .error e) (h : ∀ j, j < r → ∃ k, key j = .ok k) :
    encryptRounds key i n b = .error e := by
  induction n generalizing i b with
  | zero => omega
  | succ n ih =>
    by_cases hir : i = r
    · subst hir
      simp only [encryptRounds, he, bind, Except.bind]
    · obtain ⟨k, hk⟩ := h i (by omega)
      simp only [encryptRounds, hk, bind, Except.bind]
      exact ih (i + 1) _ (by omega) (by omega)

theorem decryptRounds_error (key : Nat → Except Refusal Block) (n r : Nat) (b : Block) (e : Refusal) (h1 : 1 ≤ r) (hr : r ≤ n)
    (he : key r = .error e) (h : ∀ j, r < j → j ≤ n → ∃ k, key j = .ok k) : decryptRounds key n b = .error e := by
  induction n generalizing b with
  | zero => omega
  | succ n ih =>
    by_cases hir : r = n + 1
    · subst hir
      simp only [decryptRounds, he, bind, Except.bind]
    · obtain ⟨k, hk⟩ := h (n + 1) (by omega) (by omega)
      simp only [decryptRounds, hk, bind, Except.bind]
      exact ih _ (by omega) fun j hj hj' => h j hj (by omega)

/-- The encryption sequence is refused by the first round key, from 0 upward, that is refused. -/
theorem encryptBlockWith_error (key : Nat → Except Refusal Block) (nr r : Nat) (b : Block) (e : Refusal) (hr : r ≤ nr)
    (he : key r = .error e) (h : ∀ j, j < r → ∃ k, key j = .ok k) : encryptBlockWith key nr b = .error e := by
  unfold encryptBlockWith
  by_cases h0 : r = 0
  · subst h0
    simp only [he, bind, Except.bind]
  · obtain ⟨k0, hk0⟩ := h 0 (by omega)
    by_cases hn : r = nr
    · subst hn
      obtain ⟨b', hb⟩ := encryptRounds_isOk key (r - 1) 1 (addRoundKeyFn b k0) fun j _ _ => h j (by omega)
      simp only [hk0, hb, he, bind, Except.bind]
    · simp only [hk0, encryptRounds_error key (nr - 1) 1 r (addRoundKeyFn b k0) e (by omega) (by omega) he h, bind, Except.bind]

/-- The decryption sequence is refused by the first round key, from `Nr` downward, that is refused. -/
theorem decryptBlockWith_error (key : Nat → Except Refusal Block) (nr r : Nat) (b : Block) (e : Refusal) (hr : r ≤ nr)
    (he : key r = .error e) (h : ∀ j, r < j → j ≤ nr → ∃ k, key j = .ok k) : decryptBlockWith key nr b = .error e := by
  unfold decryptBlockWith
  by_cases hn : r = nr
  · subst hn
    simp only [he, bind, Except.bind]
  · obtain ⟨k, hk⟩ := h nr (by omega) (by omega)
    by_cases h0 : r = 0
    · subst h0
      obtain ⟨b', hb⟩ := decryptRounds_isOk key (nr - 1) (addRoundKeyFn b k) fun j _ _ => h j (by omega) (by omega)
      simp only [hk, hb, he, bind, Except.bind]
    · simp only [hk, decryptRounds_error key (nr - 1) r (addRoundKeyFn b k) e (by omega) (by omega) he
        (fun j h1 h2 => h j h1 (by omega)), bind, Except.bind]

end Sys2Proof.Machine
end

