-- ==== Sys2Proof/Laws/PerInstr.lean ====
section
/-! SUPPORT. Statements made once per instruction. `TableRow`: the word of a well-formed instruction selects exactly one row of
the opcode table in its own format, the row of its mnemonic (30_encoding.md rule R83). -/

namespace Sys2Proof.Laws

open Sys2Proof

/-- The mnemonic of an instruction as spec/opcode_table.json writes it. -/
def mnemonicOf : Instr → String
  | .addRoundKey _ => "addRoundKey"
  | .subBytes => "subBytes"
  | .invSubBytes => "invSubBytes"
  | .shiftRows => "shiftRows"
  | .invShiftRows => "invShiftRows"
  | .mixColumns => "mixColumns"
  | .invMixColumns => "invMixColumns"
  | .shiftRow _ => "shiftRow"
  | .invShiftRow _ => "invShiftRow"
  | .expand => "expand"
  | .loadState => "loadState"
  | .storeOut => "storeOut"
  | .encryptBlock _ => "encryptBlock"
  | .decryptBlock _ => "decryptBlock"
  | .encrypt _ => "encrypt"
  | .decrypt _ => "decrypt"

/-- The rows of the instruction's own format that its word selects are exactly the row of its mnemonic. -/
def TableRow.Statement (i : Instr) : Prop :=
  i.wf = true → (rowsSelected i.format (encode i)).map OpcodeRow.mnemonic = [mnemonicOf i]

theorem TableRow.addRoundKey (r : BitVec 4) : TableRow.Statement (.addRoundKey r) := by
  unfold TableRow.Statement; revert r; decide
theorem TableRow.subBytes : TableRow.Statement .subBytes := by unfold TableRow.Statement; decide
theorem TableRow.invSubBytes : TableRow.Statement .invSubBytes := by unfold TableRow.Statement; decide
theorem TableRow.shiftRows : TableRow.Statement .shiftRows := by unfold TableRow.Statement; decide
theorem TableRow.invShiftRows : TableRow.Statement .invShiftRows := by unfold TableRow.Statement; decide
theorem TableRow.mixColumns : TableRow.Statement .mixColumns := by unfold TableRow.Statement; decide
theorem TableRow.invMixColumns : TableRow.Statement .invMixColumns := by unfold TableRow.Statement; decide
theorem TableRow.shiftRow (n : BitVec 4) : TableRow.Statement (.shiftRow n) := by
  unfold TableRow.Statement; revert n; decide
theorem TableRow.invShiftRow (n : BitVec 4) : TableRow.Statement (.invShiftRow n) := by
  unfold TableRow.Statement; revert n; decide
theorem TableRow.expand : TableRow.Statement .expand := by unfold TableRow.Statement; decide
theorem TableRow.loadState : TableRow.Statement .loadState := by unfold TableRow.Statement; decide
theorem TableRow.storeOut : TableRow.Statement .storeOut := by unfold TableRow.Statement; decide
theorem TableRow.encryptBlock (nr : BitVec 4) : TableRow.Statement (.encryptBlock nr) := by
  unfold TableRow.Statement; revert nr; decide
theorem TableRow.decryptBlock (nr : BitVec 4) : TableRow.Statement (.decryptBlock nr) := by
  unfold TableRow.Statement; revert nr; decide
theorem TableRow.encrypt (keylen : BitVec 7) : TableRow.Statement (.encrypt keylen) := by
  unfold TableRow.Statement; revert keylen; decide
theorem TableRow.decrypt (keylen : BitVec 7) : TableRow.Statement (.decrypt keylen) := by
  unfold TableRow.Statement; revert keylen; decide

end Sys2Proof.Laws
end

