-- ==== Sys2Proof/Laws/Sequencer.lean ====
section
/-! SUPPORT. What a step can do. -/

namespace Sys2Proof.Machine

open Sys2Proof

/-- The reset step comes first (R190). -/
theorem step_of_rst (s : State) (h : s.ports.rst = true) : step s = .next s.resetStep.advance := by
  simp [step, State.action, h]

/-- With nothing to do the core keeps its state (R200). -/
theorem step_of_idle (s : State) (hr : s.ports.rst = false) (hb : s.status.busy = false) (hs : s.ports.start = false) :
    step s = .next s.advance := by
  simp [step, State.action, hr, hb, hs]

/-- A start step runs the command word on port `cmd` (R167). -/
theorem step_of_start (s : State) (hr : s.ports.rst = false) (hb : s.status.busy = false) (hs : s.ports.start = true) :
    step s = advanced (exec (decodeH s.ports.cmd) s) := by
  simp [step, State.action, hr, hb, hs, decode]

/-- While busy the step is the core's (R148), whatever `start` is (R177). -/
theorem step_of_busy (s : State) (hr : s.ports.rst = false) (hb : s.status.busy = true) :
    step s = match s.fetch with
      | .error r => .refused r
      | .ok none => .next s.complete.advance
      | .ok (some w) =>
        match decodeM w with
        | some i => advanced (exec i s.takeUop)
        | none => .refused (.illegalUopWord w) := by
  simp only [step, State.action, hr, hb, State.busyAction, decode, Bool.false_eq_true, if_false, if_true]
  cases s.fetch with
  | error r => rfl
  | ok x =>
    cases x with
    | none => rfl
    | some w => cases h : decodeM w <;> simp [h]

theorem advanced_next_iff (x : Result) (t : State) : advanced x = .next t ↔ ∃ u, x = .next u ∧ t = u.advance := by
  cases x <;> simp [advanced, eq_comm]

/-- The ports move on and the counter advances; the spec's state stays. -/
theorem sameCore_advance (t : State) : SameCore t t.advance := by
  unfold SameCore State.advance
  cases t.host <;> simp

/-- Everything a step that answers can have done. -/
theorem step_next_cases (s t : State) (h : step s = .next t) :
    (s.ports.rst = true ∧ t = s.resetStep.advance) ∨
    (s.ports.rst = false ∧ s.status.busy = false ∧ s.ports.start = false ∧ t = s.advance) ∨
    (s.ports.rst = false ∧ s.status.busy = false ∧ s.ports.start = true ∧
      ∃ u, exec (decodeH s.ports.cmd) s = .next u ∧ t = u.advance) ∨
    (s.ports.rst = false ∧ s.status.busy = true ∧ s.fetch = .ok none ∧ t = s.complete.advance) ∨
    (s.ports.rst = false ∧ s.status.busy = true ∧
      ∃ w i u, s.fetch = .ok (some w) ∧ decodeM w = some i ∧ exec i s.takeUop = .next u ∧ t = u.advance) := by
  cases hr : s.ports.rst with
  | true =>
    rw [step_of_rst s hr] at h
    exact .inl ⟨rfl, by cases h; rfl⟩
  | false =>
    cases hb : s.status.busy with
    | false =>
      cases hs : s.ports.start with
      | false =>
        rw [step_of_idle s hr hb hs] at h
        exact .inr (.inl ⟨rfl, rfl, rfl, by cases h; rfl⟩)
      | true =>
        rw [step_of_start s hr hb hs] at h
        exact .inr (.inr (.inl ⟨rfl, rfl, rfl, (advanced_next_iff _ _).mp h⟩))
    | true =>
      rw [step_of_busy s hr hb] at h
      cases hf : s.fetch with
      | error r => simp [hf] at h
      | ok x =>
        cases x with
        | none =>
          simp only [hf] at h
          exact .inr (.inr (.inr (.inl ⟨rfl, rfl, rfl, by cases h; rfl⟩)))
        | some w =>
          simp only [hf] at h
          cases hd : decodeM w with
          | none => simp [hd] at h
          | some i =>
            simp only [hd] at h
            obtain ⟨u, hu, ht⟩ := (advanced_next_iff _ _).mp h
            exact .inr (.inr (.inr (.inr ⟨rfl, rfl, w, i, u, rfl, hd, hu, ht⟩)))

/-- Nothing is taken from an unused entry point. -/
theorem State.takeUop_of_empty (s : State) (h : s.uopIn = []) : s.takeUop = s := by
  cases s
  simp only at h
  subst h
  rfl

/-- What the sequencer presents while a command of variant `v` runs and the entry point is unused (R66). -/
theorem State.fetch_wired (s : State) (v : Variant) (hk : s.cmdreg.known = true)
    (hv : commandVariant s.cmdreg.val = some v) (hu : s.uopIn = []) :
    s.fetch = match (uprog (dirField s.cmdreg.val) v.nr)[s.upc]? with
      | some i => .ok (some (encode i))
      | none => if s.upc = (uprog (dirField s.cmdreg.val) v.nr).length then .ok none else .error (.noUopAtIndex s.upc) := by
  have hg : s.cmdreg.get .undefCommand = .ok s.cmdreg.val := (Slot.get_ok_iff _ _ _).mpr ⟨hk, rfl⟩
  cases h : (uprog (dirField s.cmdreg.val) v.nr)[s.upc]? <;>
    simp only [State.fetch, hg, currentVariant, hv, hu, bind, Except.bind, h]

end Sys2Proof.Machine
end

