-- ==== Sys2Proof/Tests/Slice0.lean ====
section
/-! SUPPORT. Tests of single steps, with expected values from spec/95_test_vectors.md and the words of spec/30_encoding.md, and a
witness for the hypotheses of each statement. -/

-- One theorem at a time: the kernel evaluations of many at once do not fit the memory limit.
set_option Elab.async false

namespace Sys2Proof.Tests

open Sys2Proof Sys2Proof.Machine

/-! ### Helpers -/

/-- A byte sequence from its hexadecimal digits as 95_test_vectors.md prints them, byte 0 first. -/
def bytesOf (n x : Nat) : Vector Byte n := Vector.ofFn fun i : Fin n => BitVec.ofNat 8 (x >>> (8 * (n - 1 - i.val)))

/-- A register holding those bytes. -/
def held (n x : Nat) : Vector (Slot Byte) n := (bytesOf n x).map Slot.hold

/-- Bytes at increasing addresses of the expanded-key store. -/
def cells (addr n x : Nat) : Memory := Memory.putAll [] addr (bytesOf n x).toList

/-- Keys A, B and C of 95_test_vectors.md section 2.3 are the first 16, 24 and 32 bytes of this. -/
def keyHex : Nat := 0x000102030405060708090a0b0c0d0e0f101112131415161718191a1b1c1d1e1f

/-- The plaintext of S1. -/
def plainHex : Nat := 0x00112233445566778899aabbccddeeff

/-- A running command with word `cmd`, the given `ST` and `XK`, key C, and the plaintext of S1. -/
def machine (cmd : Byte) (st : Nat) (xk : Memory) : State :=
  { State.reset with
    status := ⟨true, false, 0⟩
    cmdreg := Slot.hold cmd
    keyreg := held 32 keyHex
    dinreg := held 16 plainHex
    st := held 16 st
    xk := xk }

/-- A filled expanded-key store, byte `a` at address `a`. -/
def fullStore : Memory := (List.range 240).map fun a => (a, BitVec.ofNat 8 a)

/-- A running command of each variant, every location with a value. -/
def full : Variant → State
  | .key16 => machine 0x10 plainHex fullStore
  | .key24 => machine 0x18 plainHex fullStore
  | .key32 => machine 0xa0 plainHex fullStore

/-- The outcome is a next state with that `ST` and `UPC`. -/
def showsST (x : Result) (st upc : Nat) : Bool :=
  match x with
  | .next t => decide (t.st = held 16 st) && decide (t.upc = upc)
  | .fault _ => false
  | .refused _ => false

/-- The outcome is a next state with those bytes of `XK` from an address on. -/
def showsXK (x : Result) (addr n v : Nat) : Bool :=
  match x with
  | .next t => (List.finRange n).all fun i => Memory.find t.xk (addr + i.val) == some (bytesOf n v)[i]
  | .fault _ => false
  | .refused _ => false

/-- The outcome is a next state. -/
def goesOn {S F R : Type} (x : Host.Outcome S F R) : Bool :=
  match x with
  | .next _ => true
  | .fault _ => false
  | .refused _ => false

/-- The outcome is that refusal. -/
def refuses (x : Result) (r : Refusal) : Bool :=
  match x with
  | .next _ => false
  | .fault _ => false
  | .refused r' => r' == r

/-- The outcome is that fault. -/
def faultsWith {S R : Type} (x : Host.Outcome S Fault R) (r : Fault) : Bool :=
  match x with
  | .next _ => false
  | .fault r' => r' == r
  | .refused _ => false

/-- An idle core with a command on its ports. -/
def atStart (cmd : Byte) : State :=
  { State.reset with
    ports := ⟨false, true, cmd, pack (bytesOf 32 keyHex), pack (bytesOf 16 plainHex)⟩ }

/-! ### Well-formedness: an ill-formed term for each check (30_encoding.md rule R74) -/

theorem test_wf_refuses_round_key_15 : (Instr.addRoundKey 15).wf = false := by decide
theorem test_wf_refuses_row_4 : (Instr.shiftRow 4).wf = false := by decide
theorem test_wf_refuses_inverse_row_4 : (Instr.invShiftRow 4).wf = false := by decide
theorem test_wf_refuses_round_count_11 : (Instr.encryptBlock 11).wf = false := by decide
theorem test_wf_refuses_inverse_round_count_13 : (Instr.decryptBlock 13).wf = false := by decide
theorem test_wf_accepts_round_key_14 : (Instr.addRoundKey 14).wf = true := by decide

/-! ### Decoding: words written bit by bit from rules R71, R73, R75, R76 -/

theorem test_decode_addRoundKey : decodeM 0b00011110 = some (.addRoundKey 14) := by decide
theorem test_decode_subBytes : decodeM 0b00100000 = some .subBytes := by decide
theorem test_decode_invSubBytes : decodeM 0b00110000 = some .invSubBytes := by decide
theorem test_decode_shiftRows : decodeM 0b01000000 = some .shiftRows := by decide
theorem test_decode_invShiftRows : decodeM 0b01010000 = some .invShiftRows := by decide
theorem test_decode_mixColumns : decodeM 0b01100000 = some .mixColumns := by decide
theorem test_decode_invMixColumns : decodeM 0b01110000 = some .invMixColumns := by decide
theorem test_decode_shiftRow : decodeM 0b10000011 = some (.shiftRow 3) := by decide
theorem test_decode_invShiftRow : decodeM 0b10010001 = some (.invShiftRow 1) := by decide
theorem test_decode_expand : decodeM 0b10100000 = some .expand := by decide
theorem test_decode_loadState : decodeM 0b10110000 = some .loadState := by decide
theorem test_decode_storeOut : decodeM 0b11000000 = some .storeOut := by decide
theorem test_decode_encryptBlock : decodeM 0b11011100 = some (.encryptBlock 12) := by decide
theorem test_decode_decryptBlock : decodeM 0b11101110 = some (.decryptBlock 14) := by decide
theorem test_decode_encrypt : decodeH 0b00010000 = .encrypt 16 := by decide
theorem test_decode_decrypt : decodeH 0b10100000 = .decrypt 32 := by decide

/-- 95 section 2.7: illegal words, by name of the check that refuses them. -/
theorem test_decode_illegal :
    decodeM 0x00 = none ∧ decodeM 0x1f = none ∧ decodeM 0x21 = none ∧ decodeM 0x84 = none ∧ decodeM 0x98 = none ∧
      decodeM 0xdb = none ∧ decodeM 0xff = none := by decide

/-- 95 section 2.7: 38 legal format M words. -/
theorem test_decode_count :
    ((List.range 256).filter fun n => (decodeM (BitVec.ofNat 8 n)).isSome).length = 38 := by decide +kernel

/-! ### Function units (95 sections 2.1 and 2.2) -/

theorem test_sbox : sBoxLookup 0x00 = 0x63 ∧ sBoxLookup 0x53 = 0xed ∧ sBoxLookup 0x80 = 0xcd ∧ sBoxLookup 0xff = 0x16 := by
  decide
theorem test_isbox : inverseSBoxLookup 0x00 = 0x52 ∧ inverseSBoxLookup 0x63 = 0x00 ∧ inverseSBoxLookup 0xff = 0x7d := by
  decide
theorem test_rcon : roundConstant 1 = .ok 0x01 ∧ roundConstant 9 = .ok 0x1b ∧ roundConstant 14 = .ok 0x4d ∧
    roundConstant 0 = .error (.roundConstantIndex 0) ∧ roundConstant 15 = .error (.roundConstantIndex 15) := by decide
theorem test_galois : galoisMultiply 0x57 0x13 = 0xfe ∧ galoisMultiply 0x57 0x83 = 0xc1 ∧ galoisMultiply 0x80 0x02 = 0x1b ∧
    galoisMultiply 0x53 0xca = 0x01 ∧ galoisMultiply 0xff 0x0d = 0x97 := by decide
theorem test_invMixCol : invMixCol #v[0xdb, 0x13, 0x53, 0x45] = #v[0x32, 0xa4, 0x1d, 0x55] := by decide

/-! ### The micro-program and the assembler's text (30_encoding.md rule R80, 44_round_orchestrator.md rule R152) -/

theorem test_uprog_encrypt : (uprog false 10).map encode =
    [0xa0, 0xb0, 0x10, 0x20, 0x40, 0x60, 0x11, 0x20, 0x40, 0x60, 0x12, 0x20, 0x40, 0x60, 0x13, 0x20, 0x40, 0x60, 0x14] ++
      [0x20, 0x40, 0x60, 0x15, 0x20, 0x40, 0x60, 0x16, 0x20, 0x40, 0x60, 0x17, 0x20, 0x40, 0x60, 0x18] ++
      [0x20, 0x40, 0x60, 0x19, 0x20, 0x40, 0x1a, 0xc0] := by decide +kernel
theorem test_uprog_decrypt : (uprog true 10).map encode =
    [0xa0, 0xb0, 0x1a, 0x50, 0x30, 0x19, 0x70, 0x50, 0x30, 0x18, 0x70, 0x50, 0x30, 0x17, 0x70, 0x50, 0x30, 0x16, 0x70] ++
      [0x50, 0x30, 0x15, 0x70, 0x50, 0x30, 0x14, 0x70, 0x50, 0x30, 0x13, 0x70, 0x50, 0x30, 0x12, 0x70] ++
      [0x50, 0x30, 0x11, 0x70, 0x50, 0x30, 0x10, 0xc0] := by decide +kernel
theorem test_uprog_with_block : (uprogWithBlock false 10).map encode = [0xa0, 0xb0, 0xda, 0xc0] ∧
    (uprogWithBlock true 14).map encode = [0xa0, 0xb0, 0xee, 0xc0] := by decide +kernel
theorem test_assembly : assembly (.encrypt 16) = "encrypt 16" ∧ assembly (.addRoundKey 10) = "addRoundKey 10" := by
  decide +kernel

/-! ### One step of each micro-op (95 sections 1.3, 1.4, 2.4) -/

theorem test_subBytes :
    showsST (exec .subBytes (machine 0x10 0x00102030405060708090a0b0c0d0e0f0 [])) 0x63cab7040953d051cd60e0e7ba70e18c 1 = true := by
  decide +kernel
theorem test_invSubBytes :
    showsST (exec .invSubBytes (machine 0x90 0x7a9f102789d5f50b2beffd9f3dca4ea7 [])) 0xbd6e7c3df2b5779e0b61216e8b10b689 1 =
      true := by decide +kernel
theorem test_shiftRows :
    showsST (exec .shiftRows (machine 0x10 0x63cab7040953d051cd60e0e7ba70e18c [])) 0x6353e08c0960e104cd70b751bacad0e7 1 = true := by
  decide +kernel
theorem test_invShiftRows :
    showsST (exec .invShiftRows (machine 0x90 0x7ad5fda789ef4e272bca100b3d9ff59f [])) 0x7a9f102789d5f50b2beffd9f3dca4ea7 1 =
      true := by decide +kernel
theorem test_mixColumns :
    showsST (exec .mixColumns (machine 0x10 0x6353e08c0960e104cd70b751bacad0e7 [])) 0x5f72641557f5bc92f7be3b291db9f91a 1 = true := by
  decide +kernel
theorem test_invMixColumns :
    showsST (exec .invMixColumns (machine 0x90 0xe9f74eec023020f61bf2ccf2353c21c7 [])) 0x54d990a16ba09ab596bbf40ea111702f 1 =
      true := by decide +kernel
theorem test_shiftRow_1 :
    showsST (exec (.shiftRow 1) (machine 0x10 0x000102030405060708090a0b0c0d0e0f [])) 0x0005020304090607080d0a0b0c010e0f 1 =
      true := by decide +kernel
theorem test_shiftRow_3 :
    showsST (exec (.shiftRow 3) (machine 0x10 0x000102030405060708090a0b0c0d0e0f [])) 0x0001020f0405060308090a070c0d0e0b 1 =
      true := by decide +kernel
theorem test_invShiftRow_1 :
    showsST (exec (.invShiftRow 1) (machine 0x10 0x000102030405060708090a0b0c0d0e0f [])) 0x000d02030401060708050a0b0c090e0f 1 =
      true := by decide +kernel
theorem test_invShiftRow_3 :
    showsST (exec (.invShiftRow 3) (machine 0x10 0x000102030405060708090a0b0c0d0e0f [])) 0x000102070405060b08090a0f0c0d0e03 1 =
      true := by decide +kernel

/-- Program P1, last micro-op: only round key 1 of key A is in the store. -/
theorem test_addRoundKey :
    showsST (exec (.addRoundKey 1) (machine 0x10 0x5f72641557f5bc92f7be3b291db9f91a
      (cells 16 16 0xd6aa74fdd2af72fadaa678f1d6ab76fe))) 0x89d810e8855ace682d1843d8cb128fe4 1 = true := by decide +kernel

/-- `addRoundKey 11` under `Nr = 10` (R79), although the store has bytes there. -/
theorem test_addRoundKey_above_nr : refuses (exec (.addRoundKey 11) (full .key16)) (.roundKeyAboveNr 11) = true := by
  decide +kernel

/-- Key A: the first word of case 1 and the first of case 3 (95 section 2.3). -/
theorem test_expand_key16 : showsXK (exec .expand (machine 0x10 0 [])) 16 8 0xd6aa74fdd2af72fa = true := by decide +kernel

/-- Key C: the first case 2 step (95 section 2.3), and that a 24-byte key has none. -/
theorem test_schedule_case2 :
    scheduleCase 32 48 2 #v[0xa5, 0x72, 0xc0, 0x9c] = .ok (#v[0x06, 0x40, 0xba, 0xde], 2) ∧
      scheduleCase 24 40 2 #v[0x58, 0x47, 0xf0, 0xfa] = .ok (#v[0x58, 0x47, 0xf0, 0xfa], 2) := by decide +kernel

theorem test_loadState : showsST (exec .loadState (machine 0x10 0 [])) 0x00112233445566778899aabbccddeeff 1 = true := by
  decide +kernel

/-- R173: `dout[7:0] = 0x69`, `dout[127:120] = 0x5a`. -/
theorem test_storeOut :
    (match exec .storeOut (machine 0x10 0x69c4e0d86a7b0430d8cdb78070b4c55a []) with
      | .next t => decide (t.doutPort.extractLsb' 0 8 = 0x69) && decide (t.doutPort.extractLsb' 120 8 = 0x5a)
      | _ => false) = true := by decide +kernel

/-- 95 section 2.5: an expanded key of zeros. -/
theorem test_encryptBlock :
    showsST (exec (.encryptBlock 10) (machine 0x10 0x00112233445566778899aabbccddeeff (cells 0 176 0)))
      0x8c34c7e2358383edd3da9b3d23cca3b3 1 = true := by decide +kernel
theorem test_decryptBlock :
    showsST (exec (.decryptBlock 10) (machine 0x90 0x36363636363636363636363636363636 (cells 0 176 0))) 0 1 = true := by
  decide +kernel

/-! ### Host commands (95 section 2.6, programs P3, P4) -/

/-- An accepted start: `KEYREG[1] = 01`, `DINREG[15] = ff`, `BUSY` alone set. -/
theorem test_encrypt_accepted :
    (match step (atStart 0x10) with
      | .next t => decide (slotAt t.keyreg 1 = some 0x01) && decide (slotAt t.dinreg 15 = some 0xff) &&
          decide (t.status.word = 0x1) && decide (t.cmdreg = Slot.hold 0x10)
      | _ => false) = true := by decide +kernel

/-- A rejected start: `STATUS` as a number is 0x6 (P4). -/
theorem test_encrypt_rejected :
    (match step (atStart 0x14) with
      | .next t => decide (t.status.word = 0x6) && decide (t.keyreg = State.reset.keyreg)
      | _ => false) = true := by decide +kernel
theorem test_decrypt_accepted :
    (match step (atStart 0x98) with
      | .next t => decide (t.status.word = 0x1) && decide (t.cmdreg = Slot.hold 0x98)
      | _ => false) = true := by decide +kernel
theorem test_decrypt_rejected :
    (match step (atStart 0xff) with
      | .next t => decide (t.status.word = 0x6)
      | _ => false) = true := by decide +kernel

/-- 95 section 2.6, pure functions: a 20-byte key is reported first. -/
theorem test_pure_errors :
    faultsWith (encryptFn (List.replicate 15 0) (List.replicate 20 0)) .invalidKeySize = true ∧
      faultsWith (encryptFn (List.replicate 17 0) (List.replicate 16 0)) .invalidBlockLength = true := by decide +kernel

/-- R152 and the trace of 95 section 1.4: the fourth word of a 16-byte decryption is `invShiftRows`. -/
theorem test_step_runs_micro_program :
    showsST (step { machine 0x90 0x7ad5fda789ef4e272bca100b3d9ff59f [] with upc := 3 }) 0x7a9f102789d5f50b2beffd9f3dca4ea7 4 =
      true := by decide +kernel

/-- The completion step of a 16-byte command is at `UPC = 43` and leaves `STATUS` = 0x2 (P3). -/
theorem test_completion :
    (match step { full .key16 with upc := 43 } with
      | .next t => decide (t.status.word = 0x2) && decide (slotAt t.st 0 = none)
      | _ => false) = true := by decide +kernel

/-! ### Witnesses: for each statement with hypotheses, a state and operands that meet all of them -/

theorem full_inCommand (v : Variant) : (full v).InCommand := by cases v <;> exact ⟨rfl, rfl⟩
theorem full_running (v : Variant) : (full v).Running v := by cases v <;> exact ⟨⟨rfl, rfl⟩, rfl⟩
theorem full_st (v : Variant) : (full v).memRead .st 0 16 = .ok (bytesOf 16 plainHex) := by cases v <;> decide +kernel
theorem full_dinreg (v : Variant) : (full v).memRead .dinreg 0 16 = .ok (bytesOf 16 plainHex) := by
  cases v <;> decide +kernel
theorem full_keyreg (v : Variant) :
    (full v).memRead .keyreg 0 v.keySize = .ok (Vector.ofFn fun i : Fin v.keySize => BitVec.ofNat 8 i.val) := by
  cases v <;> decide +kernel
theorem full_location_xk (v : Variant) (a : Nat) (h : a < 240) : (full v).location .xk a = some (BitVec.ofNat 8 a) := by
  have h' : Memory.find fullStore a = some (BitVec.ofNat 8 a) := by rw [fullStore, Memory.find_range, if_pos h]
  cases v <;> exact h'
theorem full_xk (v : Variant) :
    (full v).memRead .xk 0 v.xklen = .ok (Vector.ofFn fun i : Fin v.xklen => BitVec.ofNat 8 i.val) := by
  have hx : v.xklen ≤ 240 := by cases v <;> decide
  refine (State.memRead_ok_iff _ _ _ _ _).mpr ⟨by simpa [Space.size] using hx, fun k h => ?_⟩
  rw [full_location_xk v _ (by omega)]; simp
theorem full_roundKey (v : Variant) (r : Fin 15) :
    (full v).memRead .xk (16 * r.val) 16 = .ok (Vector.ofFn fun i : Fin 16 => BitVec.ofNat 8 (16 * r.val + i.val)) := by
  refine (State.memRead_ok_iff _ _ _ _ _).mpr ⟨by simp only [Space.size]; omega, fun k h => ?_⟩
  rw [full_location_xk v _ (by omega)]; simp

theorem witness_DecodeEncode : (Instr.addRoundKey 14).wf = true ∧ (Instr.encrypt 127).wf = true := by decide
theorem witness_EncodeDecode : decode .M 0x83 = some (.shiftRow 3) ∧ decode .H 0x83 = some (.decrypt 3) := by decide
theorem witness_WorkedEncodings : State.reset.status.busy = false := by decide

/-- A running command with an illegal word at the entry point, `UPC` at its last legal value. -/
theorem witness_IllegalWords :
    let s := { full .key16 with upc := 42, uopIn := [0x1f] }
    s.ports.rst = false ∧ s.Running .key16 ∧ s.upc < 4 * Variant.key16.nr + 3 ∧ s.uopIn = [0x1f] ∧ decodeM 0x1f = none :=
  ⟨rfl, full_running .key16, by decide, rfl, by decide⟩
theorem witness_IllegalWords_member : Instr.storeOut ∈ uprog true Variant.key32.nr := by decide
theorem witness_SBoxClosedForm : (0 : Byte) = 0 ∧ (1 : Byte) ≠ 0 := by decide
theorem witness_RoundConstants : (2 ≤ 2 ∧ 2 ≤ 14) ∧ (2 ≤ 14 ∧ 14 ≤ 14) ∧ (15 = 0 ∨ 15 ≤ 15) := by decide
theorem witness_GaloisFieldLaws : (0xff : Byte) ≠ 0 ∧ galoisMultiply 0xff 0 = 0 := by decide

theorem witness_SubBytes : (full .key16).InCommand ∧ (full .key16).memRead .st 0 16 = .ok (bytesOf 16 plainHex) :=
  ⟨full_inCommand _, full_st _⟩
theorem witness_InvSubBytes : (full .key24).InCommand ∧ (full .key24).memRead .st 0 16 = .ok (bytesOf 16 plainHex) :=
  ⟨full_inCommand _, full_st _⟩
theorem witness_ShiftRows : (full .key32).InCommand ∧ (full .key32).memRead .st 0 16 = .ok (bytesOf 16 plainHex) :=
  ⟨full_inCommand _, full_st _⟩
theorem witness_InvShiftRows : (full .key16).InCommand ∧ (full .key16).memRead .st 0 16 = .ok (bytesOf 16 plainHex) :=
  ⟨full_inCommand _, full_st _⟩
theorem witness_MixColumns : (full .key16).InCommand ∧ (full .key16).memRead .st 0 16 = .ok (bytesOf 16 plainHex) :=
  ⟨full_inCommand _, full_st _⟩
theorem witness_InvMixColumns : (full .key16).InCommand ∧ (full .key16).memRead .st 0 16 = .ok (bytesOf 16 plainHex) :=
  ⟨full_inCommand _, full_st _⟩

/-- Row 3 holds values and nothing else does. -/
def rowOnly : State :=
  { full .key16 with
    st := Vector.ofFn fun i : Fin 16 => if i.val % 4 = 3 then Slot.hold 0x5a else Slot.undef 0 }

theorem witness_ShiftRow :
    (3 : BitVec 4).toNat ≤ 3 ∧ rowOnly.InCommand ∧ ∀ k, k < 4 → (rowOnly.location .st (4 * k + 3)).isSome = true :=
  ⟨by decide, ⟨rfl, rfl⟩, by decide +kernel⟩
theorem witness_InvShiftRow :
    (3 : BitVec 4).toNat ≤ 3 ∧ rowOnly.InCommand ∧ ∀ k, k < 4 → (rowOnly.location .st (4 * k + 3)).isSome = true :=
  witness_ShiftRow
theorem witness_ShiftRow_0 :
    (0 : BitVec 4).toNat ≤ 3 ∧ (full .key16).InCommand ∧
      ∀ k, k < 4 → ((full .key16).location .st (4 * k + 0)).isSome = true :=
  ⟨by decide, full_inCommand _, by decide +kernel⟩

/-- The last round key of the longest command. -/
theorem witness_AddRoundKey :
    (full .key32).Running .key32 ∧ (14 : BitVec 4).toNat ≤ Variant.key32.nr ∧
      (full .key32).memRead .st 0 16 = .ok (bytesOf 16 plainHex) ∧
      ∃ k, (full .key32).memRead .xk (16 * (14 : BitVec 4).toNat) 16 = .ok k :=
  ⟨full_running _, by decide, full_st _, _, full_roundKey .key32 14⟩
theorem witness_InversePairs :
    (full .key16).InCommand ∧ (full .key16).Running .key16 ∧ (full .key16).memRead .st 0 16 = .ok (bytesOf 16 plainHex) ∧
      (2 : BitVec 4).toNat ≤ 3 ∧ (10 : BitVec 4).toNat ≤ Variant.key16.nr ∧
      ∃ k, (full .key16).memRead .xk (16 * (10 : BitVec 4).toNat) 16 = .ok k :=
  ⟨full_inCommand _, full_running _, full_st _, by decide, by decide, _, full_roundKey .key16 10⟩
theorem witness_InversePairs_pair :
    (Instr.mixColumns, Instr.invMixColumns) ∈
      [(Instr.subBytes, Instr.invSubBytes), (.invSubBytes, .subBytes), (.shiftRows, .invShiftRows),
        (.invShiftRows, .shiftRows), (.mixColumns, .invMixColumns), (.invMixColumns, .mixColumns)] := by decide
theorem witness_RowByRow :
    (full .key16).InCommand ∧ (full .key16).memRead .st 0 16 = .ok (bytesOf 16 plainHex) ∧
      ([3, 1, 0, 2] : List (BitVec 4)).Perm [0, 1, 2, 3] :=
  ⟨full_inCommand _, full_st _, by decide⟩

theorem witness_ExpandResult (v : Variant) :
    (full v).Running v ∧
      (full v).memRead .keyreg 0 v.keySize = .ok (Vector.ofFn fun i : Fin v.keySize => BitVec.ofNat 8 i.val) :=
  ⟨full_running v, full_keyreg v⟩

/-- The first and the last word of each variant. -/
theorem witness_ScheduleRecurrence (v : Variant) :
    variantOf (List.replicate v.keySize (0 : Byte)).length = some v ∧
      (v.keySize ≤ v.keySize ∧ v.keySize < v.xklen ∧ v.keySize % 4 = 0) ∧
      (v.keySize ≤ v.xklen - 4 ∧ v.xklen - 4 < v.xklen ∧ (v.xklen - 4) % 4 = 0) := by
  cases v <;> decide

/-- Two commands that agree on the key and differ in `DIR`, the key bytes above, and the store. -/
theorem witness_ExpandReadsOnlyTheKey :
    (full .key16).Running .key16 ∧ (machine 0x90 0 []).Running .key16 ∧
      (∀ i, i < 16 → (full .key16).location .keyreg i = ({ machine 0x90 0 [] with
        keyreg := held 32 (keyHex + 1) } : State).location .keyreg i) ∧
      goesOn (exec .expand (full .key16)) = true :=
  ⟨full_running _, ⟨⟨rfl, rfl⟩, rfl⟩, by decide +kernel, by decide +kernel⟩

theorem witness_EncryptBlockResult (v : Variant) :
    (full v).Running v ∧ (full v).memRead .st 0 16 = .ok (bytesOf 16 plainHex) ∧
      (full v).memRead .xk 0 v.xklen = .ok (Vector.ofFn fun i : Fin v.xklen => BitVec.ofNat 8 i.val) :=
  ⟨full_running v, full_st v, full_xk v⟩
theorem witness_DecryptBlockResult (v : Variant) :
    (full v).Running v ∧ (full v).memRead .st 0 16 = .ok (bytesOf 16 plainHex) ∧
      (full v).memRead .xk 0 v.xklen = .ok (Vector.ofFn fun i : Fin v.xklen => BitVec.ofNat 8 i.val) :=
  witness_EncryptBlockResult v
theorem witness_BlockExpansion (v : Variant) :
    (full v).Running v ∧ (full v).memRead .st 0 16 = .ok (bytesOf 16 plainHex) ∧
      (full v).memRead .xk 0 v.xklen = .ok (Vector.ofFn fun i : Fin v.xklen => BitVec.ofNat 8 i.val) :=
  witness_EncryptBlockResult v
theorem witness_CommandExpansion (v : Variant) :
    (full v).Running v ∧
      (full v).memRead .keyreg 0 v.keySize = .ok (Vector.ofFn fun i : Fin v.keySize => BitVec.ofNat 8 i.val) ∧
      (full v).memRead .dinreg 0 16 = .ok (bytesOf 16 plainHex) :=
  ⟨full_running v, full_keyreg v, full_dinreg v⟩
theorem witness_BlockProceduresInverse (v : Variant) :
    (List.replicate (16 * (v.nr + 1)) (0xff : Byte)).length = 16 * (v.nr + 1) := by simp

/-- Each legal key length, with the command on the ports and the core idle. -/
theorem witness_AcceptedStart (keylen : BitVec 7) (h : keylen = 16 ∨ keylen = 24 ∨ keylen = 32) :
    let s := atStart (encode (.decrypt keylen))
    s.status.busy = false ∧ (keylen = 16 ∨ keylen = 24 ∨ keylen = 32) ∧ s.ports.rst = false ∧ s.ports.start = true ∧
      s.ports.cmd = encode (.decrypt keylen) := ⟨rfl, h, rfl, rfl, rfl⟩
theorem witness_RejectedStart (keylen : BitVec 7) (h : keylen ∈ [0, 15, 17, 23, 25, 31, 33, 127]) :
    let s := atStart (encode (.encrypt keylen))
    s.status.busy = false ∧ keylen ≠ 16 ∧ keylen ≠ 24 ∧ keylen ≠ 32 ∧ s.ports.rst = false ∧ s.ports.start = true ∧
      s.ports.cmd = encode (.encrypt keylen) := by
  refine ⟨rfl, ?_, ?_, ?_, rfl, rfl, rfl⟩ <;> (revert keylen; decide)
theorem witness_IgnoredStart :
    ((Instr.encrypt 16).format = .H ∧ (full .key16).status.busy = true) ∧
      ((full .key16).status.busy = true ∧ (full .key16).ports.rst = false) ∧
      ({ full .key16 with ports := ⟨true, true, 0x10, 0, 0⟩ } : State).ports.rst = true ∧
      (State.reset.ports.rst = false ∧ State.reset.status.busy = false ∧ State.reset.ports.start = false) := by decide
theorem witness_LoadState : (full .key16).InCommand ∧ (full .key16).memRead .dinreg 0 16 = .ok (bytesOf 16 plainHex) :=
  ⟨full_inCommand _, full_dinreg _⟩
theorem witness_StoreOut :
    ((full .key16).InCommand ∧ (full .key16).memRead .st 0 16 = .ok (bytesOf 16 plainHex)) ∧
      goesOn (exec .loadState (full .key16)) = true ∧ Instr.loadState ≠ .storeOut :=
  ⟨⟨full_inCommand _, full_st _⟩, by decide +kernel, by decide⟩

/-- Each clause at its boundary: 15, 17 and 33 bytes of key; 15 and 17 bytes of input; 16, 24, 32 and 16. -/
theorem witness_PureErrors :
    (∀ n ∈ [0, 15, 17, 23, 25, 31, 33], variantOf (List.replicate n (0 : Byte)).length = none) ∧
      (∀ n ∈ [16, 24, 32], variantOf (List.replicate n (0 : Byte)).length ≠ none) ∧
      (List.replicate 15 (0 : Byte)).length ≠ 16 ∧ (List.replicate 17 (0 : Byte)).length ≠ 16 ∧
      (List.replicate 16 (0 : Byte)).length = 16 := by decide
theorem witness_RoundTrip (v : Variant) : variantOf (List.replicate v.keySize (0 : Byte)).length ≠ none := by
  cases v <;> decide

/-- The host raises `start` again during the command and changes the other ports. -/
theorem witness_CommandEquivalence :
    let s := { atStart 0x98 with host := [⟨false, true, 0x10, 0, 0⟩, ⟨false, false, 0xff, 1, 1⟩] }
    s.ports.rst = false ∧ s.ports.start = true ∧ s.status.busy = false ∧ commandVariant s.ports.cmd = some .key24 ∧
      s.uopIn = [] ∧ ∀ p ∈ s.host, p.rst = false := ⟨rfl, rfl, rfl, rfl, rfl, by decide⟩
theorem witness_StepRunsUop :
    (full .key16).ports.rst = false ∧ (full .key16).status.busy = true ∧ (full .key16).fetch = .ok (some 0xa0) ∧
      decode .M 0xa0 = some .expand := by decide +kernel

/-- The first and the last index of the longest micro-program. -/
theorem witness_FetchIsWired :
    (full .key32).Running .key32 ∧ (full .key32).uopIn = [] ∧
      uprogTable (dirField (full .key32).cmdreg.val) Variant.key32.nr (full .key32).upc = some .expand ∧
      uprogTable (dirField (full .key32).cmdreg.val) Variant.key32.nr 58 = some .storeOut :=
  ⟨full_running _, rfl, by decide, by decide⟩
theorem witness_StepRunsCommand :
    (atStart 0x10).ports.rst = false ∧ (atStart 0x10).status.busy = false ∧ (atStart 0x10).ports.start = true ∧
      decode .H (atStart 0x10).ports.cmd = some (.encrypt 16) := by decide +kernel
theorem witness_Completion :
    let s := { full .key32 with upc := 59 }
    s.ports.rst = false ∧ s.Running .key32 ∧ s.upc = 4 * Variant.key32.nr + 3 :=
  ⟨rfl, full_running .key32, rfl⟩
theorem witness_ResetStep : ({ full .key16 with ports := ⟨true, false, 0, 0, 0⟩ } : State).ports.rst = true := rfl

theorem reset_inv : State.reset.Inv := by
  refine ⟨?_, ?_, ?_, ?_⟩
  · unfold FlagsOk; decide
  · intro h; exact absurd h (by decide)
  · unfold CountersOk; decide
  · rfl
theorem witness_InvariantKept : State.reset.Inv ∧ step State.reset = .next State.reset.advance := ⟨reset_inv, rfl⟩

/-- A running command between two micro-ops keeps the invariant's premises too. -/
theorem witness_InvariantKept_busy : ({ full .key32 with upc := 58 } : State).Inv := by
  refine ⟨?_, ?_, ?_, ?_⟩
  · unfold FlagsOk; decide
  · intro _; exact ⟨rfl, .key32, rfl, by decide⟩
  · unfold CountersOk; decide
  · decide +kernel
/-- A running command whose last micro-op, `storeOut`, is next. -/
def beforeStore : State := { full .key32 with upc := 58 }

theorem beforeStore_values : beforeStore.ValuesOk := by
  have hk : beforeStore.Holds .keyreg 0 32 := by unfold State.Holds; decide +kernel
  have hd : beforeStore.Holds .dinreg 0 16 := by unfold State.Holds; decide +kernel
  have hs : beforeStore.Holds .st 0 16 := by unfold State.Holds; decide +kernel
  refine ⟨rfl, fun _ => ⟨hk, hd, fun _ v hv a ha => ?_, fun _ => hs, fun v hv hu => ?_⟩, fun h => absurd h (by decide)⟩
  · obtain rfl : Variant.key32 = v := Option.some.inj hv
    exact Option.isSome_iff_exists.mpr ⟨_, full_location_xk .key32 (0 + a) (by rw [Nat.zero_add]; exact ha)⟩
  · obtain rfl : Variant.key32 = v := Option.some.inj hv
    exact absurd hu (by decide)

/-- A command between two micro-ops, and the reset state. -/
theorem witness_NoRefusal :
    State.reset.Inv ∧ State.reset.ValuesOk ∧ beforeStore.Inv ∧ beforeStore.ValuesOk :=
  ⟨reset_inv, ⟨rfl, fun h => absurd h (by decide), fun h => absurd h (by decide)⟩, witness_InvariantKept_busy,
    beforeStore_values⟩

/-- The state before the completion step: `storeOut` has written `DOUT`. -/
def stored : State := { full .key32 with upc := 59, dout := held 16 plainHex }

/-- A finished command: `DONE = 1`, `ERR = 0`, and `DOUT` holds its result. -/
def finished : State := { State.reset with status := ⟨false, true, 0⟩, dout := held 16 plainHex }

theorem witness_NoRefusal_stored : stored.Inv ∧ stored.ValuesOk := by
  have hw : Memory.wf stored.xk = true := witness_InvariantKept_busy.2.2.2
  have hk : stored.Holds .keyreg 0 32 := by unfold State.Holds; decide +kernel
  have hd : stored.Holds .dinreg 0 16 := by unfold State.Holds; decide +kernel
  have hs : stored.Holds .st 0 16 := by unfold State.Holds; decide +kernel
  have ho : stored.Holds .dout 0 16 := by unfold State.Holds; decide +kernel
  refine ⟨⟨by unfold FlagsOk; decide, fun _ => ⟨rfl, .key32, rfl, by decide⟩, by unfold CountersOk; decide, hw⟩,
    rfl, fun _ => ⟨hk, hd, fun _ v hv a ha => ?_, fun _ => hs, fun _ _ _ => ho⟩, fun _ _ => ho⟩
  obtain rfl : Variant.key32 = v := Option.some.inj hv
  exact Option.isSome_iff_exists.mpr ⟨_, full_location_xk .key32 (0 + a) (by rw [Nat.zero_add]; exact ha)⟩
theorem witness_NoRefusal_finished : finished.Inv ∧ finished.ValuesOk := by
  have ho : finished.Holds .dout 0 16 := by unfold State.Holds; decide +kernel
  exact ⟨⟨by unfold FlagsOk; decide, fun h => absurd h (by decide), by unfold CountersOk; decide, rfl⟩,
    rfl, fun h => absurd h (by decide), fun _ _ => ho⟩
theorem witness_WriteTable :
    Instr.subBytes.format = .M ∧ goesOn (exec .subBytes (full .key16)) = true ∧
      goesOn (exec .storeOut (full .key16)) = true := by decide +kernel

/-- Both outcomes of a busy step: one that answers, one that is refused. -/
theorem witness_PortsUnreadWhileBusy :
    ((full .key16).status.busy = true ∧ (full .key16).ports.rst = false ∧ Ports.idle.rst = false ∧
      goesOn (step { full .key16 with upc := 1 }) = true) ∧
      refuses (step { full .key16 with uopIn := [0x00] }) (.illegalUopWord 0) = true := by decide +kernel

/-- `r = Nr + 1`, and a round count of another variant. -/
theorem witness_DynamicallyIllegal :
    (full .key16).Running .key16 ∧ ((11 : BitVec 4).toNat ≤ 14 ∧ Variant.key16.nr < (11 : BitVec 4).toNat) ∧
      (((12 : BitVec 4) = 10 ∨ (12 : BitVec 4) = 12 ∨ (12 : BitVec 4) = 14) ∧ (12 : BitVec 4).toNat ≠ Variant.key16.nr) ∧
      Instr.addRoundKey 10 ∈ uprog false Variant.key16.nr :=
  ⟨full_running _, by decide, by decide, by decide +kernel⟩
theorem witness_UopsNeedACommand :
    Instr.expand.format = .M ∧ State.reset.status.busy = false ∧
      ({ State.reset with status := ⟨true, false, 0⟩ } : State).status.busy = true ∧
      ({ State.reset with status := ⟨true, false, 0⟩ } : State).cmdreg.known = false := by decide

/-- A running command right after its start from reset with `KEYREG` and `DINREG` not loaded. -/
def bare : State := { State.reset with status := ⟨true, false, 0⟩, cmdreg := Slot.hold 0x10 }

theorem witness_UndefReadsRefused :
    bare.InCommand ∧ bare.Running .key16 ∧ bare.firstUndef .st 0 16 = some 0 ∧ bare.firstUndef .dinreg 0 16 = some 0 ∧
      bare.firstUndef .keyreg 0 Variant.key16.keySize = some 0 ∧ (10 : BitVec 4).toNat ≤ Variant.key16.nr ∧
      bare.firstUndef .xk (16 * (10 : BitVec 4).toNat) 16 = some 160 :=
  ⟨⟨rfl, rfl⟩, ⟨⟨rfl, rfl⟩, rfl⟩, by decide +kernel, by decide +kernel, by decide +kernel, by decide, by decide +kernel⟩

/-- Row 2 holds values but for its last column. -/
def rowGap : State :=
  { full .key16 with
    st := Vector.ofFn fun i : Fin 16 => if i.val = 14 then Slot.undef 0 else Slot.hold 0x5a }

theorem witness_UndefReadsRefused_row :
    rowGap.InCommand ∧ (2 : BitVec 4).toNat ≤ 3 ∧ 3 < 4 ∧ rowGap.location .st (4 * 3 + (2 : BitVec 4).toNat) = none ∧
      ∀ c', c' < 3 → rowGap.location .st (4 * c' + (2 : BitVec 4).toNat) ≠ none :=
  ⟨⟨rfl, rfl⟩, by decide, by decide, by decide +kernel, by decide +kernel⟩

/-- `addRoundKey`: the round key is there and a byte of `ST` is not. -/
theorem witness_UndefReadsRefused_addRoundKey :
    rowGap.Running .key16 ∧ (10 : BitVec 4).toNat ≤ Variant.key16.nr ∧
      rowGap.firstUndef .xk (16 * (10 : BitVec 4).toNat) 16 = none ∧ rowGap.firstUndef .st 0 16 = some 14 :=
  ⟨⟨⟨rfl, rfl⟩, rfl⟩, by decide, by decide +kernel, by decide +kernel⟩

/-- Whole blocks: `ST` is there; for encryption round key 0 alone is. -/
theorem witness_UndefReadsRefused_encryptBlock :
    let s := machine 0x10 plainHex (cells 0 16 0)
    s.Running .key16 ∧ s.firstUndef .st 0 16 = none ∧ s.firstUndef .xk 0 Variant.key16.xklen = some 16 :=
  ⟨⟨⟨rfl, rfl⟩, rfl⟩, by decide +kernel, by decide +kernel⟩

/-- For decryption round key 10 alone is. -/
theorem witness_UndefReadsRefused_decryptBlock :
    let s := machine 0x90 plainHex (cells 160 16 0)
    s.Running .key16 ∧ s.firstUndef .st 0 16 = none ∧ 9 ≤ Variant.key16.nr ∧ s.firstUndef .xk (16 * 9) 16 = some 144 ∧
      ∀ r', 9 < r' → r' ≤ Variant.key16.nr → s.firstUndef .xk (16 * r') 16 = none := by
  refine ⟨⟨⟨rfl, rfl⟩, rfl⟩, by decide +kernel, by decide, by decide +kernel, fun r' h1 h2 => ?_⟩
  obtain rfl : r' = 10 := Nat.le_antisymm h2 h1
  decide +kernel

/-- The last sixteen bytes of the store, and an address beside them. -/
theorem witness_ReadAfterWrite :
    (∃ t, (full .key16).memWrite .xk 224 (bytesOf 16 plainHex) = .ok t) ∧ (Space.st ≠ .xk ∨ 0 < 224 ∨ 224 + 16 ≤ 0) ∧
      (223 < 224) ∧ (224 + 16 ≤ 240) :=
  ⟨⟨_, rfl⟩, .inr (.inl (by decide)), by decide, by decide⟩

/-- Each clause at its boundary. -/
theorem witness_AccessRefusals :
    Space.xk.size < 225 + 16 ∧ (0 + 16 ≤ Space.st.size ∧ bare.firstUndef .st 0 16 = some 0) ∧
      (224 + 16 ≤ Space.xk.size ∧ (full .key16).firstUndef .xk 224 16 = none) ∧ Space.rcon.isRom = true ∧
      (Space.dout.isRom = false ∧ Space.dout.size < 1 + 16) ∧ (Space.dout.isRom = false ∧ 0 + 16 ≤ Space.dout.size) := by
  decide +kernel
theorem witness_PortPacking :
    31 < 32 ∧ slotAt ({ full .key16 with dout := held 16 plainHex } : State).dout 0 = some 0x00 := by decide +kernel
theorem witness_OutputPorts :
    ({ full .key16 with dout := held 16 plainHex } : State).memRead .dout 0 16 = .ok (bytesOf 16 plainHex) := by
  decide +kernel

end Sys2Proof.Tests
end

section
/-! PROOF. What a micro-op writes: one inversion lemma for each kind of micro-op, and the table of R34 read off them (O52). -/

namespace Sys2Proof.Machine

open Sys2Proof

/-! ### The sizes of a variant (R2) -/

theorem Variant.keySize_ge (v : Variant) : 16 ≤ v.keySize := by cases v <;> decide

theorem Variant.keySize_le (v : Variant) : v.keySize ≤ 32 := by cases v <;> decide

theorem Variant.nr_le (v : Variant) : v.nr ≤ 14 := by cases v <;> decide

theorem Variant.xklen_le (v : Variant) : v.xklen ≤ 240 := by cases v <;> decide

theorem Variant.xklen_mod (v : Variant) : v.xklen % 4 = 0 := by cases v <;> decide

theorem Variant.keySize_lt_xklen (v : Variant) : v.keySize < v.xklen := by cases v <;> decide

theorem Variant.keySize_add_words (v : Variant) : v.keySize + 4 * v.words = v.xklen := by cases v <;> decide

/-! ### Frames -/

/-- The state a micro-op leaves is its own effect's with `UPC` one further. -/
theorem uop_of_ok (s s' : State) (body : Byte → Except Refusal State) (hc : s.InCommand)
    (h : body s.cmdreg.val = .ok s') : uop s body = .next { s' with upc := s'.upc + 1 } :=
  (uop_next_iff _ _ _).mpr ⟨hc.1, hc.2, s', h, rfl⟩

/-- A micro-op whose own effect writes `ST` only changes `ST` and `UPC` only. -/
theorem uop_onlySTChanged (s t : State) (body : Byte → Except Refusal State)
    (hbody : ∀ c s', body c = .ok s' → s' = { s with st := s'.st }) (h : uop s body = .next t) : OnlySTChanged s t := by
  obtain ⟨-, -, s', hs', rfl⟩ := (uop_next_iff _ _ _).mp h
  obtain ⟨st', rfl⟩ : ∃ st', s' = { s with st := st' } := ⟨_, hbody _ _ hs'⟩
  rfl

/-- Every micro-op but `expand` and `storeOut` changes `ST` and `UPC` only (R34). -/
theorem exec_onlySTChanged (i : Instr) (s t : State) (hM : i.format = .M) (he : i ≠ .expand) (ho : i ≠ .storeOut)
    (h : exec i s = .next t) : OnlySTChanged s t := by
  cases i with
  | subBytes | invSubBytes | shiftRows | invShiftRows | mixColumns | invMixColumns =>
    exact uop_onlySTChanged s t _ (fun _ _ hb => State.mapST_frame _ _ _ hb) h
  | shiftRow n | invShiftRow n =>
    exact uop_onlySTChanged s t _ (fun _ _ hb => State.mapRow_frame _ _ _ _ hb) h
  | encryptBlock nr | decryptBlock nr =>
    refine uop_onlySTChanged s t _ (fun _ _ hb => ?_) h
    obtain ⟨_, -, hb⟩ := (except_bind_ok_iff _ _ _).mp hb
    exact State.mapST_frame _ _ _ hb
  | addRoundKey r =>
    refine uop_onlySTChanged s t _ (fun c s' hb => ?_) h
    split at hb
    · obtain ⟨v, -, hb⟩ := (except_bind_ok_iff _ _ _).mp hb
      split at hb
      · obtain ⟨k, -, hb⟩ := (except_bind_ok_iff _ _ _).mp hb
        exact State.mapST_frame _ _ _ hb
      · cases hb
    · cases hb
  | loadState =>
    refine uop_onlySTChanged s t _ (fun _ _ hb => ?_) h
    obtain ⟨block, -, hb⟩ := (except_bind_ok_iff _ _ _).mp hb
    obtain ⟨-, -, rfl⟩ := (State.memWrite_ok_iff _ _ _ _ _).mp hb
    rfl
  | expand => exact absurd rfl he
  | storeOut => exact absurd rfl ho
  | encrypt _ | decrypt _ => cases hM

/-- `storeOut` changes `DOUT` and `UPC` only (R173). -/
theorem exec_storeOut_frame (s t : State) (h : exec .storeOut s = .next t) :
    t = { s with dout := t.dout, upc := s.upc + 1 } := by
  obtain ⟨-, -, s', hs', rfl⟩ := (uop_next_iff _ _ _).mp h
  obtain ⟨block, -, hw⟩ := (except_bind_ok_iff _ _ _).mp hs'
  obtain ⟨-, -, rfl⟩ := (State.memWrite_ok_iff _ _ _ _ _).mp hw
  rfl

/-- When `expand` answers: the command has a variant, the key copy answers, and then the word loop. -/
theorem exec_expand_next (s t : State) (h : exec .expand s = .next t) :
    ∃ v s₁ s₂, s.Running v ∧ keyCopy v.keySize s = .ok s₁ ∧ expandLoop v.keySize v.xklen v.words s₁ = .ok s₂ ∧
      t = { s₂ with upc := s₂.upc + 1 } := by
  obtain ⟨hb, hk, s₂, hs₂, rfl⟩ := (uop_next_iff _ _ _).mp h
  obtain ⟨v, hv, hs₂⟩ := (except_bind_ok_iff _ _ _).mp hs₂
  obtain ⟨s₁, hs₁, hs₂⟩ := (except_bind_ok_iff _ _ _).mp hs₂
  refine ⟨v, s₁, s₂, ⟨⟨hb, hk⟩, ?_⟩, hs₁, hs₂, rfl⟩
  unfold currentVariant at hv
  split at hv
  · cases hv; assumption
  · cases hv

/-- `expand` changes `XK`, `T`, `OFF`, `RCI` and `UPC` only (R100). -/
theorem exec_expand_frame (s t : State) (h : exec .expand s = .next t) :
    t = { s with xk := t.xk, t := t.t, off := t.off, rci := t.rci, upc := s.upc + 1 } := by
  obtain ⟨v, s₁, s₂, -, hcopy, hloop, rfl⟩ := exec_expand_next s t h
  obtain ⟨key, -, rfl⟩ := (keyCopy_ok_iff _ _ _ (by have := v.keySize_le; omega)).mp hcopy
  rw [expandLoop_frame _ _ _ _ _ hloop]
  rfl

/-- Settles O52: the table of R34, from the frame of each kind of micro-op. -/
theorem writeTable : Obligations.WriteTable := by
  intro i s t hM h
  by_cases he : i = .expand
  · subst he
    rw [exec_expand_frame s t h]
    simp
  · by_cases ho : i = .storeOut
    · subst ho
      rw [exec_storeOut_frame s t h]
      simp
    · rw [exec_onlySTChanged i s t hM he ho h]
      simp [he, ho]

end Sys2Proof.Machine
end

section
/-! PROOF. What the sequencer presents in a running command (R30, R66, R147), and the statements about one step that follow from it
(O41 to O46). -/

namespace Sys2Proof.Machine

open Sys2Proof

theorem uprog_length (dir : Bool) (v : Variant) : (uprog dir v.nr).length = 4 * v.nr + 3 := by
  cases dir <;> cases v <;> decide

theorem uprogTable_eq_none (dir : Bool) (nr u : Nat) (h : 4 * nr + 3 ≤ u) : uprogTable dir nr u = none := by
  unfold uprogTable
  repeat rw [if_neg (by omega)]

/-- The micro-program is the printed table (R147). -/
theorem uprog_getElem? (dir : Bool) (v : Variant) (u : Nat) : (uprog dir v.nr)[u]? = uprogTable dir v.nr u := by
  by_cases h : u < 4 * v.nr + 3
  · revert u
    cases dir <;> cases v <;> decide
  · rw [uprogTable_eq_none _ _ _ (by omega)]
    exact List.getElem?_eq_none (by rw [uprog_length]; omega)

/-- Every word of a micro-program is legal and decodes to its micro-op (R77). -/
theorem decodeM_encode_of_mem_uprog (dir : Bool) (v : Variant) (i : Instr) (h : i ∈ uprog dir v.nr) :
    decodeM (encode i) = some i := by
  revert i
  cases dir <;> cases v <;> decide

theorem whenLegal_eq_some_iff (ok : Bool) (i j : Instr) : whenLegal ok i = some j ↔ ok = true ∧ i = j := by
  cases ok <;> simp [whenLegal]

/-- What the format M decoder answers is a micro-op (R85). -/
theorem decodeM_format (w : Byte) (i : Instr) (h : decodeM w = some i) : i.format = .M := by
  unfold decodeM at h
  dsimp only at h
  split at h
  case h_15 => cases h
  all_goals
    obtain ⟨-, rfl⟩ := (whenLegal_eq_some_iff _ _ _).mp h
    rfl

/-- The word presented in a running command: below the end of the micro-program one of the entry point (log 8) or the wired one, at
its end none. -/
theorem State.fetch_running (s : State) (v : Variant) (hr : s.Running v) :
    s.fetch =
      if s.upc < 4 * v.nr + 3 then
        .ok (s.uopIn.head?.or ((uprogTable (dirField s.cmdreg.val) v.nr s.upc).map encode))
      else if s.upc = 4 * v.nr + 3 then .ok none
      else .error (.noUopAtIndex s.upc) := by
  obtain ⟨⟨-, hk⟩, hv⟩ := hr
  have hg : s.cmdreg.get .undefCommand = .ok s.cmdreg.val := (Slot.get_ok_iff _ _ _).mpr ⟨hk, rfl⟩
  have hlen := uprog_length (dirField s.cmdreg.val) v
  simp only [State.fetch, hg, currentVariant, hv, bind, Except.bind, hlen, ← uprog_getElem?]
  by_cases h : s.upc < 4 * v.nr + 3
  · obtain ⟨i, hi⟩ : ∃ i, (uprog (dirField s.cmdreg.val) v.nr)[s.upc]? = some i :=
      ⟨_, List.getElem?_eq_getElem (by omega)⟩
    cases hu : s.uopIn <;> simp [h, hi]
  · have hi : (uprog (dirField s.cmdreg.val) v.nr)[s.upc]? = none := List.getElem?_eq_none (by omega)
    simp [h, hi]

/-- A word is presented below the end of the micro-program only. -/
theorem State.upc_lt_of_fetch (s : State) (v : Variant) (w : Byte) (hr : s.Running v) (h : s.fetch = .ok (some w)) :
    s.upc < 4 * v.nr + 3 := by
  rw [s.fetch_running v hr] at h
  split at h
  · assumption
  · split at h <;> cases h

/-- Settles O41, by the busy step's equation. -/
theorem stepRunsUop : Obligations.StepRunsUop := by
  intro s w i hr hb hf hd
  have hd : decodeM w = some i := hd
  rw [step_of_busy s hr hb]
  simp only [hf, hd]
  rfl

/-- Settles O42: the wired word is the table's, and every word of a micro-program decodes. -/
theorem fetchIsWired : Obligations.FetchIsWired := by
  intro s v i hr hu hi
  have hmem : i ∈ uprog (dirField s.cmdreg.val) v.nr := List.mem_of_getElem? ((uprog_getElem? _ _ _).trans hi)
  obtain ⟨⟨-, hk⟩, hv⟩ := hr
  refine ⟨?_, decodeM_encode_of_mem_uprog _ v i hmem⟩
  rw [s.fetch_wired v hk hv hu, uprog_getElem?, hi]

/-- Settles O43, by the start step's equation. -/
theorem stepRunsCommand : Obligations.StepRunsCommand := by
  intro s i hr hb hs hd
  obtain rfl : decodeH s.ports.cmd = i := Option.some.inj hd
  rw [step_of_start s hr hb hs]
  rfl

/-- At the end of the micro-program the step is the completion step (R30). -/
theorem step_of_complete (s : State) (v : Variant) (hr : s.ports.rst = false) (hrun : s.Running v)
    (hu : s.upc = 4 * v.nr + 3) : step s = .next s.complete.advance := by
  have hf : s.fetch = .ok none := by rw [s.fetch_running v hrun]; simp [hu]
  rw [step_of_busy s hr hrun.1.1, hf]

theorem allUndef_discardBytes {n : Nat} (bits : Vector Byte n) : AllUndef (discardBytes bits) :=
  fun _ _ => slotAt_discardBytes _ _

/-- Settles O44, from the registers the completion step leaves. -/
theorem completion : Obligations.Completion := by
  intro s v hr hrun hu
  refine ⟨_, step_of_complete s v hr hrun hu, ?_⟩
  simp [Status.completed, allUndef_discardBytes, State.location, Slot.undef]

theorem allUndef_replicate (n : Nat) (x : Byte) : AllUndef (Vector.replicate n (Slot.undef x)) := by
  intro i hi
  simp [slotAt, hi, Slot.undef]

/-- Settles O46, register by register. -/
theorem resetValues : Obligations.ResetValues :=
  ⟨rfl, rfl, rfl, allUndef_replicate _ _, allUndef_replicate _ _, allUndef_replicate _ _, allUndef_replicate _ _,
    fun _ => rfl, rfl, rfl, rfl⟩

/-- Settles O45: the reset step leaves the registers of `State.reset`. -/
theorem resetStep : Obligations.ResetStep := by
  intro s hr
  refine ⟨_, step_of_rst s hr, ?_⟩
  simpa [Obligations.ResetValues, State.location] using resetValues

end Sys2Proof.Machine
end

section
/-! PROOF. The key schedule (R100 to R110): one iteration of the word loop as a function on the sequence built so far, followed by the
function `Expand` and by the micro-op `expand` alike; the recurrence (O24) and what `expand` depends on (O25) read off it. -/

namespace Sys2Proof.Machine

open Sys2Proof

/-! ### Words of a byte sequence -/

/-- The four bytes of a sequence from an address on. -/
def wordAt (x : List Byte) (a : Nat) : Word4 := Vector.ofFn fun i : Fin 4 => (x[a + i.val]?).getD 0

theorem sliceOf_word (x : List Byte) (a : Nat) (h : a + 4 ≤ x.length) : sliceOf x a 4 = .ok (wordAt x a) := by
  have hlen : ((x.drop a).take 4).length = 4 := by simp; omega
  simp only [sliceOf, exactly, hlen, if_true, Except.ok.injEq]
  ext1 i hi
  simp [wordAt]

/-- A longer sequence has the same words where the shorter one has them. -/
theorem wordAt_of_prefix (x y : List Byte) (a : Nat) (hp : x <+: y) (h : a + 4 ≤ x.length) : wordAt y a = wordAt x a := by
  obtain ⟨z, rfl⟩ := hp
  ext1 i hi
  simp only [wordAt, Vector.getElem_ofFn]
  rw [List.getElem?_append_left (by omega)]

/-- The word after a sequence it is appended to. -/
theorem wordAt_append (x : List Byte) (w : Word4) : wordAt (x ++ w.toList) x.length = w := by
  ext1 i hi
  simp [wordAt]

/-! ### One iteration -/

/-- A place of the schedule where a word is generated (R102). -/
def InSchedule (v : Variant) (off : Nat) : Prop := v.keySize ≤ off ∧ off < v.xklen ∧ off % 4 = 0

/-- `RCI` when the schedule stands at an offset: the number of the next application of case 1 (R103, R107). -/
def rciAt (v : Variant) (off : Nat) : Nat := (off + v.keySize - 1) / v.keySize

theorem div_keySize_le (v : Variant) (off : Nat) (h : off < v.xklen) : off / v.keySize ≤ 10 := by
  cases v <;> simp only [Variant.keySize, Variant.xklen, Variant.nr] at h ⊢ <;> omega

theorem rciAt_of_mod_eq_zero (v : Variant) (off : Nat) (h : off % v.keySize = 0) : rciAt v off = off / v.keySize := by
  cases v <;> simp only [rciAt, Variant.keySize] at h ⊢ <;> omega

theorem rciAt_next (v : Variant) (off : Nat) (h4 : off % 4 = 0) :
    rciAt v (off + 4) = if off % v.keySize = 0 then rciAt v off + 1 else rciAt v off := by
  by_cases h : off % v.keySize = 0
  · rw [if_pos h]
    cases v <;> simp only [rciAt, Variant.keySize] at h ⊢ <;> omega
  · rw [if_neg h]
    cases v <;> simp only [rciAt, Variant.keySize] at h ⊢ <;> omega

/-- The constants the schedule uses are the table's (R95). -/
theorem roundConstant_eq (i : Nat) (h1 : 1 ≤ i) (h14 : i ≤ 14) : roundConstant i = .ok ((rconTable[i]?).getD 0) := by
  obtain ⟨c, hi⟩ : ∃ c, rconTable[i]? = some c := ⟨_, List.getElem?_eq_getElem (by simp [rconTable]; omega)⟩
  cases i with
  | zero => omega
  | succ k => simp [roundConstant, hi]

/-- The choice of case and its action at a place of the schedule (R102 to R105). -/
theorem scheduleCase_eq (v : Variant) (off : Nat) (t : Word4) (h : InSchedule v off) :
    scheduleCase v.keySize off (rciAt v off) t = .ok (scheduleWord v.keySize off t, rciAt v (off + 4)) := by
  obtain ⟨hlo, hhi, h4⟩ := h
  unfold scheduleCase scheduleWord
  rw [rciAt_next v off h4]
  by_cases h0 : off % v.keySize = 0
  · have hk : 0 < v.keySize := by cases v <;> decide
    have h1 : 1 ≤ off / v.keySize := (Nat.le_div_iff_mul_le hk).mpr (by omega)
    have h10 := div_keySize_le v off hhi
    simp only [h0, if_true, rciAt_of_mod_eq_zero v off h0, roundConstant_eq _ h1 (by omega), bind, Except.bind]
  · simp only [h0, if_false]
    split <;> rfl

/-- The sequence with the next word of the schedule (R106). -/
def scheduleStep (v : Variant) (x : List Byte) : List Byte :=
  x ++ (xorBytes (scheduleWord v.keySize x.length (wordAt x (x.length - 4))) (wordAt x (x.length - v.keySize))).toList

theorem scheduleStep_length (v : Variant) (x : List Byte) : (scheduleStep v x).length = x.length + 4 := by
  simp [scheduleStep]

theorem prefix_scheduleStep (v : Variant) (x : List Byte) : x <+: scheduleStep v x := List.prefix_append _ _

theorem scheduleSteps_length (v : Variant) (x : List Byte) (n : Nat) :
    ((scheduleStep v)^[n] x).length = x.length + 4 * n := by
  induction n with
  | zero => rfl
  | succ n ih => rw [Function.iterate_succ_apply', scheduleStep_length, ih]; omega

theorem scheduleSteps_prefix (v : Variant) (x : List Byte) (m n : Nat) (h : m ≤ n) :
    (scheduleStep v)^[m] x <+: (scheduleStep v)^[n] x := by
  induction n, h using Nat.le_induction with
  | base => exact List.prefix_rfl
  | succ n _ ih =>
    rw [Function.iterate_succ_apply']
    exact ih.trans (prefix_scheduleStep _ _)

/-! ### The function `Expand` -/

theorem expandFnWord_eq (v : Variant) (x : List Byte) (h : InSchedule v x.length) :
    expandFnWord v.keySize x (rciAt v x.length) = .ok (scheduleStep v x, rciAt v (x.length + 4)) := by
  have hk := v.keySize_ge
  have hlo := h.1
  simp only [expandFnWord, sliceOf_word x (x.length - 4) (by omega), scheduleCase_eq v _ _ h,
    sliceOf_word x (x.length - v.keySize) (by omega), bind, Except.bind, scheduleStep]

/-- The offset is one of the schedule's while words are missing. -/
theorem inSchedule_of_missing (v : Variant) (off n : Nat) (hlo : v.keySize ≤ off) (hlen : off + 4 * (n + 1) = v.xklen) :
    InSchedule v off := by
  have := v.xklen_mod
  exact ⟨hlo, by omega, by omega⟩

theorem expandFnLoop_eq (v : Variant) (n : Nat) (x : List Byte) (hlo : v.keySize ≤ x.length)
    (hlen : x.length + 4 * n = v.xklen) :
    expandFnLoop v.keySize v.xklen n x (rciAt v x.length) = .ok ((scheduleStep v)^[n] x) := by
  induction n generalizing x with
  | zero => rfl
  | succ n ih =>
    have hin := inSchedule_of_missing v x.length n hlo hlen
    have hnext := ih (scheduleStep v x) (by rw [scheduleStep_length]; omega) (by rw [scheduleStep_length]; omega)
    rw [scheduleStep_length] at hnext
    simp only [expandFnLoop, hin.2.1, if_true, expandFnWord_eq v x hin, bind, Except.bind, hnext,
      Function.iterate_succ_apply]

/-- The key followed by the words of the schedule (R24). -/
def expansion (v : Variant) (key : List Byte) : List Byte := (scheduleStep v)^[v.words] key

theorem expansion_length (v : Variant) (key : List Byte) (h : key.length = v.keySize) :
    (expansion v key).length = v.xklen := by
  rw [expansion, scheduleSteps_length, h, v.keySize_add_words]

theorem rciAt_keySize (v : Variant) : rciAt v v.keySize = 1 := by cases v <;> decide

theorem keySize_of_variantOf (n : Nat) (v : Variant) (h : variantOf n = some v) : n = v.keySize := by
  unfold variantOf at h
  split at h <;> cases h <;> rfl

theorem expandFn_eq (v : Variant) (key : List Byte) (h : variantOf key.length = some v) :
    expandFn key = .ok (expansion v key) := by
  have hlen := keySize_of_variantOf _ _ h
  have hloop := expandFnLoop_eq v v.words key (by omega) (by rw [hlen, v.keySize_add_words])
  rw [hlen, rciAt_keySize] at hloop
  simp only [expandFn, h, hloop, expansion]

/-- Settles O24: every word of the expansion is the one that `scheduleStep` appends to the sequence before it. -/
theorem scheduleRecurrence : Obligations.ScheduleRecurrence := by
  intro key v hv
  have hlen := keySize_of_variantOf _ _ hv
  have hxlen := expansion_length v key hlen
  have hwords := v.keySize_add_words
  have hk := v.keySize_ge
  have hk4 : v.keySize % 4 = 0 := by cases v <;> decide
  refine ⟨expansion v key, expandFn_eq v key hv, hxlen, ?_, fun off hlo hhi h4 => ?_⟩
  · rw [← hlen]
    exact (List.prefix_iff_eq_take.mp (scheduleSteps_prefix v key 0 v.words (by omega))).symm
  · obtain ⟨m, hm⟩ : ∃ m, m = (off - v.keySize) / 4 := ⟨_, rfl⟩
    have hylen : ((scheduleStep v)^[m] key).length = off := by rw [scheduleSteps_length]; omega
    have hbefore := scheduleSteps_prefix v key m v.words (by omega)
    have hafter := scheduleSteps_prefix v key (m + 1) v.words (by omega)
    rw [Function.iterate_succ_apply'] at hafter
    refine ⟨div_keySize_le v off hhi, _, _, _, sliceOf_word _ _ (by omega), sliceOf_word _ _ (by omega),
      sliceOf_word _ _ (by omega), ?_⟩
    generalize (scheduleStep v)^[m] key = y at *
    subst hylen
    simp only [expansion]
    rw [wordAt_of_prefix y _ (y.length - 4) hbefore (by omega),
      wordAt_of_prefix y _ (y.length - v.keySize) hbefore (by omega),
      wordAt_of_prefix (scheduleStep v y) _ y.length hafter (by rw [scheduleStep_length]), scheduleStep, wordAt_append]

/-! ### The micro-op `expand` -/

/-- The word loop has built the sequence `x` in `XK`, and the counters and the working word stand where `x` ends. -/
structure Expanded (v : Variant) (x : List Byte) (s : State) : Prop where
  off : s.off = Slot.hold x.length
  rci : s.rci = Slot.hold (rciAt v x.length)
  xk : ∀ a, a < x.length → s.location .xk a = x[a]?
  t : v.keySize < x.length → s.t = Slot.hold (scheduleWord v.keySize (x.length - 4) (wordAt x (x.length - 8)))

/-- A word of the sequence read from the store. -/
theorem Expanded.memRead_word {v : Variant} {x : List Byte} {s : State} (hs : Expanded v x s) (a : Nat)
    (h : a + 4 ≤ x.length) (hx : x.length ≤ 240) : s.memRead .xk a 4 = .ok (wordAt x a) := by
  refine (State.memRead_ok_iff _ _ _ _ _).mpr ⟨by simp only [Space.size]; omega, fun k hk => ?_⟩
  have hak : a + k < x.length := by omega
  rw [hs.xk _ hak]
  simp [wordAt, hak]

/-- One iteration appends the next word of the schedule. -/
theorem expandWord_expanded (v : Variant) (x : List Byte) (s : State) (hs : Expanded v x s) (h : InSchedule v x.length) :
    ∃ s', expandWord v.keySize s = .ok s' ∧ Expanded v (scheduleStep v x) s' := by
  have hk := v.keySize_ge
  have hxk := v.xklen_le
  have hmod := v.xklen_mod
  obtain ⟨hlo, hhi, h4⟩ := h
  have hoff : s.off.get .undefCounter = .ok x.length := (Slot.get_ok_iff _ _ _).mpr (by simp [hs.off, Slot.hold])
  have hrci : s.rci.get .undefCounter = .ok (rciAt v x.length) :=
    (Slot.get_ok_iff _ _ _).mpr (by simp [hs.rci, Slot.hold])
  obtain ⟨w, hw⟩ : ∃ w, w = xorBytes (scheduleWord v.keySize x.length (wordAt x (x.length - 4)))
    (wordAt x (x.length - v.keySize)) := ⟨_, rfl⟩
  have hwrite : s.memWrite .xk x.length w = .ok (s.store .xk x.length w) :=
    (State.memWrite_ok_iff _ _ _ _ _).mpr ⟨rfl, by simp only [Space.size]; omega, rfl⟩
  have hstep : scheduleStep v x = x ++ w.toList := by rw [scheduleStep, hw]
  refine ⟨_, by simp only [expandWord, hoff, hrci, hs.memRead_word (x.length - 4) (by omega) (by omega),
    scheduleCase_eq v _ _ ⟨hlo, hhi, h4⟩, hs.memRead_word (x.length - v.keySize) (by omega) (by omega), ← hw, hwrite,
    bind, Except.bind]; rfl, ?_, ?_, fun a ha => ?_, fun _ => ?_⟩
  · rw [scheduleStep_length]
  · rw [scheduleStep_length]
  · have hloc := s.location_store .xk x.length w .xk a rfl (by simp only [Space.size]; omega)
    rw [scheduleStep_length] at ha
    rw [hstep, List.getElem?_append]
    refine hloc.trans ?_
    by_cases hax : a < x.length
    · rw [if_neg (by omega), if_pos hax, hs.xk a hax]
    · rw [if_pos ⟨rfl, by omega, by omega⟩, if_neg hax]
      simp
  · have hpre : wordAt (scheduleStep v x) (x.length + 4 - 8) = wordAt x (x.length - 4) :=
      (wordAt_of_prefix x _ _ (prefix_scheduleStep v x) (by omega)).trans (by congr 1)
    rw [scheduleStep_length, hpre]
    rfl

/-- The word loop appends the words that are missing. -/
theorem expandLoop_expanded (v : Variant) (n : Nat) (x : List Byte) (s : State) (hs : Expanded v x s)
    (hlo : v.keySize ≤ x.length) (hlen : x.length + 4 * n = v.xklen) :
    ∃ t, expandLoop v.keySize v.xklen n s = .ok t ∧ Expanded v ((scheduleStep v)^[n] x) t := by
  induction n generalizing x s with
  | zero => exact ⟨s, rfl, hs⟩
  | succ n ih =>
    have hin := inSchedule_of_missing v x.length n hlo hlen
    have hoff : s.off.get .undefCounter = .ok x.length := (Slot.get_ok_iff _ _ _).mpr (by simp [hs.off, Slot.hold])
    obtain ⟨s', hword, hs'⟩ := expandWord_expanded v x s hs hin
    obtain ⟨t, hloop, ht⟩ := ih (scheduleStep v x) s' hs' (by rw [scheduleStep_length]; omega)
      (by rw [scheduleStep_length]; omega)
    exact ⟨t, by simp only [expandLoop, hoff, hin.2.1, if_true, hword, bind, Except.bind, hloop], ht⟩

/-- `expand` answers for every key that holds values, and leaves its expansion (R100). -/
theorem exec_expand_expanded (s : State) (v : Variant) (key : Vector Byte v.keySize) (hr : s.Running v)
    (hkey : s.memRead .keyreg 0 v.keySize = .ok key) :
    ∃ t, exec .expand s = .next t ∧ Expanded v (expansion v key.toList) t := by
  have hk := v.keySize_le
  have hcopy := (keyCopy_ok_iff v.keySize s _ (by omega)).mpr ⟨key, hkey, rfl⟩
  have hstart : Expanded v key.toList
      { s.store .xk 0 key with off := Slot.hold v.keySize, rci := Slot.hold 1 } := by
    refine ⟨by simp, by simp [rciAt_keySize], fun a ha => ?_, fun h => absurd h (by simp)⟩
    have hloc := s.location_store .xk 0 key .xk a rfl (by simp only [Space.size]; omega)
    refine hloc.trans ?_
    rw [if_pos ⟨rfl, by omega, by simpa using ha⟩]
    simp
  obtain ⟨s₂, hloop, hs₂⟩ := expandLoop_expanded v v.words _ _ hstart (by simp) (by simp [v.keySize_add_words])
  refine ⟨_, uop_of_ok s s₂ _ hr.1 ?_, hs₂.off, hs₂.rci, hs₂.xk, hs₂.t⟩
  simp only [currentVariant, hr.2, hcopy, hloop, bind, Except.bind]

/-- When `expand` answers in a command of variant `v`, the key holds values, and its expansion is left. -/
theorem expanded_of_exec_expand (s t : State) (v : Variant) (hr : s.Running v) (h : exec .expand s = .next t) :
    ∃ key : Vector Byte v.keySize, s.memRead .keyreg 0 v.keySize = .ok key ∧ Expanded v (expansion v key.toList) t := by
  obtain ⟨v', s₁, s₂, hr', hcopy, -, -⟩ := exec_expand_next s t h
  obtain rfl : v' = v := Option.some.inj (hr'.2.symm.trans hr.2)
  obtain ⟨key, hkey, -⟩ := (keyCopy_ok_iff _ _ _ (by have := v'.keySize_le; omega)).mp hcopy
  obtain ⟨t', ht', hexp⟩ := exec_expand_expanded s v' key hr hkey
  obtain rfl : t' = t := by simpa [h, eq_comm] using ht'
  exact ⟨key, hkey, hexp⟩

/-- Settles O25: both commands leave the expansion of the same key. -/
theorem expandReadsOnlyTheKey : Obligations.ExpandReadsOnlyTheKey := by
  intro s₁ s₂ t₁ v hr₁ hr₂ hloc h₁
  obtain ⟨key, hkey₁, ht₁⟩ := expanded_of_exec_expand s₁ t₁ v hr₁ h₁
  obtain ⟨hsize, hread⟩ := (State.memRead_ok_iff _ _ _ _ _).mp hkey₁
  have hkey₂ : s₂.memRead .keyreg 0 v.keySize = .ok key :=
    (State.memRead_ok_iff _ _ _ _ _).mpr ⟨hsize, fun k hk => by rw [← hread k hk, hloc _ (by omega)]⟩
  obtain ⟨t₂, h₂, ht₂⟩ := exec_expand_expanded s₂ v key hr₂ hkey₂
  have hlen : (expansion v key.toList).length = v.xklen := expansion_length v _ (by simp)
  have hlt := v.keySize_lt_xklen
  exact ⟨t₂, h₂, fun a ha => by rw [ht₁.xk a (by omega), ht₂.xk a (by omega)], by rw [ht₁.t (by omega), ht₂.t (by omega)],
    by rw [ht₁.off, ht₂.off], by rw [ht₁.rci, ht₂.rci]⟩

end Sys2Proof.Machine
end

section
/-! PROOF. The invariant (R20, R27, R29, R42) at reset and under every step (O48, O47). -/

namespace Sys2Proof.Machine

open Sys2Proof

/-- Settles O48: nothing runs at reset, and the model's `OFF` and `RCI` there are in range (log 4). -/
theorem invariantAtReset : Obligations.InvariantAtReset :=
  ⟨by unfold FlagsOk; decide, fun h => absurd h (by decide), by unfold CountersOk; decide, State.reset_xk_wf⟩

/-- The invariant speaks of six registers. -/
theorem State.Inv.congr {s t : State} (h : s.Inv) (hstatus : t.status = s.status) (hcmd : t.cmdreg = s.cmdreg)
    (hupc : t.upc = s.upc) (hoff : t.off = s.off) (hrci : t.rci = s.rci) (hxk : t.xk = s.xk) : t.Inv := by
  simpa only [State.Inv, CommandOk, CountersOk, hstatus, hcmd, hupc, hoff, hrci, hxk] using h

theorem State.Inv.advance {s : State} (h : s.Inv) : s.advance.Inv := by
  apply h.congr <;> simp

theorem State.Inv.takeUop {s : State} (h : s.Inv) : s.takeUop.Inv := by
  apply h.congr <;> simp

theorem State.resetStep_inv (s : State) : s.resetStep.Inv := by
  apply State.Inv.congr (s := State.reset) invariantAtReset <;> simp

/-- A running command, from the invariant. -/
theorem State.Inv.running {s : State} (h : s.Inv) (hb : s.status.busy = true) :
    ∃ v, s.Running v ∧ s.upc ≤ 4 * v.nr + 3 := by
  obtain ⟨-, hcommand, -, -⟩ := h
  obtain ⟨hk, v, hv, hu⟩ := hcommand hb
  exact ⟨v, ⟨⟨hb, hk⟩, hv⟩, hu⟩

/-- A start step while idle, accepted or rejected, keeps the invariant (R167, R168). -/
theorem State.Inv.startStep {s : State} (h : s.Inv) (hb : s.status.busy = false) (w : Byte) : (s.startStep w).Inv := by
  obtain ⟨-, -, hcounters, hwf⟩ := h
  unfold State.startStep
  rw [if_neg (by simp [hb])]
  cases hv : commandVariant w with
  | some v =>
    refine ⟨by simp [FlagsOk, Status.accepted], fun _ => ⟨by simp [Slot.hold], v, by simp [Slot.hold, hv], by simp⟩, ?_, ?_⟩
    · simpa [CountersOk] using hcounters
    · simpa using hwf
  | none =>
    refine ⟨by simp [FlagsOk, Status.rejected, Fault.code, hb], fun hbusy => ?_, ?_, ?_⟩
    · simp [Status.rejected, hb] at hbusy
    · simpa [CountersOk] using hcounters
    · simpa using hwf

/-- The completion step keeps the invariant: `ERR` was 0 while busy (R42), and the free values are in range (log 6). -/
theorem State.Inv.complete {s : State} (h : s.Inv) (hb : s.status.busy = true) : s.complete.Inv := by
  obtain ⟨⟨-, -, herr⟩, -, -, -⟩ := h
  have herr0 : s.status.err = 0 := by
    by_contra hne
    simp [hb] at herr
    exact hne herr
  have hoff := (Config.discardedOFF s.tick).isLt
  have hrci := (Config.discardedRCIPred s.tick).isLt
  refine ⟨by simp [FlagsOk, Status.completed, herr0], fun hbusy => ?_, ?_, ?_⟩
  · simp [Status.completed] at hbusy
  · simp only [CountersOk, State.complete_off, State.complete_rci, Slot.undef]
    omega
  · simp [Memory.wf, Memory.risingFrom]

theorem expandWord_wf (k : Nat) (s t : State) (h : expandWord k s = .ok t) (w : Memory.wf s.xk = true) :
    Memory.wf t.xk = true := by
  simp only [expandWord, except_bind_ok_iff] at h
  obtain ⟨off, -, rci, -, prev, -, ⟨t', rci'⟩, -, earlier, -, u, hu, hu'⟩ := h
  cases hu'
  exact State.memWrite_wf s u _ _ _ hu w

theorem expandLoop_wf (k xklen n : Nat) (s t : State) (h : expandLoop k xklen n s = .ok t) (w : Memory.wf s.xk = true) :
    Memory.wf t.xk = true := by
  induction n generalizing s with
  | zero => cases h; exact w
  | succ n ih =>
    obtain ⟨off, -, h⟩ := (except_bind_ok_iff _ _ _).mp h
    split at h
    · obtain ⟨u, hu, h⟩ := (except_bind_ok_iff _ _ _).mp h
      exact ih u h (expandWord_wf k s u hu w)
    · cases h; exact w

/-- `expand` keeps the canonical form of the store (log 5). -/
theorem exec_expand_wf (s t : State) (h : exec .expand s = .next t) (w : Memory.wf s.xk = true) : Memory.wf t.xk = true := by
  obtain ⟨v, s₁, s₂, -, hcopy, hloop, rfl⟩ := exec_expand_next s t h
  simp only [keyCopy, except_bind_ok_iff] at hcopy
  obtain ⟨key, -, u, hu, hu'⟩ := hcopy
  cases hu'
  exact expandLoop_wf _ _ _ _ s₂ hloop (State.memWrite_wf s u _ _ _ hu w)

/-- `expand` leaves `OFF` and `RCI` in the ranges of R20. -/
theorem exec_expand_counters (s t : State) (v : Variant) (hr : s.Running v) (h : exec .expand s = .next t) :
    CountersOk t := by
  obtain ⟨key, -, hexp⟩ := expanded_of_exec_expand s t v hr h
  have hlen : (expansion v key.toList).length = v.xklen := expansion_length v _ (by simp)
  rw [CountersOk, hexp.off, hexp.rci, hlen]
  cases v <;> decide

/-- A micro-op of a running command that has not reached the end of its micro-program keeps the invariant. -/
theorem exec_inv (i : Instr) (s t : State) (v : Variant) (hM : i.format = .M) (h : s.Inv) (hr : s.Running v)
    (hu : s.upc < 4 * v.nr + 3) (hx : exec i s = .next t) : t.Inv := by
  obtain ⟨hflags, -, hcounters, hwf⟩ := h
  obtain ⟨hstatus, hcmd, -, -, hupc, -, -, -, -, hkept, -, -⟩ := writeTable i s t hM hx
  have hcommand : CommandOk t := fun _ => ⟨hcmd ▸ hr.1.2, v, hcmd ▸ hr.2, by omega⟩
  by_cases he : i = .expand
  · subst he
    exact ⟨hstatus ▸ hflags, hcommand, exec_expand_counters s t v hr hx, exec_expand_wf s t hx hwf⟩
  · obtain ⟨hxk, -, hoff, hrci⟩ := hkept he
    exact ⟨hstatus ▸ hflags, hcommand, by rw [CountersOk, hoff, hrci]; exact hcounters, hxk ▸ hwf⟩

/-- A command word's meaning is its start step (R165, R166). -/
theorem exec_decodeH (w : Byte) (s : State) : ∃ w', exec (decodeH w) s = .next (s.startStep w') := by
  unfold decodeH
  split
  · exact ⟨_, rfl⟩
  · exact ⟨_, rfl⟩

/-- Settles O47, by the cases of a step. -/
theorem invariantKept : Obligations.InvariantKept := by
  intro s t h hstep
  rcases step_next_cases s t hstep with ⟨-, rfl⟩ | ⟨-, -, -, rfl⟩ | ⟨-, hb, -, u, hu, rfl⟩ | ⟨-, hb, -, rfl⟩ |
    ⟨-, hb, w, i, u, hf, hd, hu, rfl⟩
  · exact s.resetStep_inv.advance
  · exact h.advance
  · obtain ⟨w, hw⟩ := exec_decodeH s.ports.cmd s
    obtain rfl : s.startStep w = u := by simpa [hw] using hu
    exact (h.startStep hb w).advance
  · exact (h.complete hb).advance
  · obtain ⟨v, hr, -⟩ := h.running hb
    exact (exec_inv i s.takeUop u v (decodeM_format w i hd) h.takeUop hr (s.upc_lt_of_fetch v w hr hf) hu).advance

end Sys2Proof.Machine
end

section
/-! PROOF. No refusal is reachable through the ports (R155, R201, R221): each micro-op answers where the registers it reads hold
values, and each index of a command leaves the values that R155 says are there at the next (O49). -/

namespace Sys2Proof.Machine

open Sys2Proof

/-! ### Micro-ops that find their values answer -/

/-- What was stored holds values. -/
theorem State.holds_store (s : State) (sp : Space) (addr : Nat) {n : Nat} (v : Vector Byte n) (hw : sp.isRom = false)
    (hr : addr + n ≤ sp.size) : (s.store sp addr v).Holds sp addr n := by
  intro k hk
  rw [s.location_store sp addr v sp (addr + k) hw hr, if_pos ⟨rfl, by omega, by omega⟩]
  simp [hk]

/-- A whole-block assignment of `ST` answers where `ST` holds values, and leaves values. -/
theorem State.mapST_isOk (s : State) (f : Block → Block) (h : s.Holds .st 0 16) :
    ∃ t, s.mapST (fun b => .ok (f b)) = .ok t ∧ t.Holds .st 0 16 := by
  obtain ⟨b, hb⟩ := s.memRead_isOk .st 0 16 (by decide) h
  exact ⟨_, (State.mapST_ok_iff _ _ _).mpr ⟨b, f b, hb, rfl, rfl⟩, s.holds_store .st 0 (f b) rfl (by decide)⟩

/-- A micro-op that is one whole-block assignment answers where `ST` holds values. -/
theorem uop_mapST_isNext (s : State) (f : Block → Block) (hc : s.InCommand) (h : s.Holds .st 0 16) :
    ∃ t, uop s (fun _ => s.mapST fun b => .ok (f b)) = .next t ∧ t.Holds .st 0 16 := by
  obtain ⟨t, ht, hst⟩ := s.mapST_isOk f h
  exact ⟨_, uop_of_ok s t _ hc ht, hst⟩

theorem legalRoundKeyArg_of_le (v : Variant) (r : BitVec 4) (h : r.toNat ≤ v.nr) : legalRoundKeyArg r = true := by
  have hle := v.nr_le
  exact decide_eq_true (by omega)

theorem exec_addRoundKey_isNext (s : State) (v : Variant) (r : BitVec 4) (hrun : s.Running v) (hr : r.toNat ≤ v.nr)
    (hxk : s.Holds .xk 0 v.xklen) (hst : s.Holds .st 0 16) :
    ∃ t, exec (.addRoundKey r) s = .next t ∧ t.Holds .st 0 16 := by
  have hle := v.xklen_le
  have hin : 16 * r.toNat + 16 ≤ v.xklen := by unfold Variant.xklen; omega
  obtain ⟨k, hk⟩ := s.memRead_isOk .xk (16 * r.toNat) 16 (by simp only [Space.size]; omega) fun j hj => by
    simpa using hxk (16 * r.toNat + j) (by omega)
  obtain ⟨t, ht, hst'⟩ := s.mapST_isOk (fun b => addRoundKeyFn b k) hst
  refine ⟨_, uop_of_ok s t _ hrun.1 ?_, hst'⟩
  simp only [legalRoundKeyArg_of_le v r hr, if_true, currentVariant, hrun.2, hr, State.roundKey, hk, ht, bind, Except.bind]

theorem exec_loadState_isNext (s : State) (hc : s.InCommand) (h : s.Holds .dinreg 0 16) :
    ∃ t, exec .loadState s = .next t ∧ t.Holds .st 0 16 := by
  obtain ⟨b, hb⟩ := s.memRead_isOk .dinreg 0 16 (by decide) h
  have hw : s.memWrite .st 0 b = .ok (s.store .st 0 b) := (State.memWrite_ok_iff _ _ _ _ _).mpr ⟨rfl, by decide, rfl⟩
  exact ⟨_, uop_of_ok s _ _ hc ((except_bind_ok_iff _ _ _).mpr ⟨b, hb, hw⟩), s.holds_store .st 0 b rfl (by decide)⟩

theorem exec_storeOut_isNext (s : State) (hc : s.InCommand) (h : s.Holds .st 0 16) :
    ∃ t, exec .storeOut s = .next t ∧ t.Holds .dout 0 16 := by
  obtain ⟨b, hb⟩ := s.memRead_isOk .st 0 16 (by decide) h
  have hw : s.memWrite .dout 0 b = .ok (s.store .dout 0 b) :=
    (State.memWrite_ok_iff _ _ _ _ _).mpr ⟨rfl, by decide, rfl⟩
  exact ⟨_, uop_of_ok s _ _ hc ((except_bind_ok_iff _ _ _).mpr ⟨b, hb, hw⟩), s.holds_store .dout 0 b rfl (by decide)⟩

theorem exec_expand_isNext (s : State) (v : Variant) (hr : s.Running v) (h : s.Holds .keyreg 0 32) :
    ∃ t, exec .expand s = .next t ∧ t.Holds .xk 0 v.xklen := by
  have hk := v.keySize_le
  obtain ⟨key, hkey⟩ := s.memRead_isOk .keyreg 0 v.keySize (by simp only [Space.size]; omega)
    fun k hk' => h k (by omega)
  obtain ⟨t, ht, hexp⟩ := exec_expand_expanded s v key hr hkey
  have hlen : (expansion v key.toList).length = v.xklen := expansion_length v _ (by simp)
  refine ⟨t, ht, fun k hk' => ?_⟩
  rw [hexp.xk _ (by omega)]
  simp [hlen, hk']

/-! ### The indices of the micro-program -/

/-- The micro-ops between `loadState` and `storeOut` (R147). -/
inductive IsRoundUop (nr : Nat) : Instr → Prop
  | transform {i : Instr} (h : i ∈ [Instr.subBytes, .invSubBytes, .shiftRows, .invShiftRows, .mixColumns, .invMixColumns]) :
      IsRoundUop nr i
  | addRoundKey {r : BitVec 4} (h : r.toNat ≤ nr) : IsRoundUop nr (.addRoundKey r)

theorem exec_isNext_of_isRoundUop (s : State) (v : Variant) (i : Instr) (hi : IsRoundUop v.nr i) (hr : s.Running v)
    (hxk : s.Holds .xk 0 v.xklen) (hst : s.Holds .st 0 16) : ∃ t, exec i s = .next t ∧ t.Holds .st 0 16 := by
  cases hi with
  | transform h =>
    simp only [List.mem_cons, List.not_mem_nil, or_false] at h
    rcases h with rfl | rfl | rfl | rfl | rfl | rfl
    · exact uop_mapST_isNext s subBytesFn hr.1 hst
    · exact uop_mapST_isNext s invSubBytesFn hr.1 hst
    · exact uop_mapST_isNext s shiftRowsFn hr.1 hst
    · exact uop_mapST_isNext s invShiftRowsFn hr.1 hst
    · exact uop_mapST_isNext s mixColumnsFn hr.1 hst
    · exact uop_mapST_isNext s invMixColumnsFn hr.1 hst
  | addRoundKey h => exact exec_addRoundKey_isNext s v _ hr h hxk hst

/-- The round-key operands of a micro-program fit their field. -/
theorem isRoundUop_addRoundKey (v : Variant) (r : Nat) (h : r ≤ v.nr) :
    IsRoundUop v.nr (.addRoundKey (BitVec.ofNat 4 r)) := by
  have hle := v.nr_le
  refine .addRoundKey ?_
  rw [BitVec.toNat_ofNat, Nat.mod_eq_of_lt (by omega)]
  exact h

/-- Between `loadState` and `storeOut` the table has round micro-ops. -/
theorem uprogTable_round (dir : Bool) (v : Variant) (u : Nat) (i : Instr) (h2 : 2 ≤ u) (hu : u < 4 * v.nr + 2)
    (h : uprogTable dir v.nr u = some i) : IsRoundUop v.nr i := by
  have pick : ∀ a b, IsRoundUop v.nr a → IsRoundUop v.nr b → IsRoundUop v.nr (if dir then a else b) := by
    intro a b ha hb
    split
    · exact ha
    · exact hb
  unfold uprogTable at h
  rw [if_neg (by omega), if_neg (by omega)] at h
  split at h
  · cases h
    exact isRoundUop_addRoundKey v _ (by split <;> omega)
  · split at h
    · dsimp only at h
      split at h <;> cases h
      · exact pick _ _ (.transform (by simp)) (.transform (by simp))
      · exact pick _ _ (.transform (by simp)) (.transform (by simp))
      · exact pick _ _ (isRoundUop_addRoundKey v _ (by omega)) (.transform (by simp))
      · exact pick _ _ (.transform (by simp)) (isRoundUop_addRoundKey v _ (by omega))
    · split at h
      · cases h
        exact pick _ _ (.transform (by simp)) (.transform (by simp))
      · split at h
        · cases h
          exact pick _ _ (.transform (by simp)) (.transform (by simp))
        · rw [if_pos (by omega)] at h
          cases h
          exact isRoundUop_addRoundKey v _ (by split <;> omega)

theorem uprogTable_last (dir : Bool) (v : Variant) : uprogTable dir v.nr (4 * v.nr + 2) = some .storeOut := by
  cases dir <;> cases v <;> rfl

/-- The values that R155 says a running command of variant `v` has at `UPC = u`. -/
structure CommandValues (v : Variant) (u : Nat) (s : State) : Prop where
  keyreg : s.Holds .keyreg 0 32
  dinreg : s.Holds .dinreg 0 16
  xk : 1 ≤ u → s.Holds .xk 0 v.xklen
  st : 2 ≤ u → s.Holds .st 0 16
  dout : 4 * v.nr + 3 ≤ u → s.Holds .dout 0 16

theorem State.ValuesOk.commandValues {s : State} {v : Variant} (h : s.ValuesOk) (hr : s.Running v) :
    CommandValues v s.upc s := by
  obtain ⟨-, hbusy, -⟩ := h
  obtain ⟨hkey, hdin, hxk, hst, hdout⟩ := hbusy hr.1.1
  exact ⟨hkey, hdin, fun h1 => hxk h1 v hr.2, hst, hdout v hr.2⟩

theorem CommandValues.valuesOk {s : State} {v : Variant} (h : CommandValues v s.upc s) (hr : s.Running v)
    (huop : s.uopIn = []) (hdone : s.status.done = false) : s.ValuesOk := by
  have hv : ∀ v', commandVariant s.cmdreg.val = some v' → v' = v := fun v' h' => Option.some.inj (h'.symm.trans hr.2)
  refine ⟨huop, fun _ => ⟨h.keyreg, h.dinreg, fun h1 v' h' => ?_, h.st, fun v' h' => ?_⟩, fun hd => ?_⟩
  · rw [hv v' h']; exact h.xk h1
  · rw [hv v' h']; exact h.dout
  · rw [hdone] at hd; cases hd

/-- A location read from an unchanged register is as before. -/
theorem State.Holds.congr {s t : State} {sp : Space} {addr n : Nat} (h : s.Holds sp addr n)
    (hl : ∀ a, t.location sp a = s.location sp a) : t.Holds sp addr n := fun k hk => by
  rw [hl]; exact h k hk

/-- Every micro-op but `expand` keeps the values of `XK` (R34). -/
theorem State.Holds.xk_of_exec {s t : State} {i : Instr} {n : Nat} (h : s.Holds .xk 0 n) (hM : i.format = .M)
    (he : i ≠ .expand) (hx : exec i s = .next t) : t.Holds .xk 0 n := by
  obtain ⟨-, -, -, -, -, -, -, -, -, hkept, -, -⟩ := writeTable i s t hM hx
  exact h.congr fun a => by simp only [State.location, (hkept he).1]

/-- Every micro-op keeps `KEYREG` and `DINREG` (R34); the values of the next index are then those of `XK`, `ST` and `DOUT`. -/
theorem CommandValues.of_exec {s t : State} {v : Variant} {i : Instr} (h : CommandValues v s.upc s) (hM : i.format = .M)
    (hx : exec i s = .next t) (hxk : t.Holds .xk 0 v.xklen) (hst : 1 ≤ s.upc → t.Holds .st 0 16)
    (hdout : 4 * v.nr + 2 ≤ s.upc → t.Holds .dout 0 16) : CommandValues v t.upc t := by
  obtain ⟨-, -, hkey, hdin, hupc, -⟩ := writeTable i s t hM hx
  exact ⟨h.keyreg.congr fun a => by simp only [State.location, hkey],
    h.dinreg.congr fun a => by simp only [State.location, hdin],
    fun _ => hxk, fun h2 => hst (by omega), fun h4 => hdout (by omega)⟩

/-- The wired micro-op of a running command answers, and leaves the values of the next index. -/
theorem exec_wired_isNext (s : State) (v : Variant) (i : Instr) (hr : s.Running v) (h : CommandValues v s.upc s)
    (hi : uprogTable (dirField s.cmdreg.val) v.nr s.upc = some i) :
    ∃ t, exec i s = .next t ∧ CommandValues v t.upc t := by
  have hM : i.format = .M :=
    decodeM_format _ _ (decodeM_encode_of_mem_uprog _ v i (List.mem_of_getElem? ((uprog_getElem? _ _ _).trans hi)))
  have hu : s.upc < 4 * v.nr + 3 := by
    by_contra hge
    rw [uprogTable_eq_none _ _ _ (by omega)] at hi
    cases hi
  have hnr : 10 ≤ v.nr := by cases v <;> decide
  by_cases h0 : s.upc = 0
  · rw [h0] at hi
    obtain rfl : Instr.expand = i := Option.some.inj hi
    obtain ⟨t, ht, hxk⟩ := exec_expand_isNext s v hr h.keyreg
    exact ⟨t, ht, h.of_exec hM ht hxk (by omega) (by omega)⟩
  by_cases h1 : s.upc = 1
  · rw [h1] at hi
    obtain rfl : Instr.loadState = i := Option.some.inj hi
    obtain ⟨t, ht, hst⟩ := exec_loadState_isNext s hr.1 h.dinreg
    exact ⟨t, ht, h.of_exec hM ht ((h.xk (by omega)).xk_of_exec hM (by simp) ht) (fun _ => hst) (by omega)⟩
  by_cases hlast : s.upc = 4 * v.nr + 2
  · rw [hlast, uprogTable_last] at hi
    obtain rfl : Instr.storeOut = i := Option.some.inj hi
    obtain ⟨t, ht, hdout⟩ := exec_storeOut_isNext s hr.1 (h.st (by omega))
    have hst : t.st = s.st := by rw [exec_storeOut_frame s t ht]
    exact ⟨t, ht, h.of_exec hM ht ((h.xk (by omega)).xk_of_exec hM (by simp) ht)
      (fun _ => (h.st (by omega)).congr fun a => by simp only [State.location, hst]) (fun _ => hdout)⟩
  · have hround := uprogTable_round _ v s.upc i (by omega) (by omega) hi
    have he : i ≠ .expand := by
      rintro rfl
      cases hround with
      | transform h => simp at h
    obtain ⟨t, ht, hst⟩ := exec_isNext_of_isRoundUop s v i hround hr (h.xk (by omega)) (h.st (by omega))
    exact ⟨t, ht, h.of_exec hM ht ((h.xk (by omega)).xk_of_exec hM he ht) (fun _ => hst) (by omega)⟩

/-! ### A step -/

/-- The values depend on `STATUS`, `CMDREG`, `UPC`, the entry point and the locations. -/
theorem State.ValuesOk.advance {s : State} (h : s.ValuesOk) : s.advance.ValuesOk := by
  have hloc : ∀ sp a, s.advance.location sp a = s.location sp a := fun sp a => by
    cases sp <;> simp [State.location]
  simpa [State.ValuesOk, State.Holds, hloc] using h

theorem State.resetStep_valuesOk (s : State) : s.resetStep.ValuesOk := by
  refine ⟨by simp [State.reset], fun hb => ?_, fun hd => ?_⟩
  · simp [State.reset] at hb
  · simp [State.reset] at hd

/-- A start step leaves values in `KEYREG` and `DINREG`, or `ERR = 1` (R167, R168). -/
theorem State.ValuesOk.startStep {s : State} (h : s.ValuesOk) (hb : s.status.busy = false) (w : Byte) :
    (s.startStep w).ValuesOk := by
  obtain ⟨huop, -, -⟩ := h
  unfold State.startStep
  rw [if_neg (by simp [hb])]
  cases hv : commandVariant w with
  | some v =>
    refine CommandValues.valuesOk (v := v) ?_ ⟨⟨by simp [Status.accepted], by simp [Slot.hold]⟩, by simp [Slot.hold, hv]⟩
      (by simpa using huop) (by simp [Status.accepted])
    have hk : (s.acceptStart w).Holds .keyreg 0 32 :=
      (s.holds_store .keyreg 0 (unpack 32 s.ports.keyIn) rfl (by decide)).congr fun a => by
        simp [State.location]
    have hd : (s.acceptStart w).Holds .dinreg 0 16 :=
      (s.holds_store .dinreg 0 (unpack 16 s.ports.din) rfl (by decide)).congr fun a => by
        simp [State.location]
    exact ⟨hk, hd, by simp, by simp, by simp⟩
  | none =>
    refine ⟨by simpa using huop, fun hbusy => ?_, fun _ herr => ?_⟩
    · simp [Status.rejected, hb] at hbusy
    · simp [Status.rejected, Fault.code] at herr

/-- The completion step keeps the values of `DOUT` (R64). -/
theorem State.complete_valuesOk (s : State) (huop : s.uopIn = []) (hdout : s.Holds .dout 0 16) : s.complete.ValuesOk := by
  refine ⟨by simpa using huop, fun hb => ?_, fun _ _ => hdout.congr fun a => by simp [State.location]⟩
  simp [Status.completed] at hb

/-- The step of a running command answers, and leaves the values of the next index. -/
theorem step_isNext_of_busy (s : State) (hrst : s.ports.rst = false) (hb : s.status.busy = true) (hinv : s.Inv)
    (hvals : s.ValuesOk) : ∃ t, step s = .next t ∧ t.ValuesOk := by
  obtain ⟨v, hr, hu⟩ := hinv.running hb
  obtain ⟨⟨hnot, -, -⟩, -, -, -⟩ := hinv
  have hdone : s.status.done = false := by simpa [hb] using hnot
  have huop : s.uopIn = [] := hvals.1
  have hcv := hvals.commandValues hr
  rcases Nat.lt_or_eq_of_le hu with hlt | heq
  · obtain ⟨i, hi⟩ : ∃ i, uprogTable (dirField s.cmdreg.val) v.nr s.upc = some i :=
      ⟨_, (uprog_getElem? _ v _).symm.trans (List.getElem?_eq_getElem (by rw [uprog_length]; exact hlt))⟩
    obtain ⟨hf, hd⟩ := fetchIsWired s v i hr huop hi
    obtain ⟨t, ht, hcv'⟩ := exec_wired_isNext s v i hr hcv hi
    obtain ⟨hstatus, hcmd, -, -, -, -, -, huop', -⟩ := writeTable i s t (decodeM_format _ _ hd) ht
    have hd : decodeM (encode i) = some i := hd
    refine ⟨t.advance, by simp only [step_of_busy s hrst hb, hf, hd, s.takeUop_of_empty huop, ht, advanced], ?_⟩
    have hr' : t.Running v := ⟨⟨hstatus ▸ hb, hcmd ▸ hr.1.2⟩, hcmd ▸ hr.2⟩
    exact (hcv'.valuesOk hr' (huop'.trans huop) (hstatus ▸ hdone)).advance
  · exact ⟨_, step_of_complete s v hrst hr heq, (s.complete_valuesOk huop (hcv.dout (by omega))).advance⟩

/-- Every step from the values of R155 answers and leaves them. -/
theorem step_isNext (s : State) (hinv : s.Inv) (hvals : s.ValuesOk) : ∃ t, step s = .next t ∧ t.ValuesOk := by
  cases hrst : s.ports.rst with
  | true => exact ⟨_, step_of_rst s hrst, s.resetStep_valuesOk.advance⟩
  | false =>
    cases hb : s.status.busy with
    | true => exact step_isNext_of_busy s hrst hb hinv hvals
    | false =>
      cases hs : s.ports.start with
      | false => exact ⟨_, step_of_idle s hrst hb hs, hvals.advance⟩
      | true =>
        obtain ⟨w, hw⟩ := exec_decodeH s.ports.cmd s
        exact ⟨_, by rw [step_of_start s hrst hb hs, hw]; rfl, (hvals.startStep hb w).advance⟩

/-- Settles O49: progress and the values by `step_isNext`, the invariant by O47. -/
theorem noRefusal : Obligations.NoRefusal := by
  intro s hinv hvals
  obtain ⟨t, ht, hvals'⟩ := step_isNext s hinv hvals
  exact ⟨t, ht, invariantKept s t hinv ht, hvals'⟩

end Sys2Proof.Machine
end

section
/-! PROOF. While a command runs the input ports have no effect (R32, R36): every operation behind a micro-op commutes with putting
other values on the ports (O53). -/

namespace Sys2Proof.Machine

open Sys2Proof

/-- The state with other values on its input ports. -/
def State.withPorts (s : State) (p : Ports) : State := { s with ports := p }

/-- The state with other values on its input ports, in an outcome. -/
def resultWithPorts (p : Ports) : Result → Result
  | .next t => .next (t.withPorts p)
  | .fault r => .fault r
  | .refused r => .refused r

/-- An operation answers the same whatever is on the ports, the ports themselves apart. -/
def PortBlind (op : State → Except Refusal State) : Prop :=
  ∀ s p, op (s.withPorts p) = (op s).map (·.withPorts p)

theorem State.memRead_withPorts (s : State) (p : Ports) (sp : Space) (addr n : Nat) :
    (s.withPorts p).memRead sp addr n = s.memRead sp addr n := by
  have hloc : ∀ a, (s.withPorts p).location sp a = s.location sp a := fun a => by cases sp <;> rfl
  simp only [State.memRead, State.firstUndef, hloc]

theorem portBlind_memWrite (sp : Space) (addr : Nat) {n : Nat} (v : Vector Byte n) :
    PortBlind fun s => s.memWrite sp addr v := by
  intro s p
  have hstore : (s.withPorts p).store sp addr v = (s.store sp addr v).withPorts p := by cases sp <;> rfl
  simp only [State.memWrite, hstore]
  split
  · rfl
  · split <;> rfl

/-- A read of the state that ignores the ports, followed by operations that do. -/
theorem portBlind_bind_read {α : Type} (read : State → Except Refusal α) (op : α → State → Except Refusal State)
    (hread : ∀ s p, read (s.withPorts p) = read s) (hop : ∀ a, PortBlind (op a)) :
    PortBlind fun s => read s >>= fun a => op a s := by
  intro s p
  simp only [hread]
  cases read s with
  | error r => rfl
  | ok a => exact hop a s p

/-- Two operations one after the other. -/
theorem portBlind_bind (op op' : State → Except Refusal State) (h : PortBlind op) (h' : PortBlind op') :
    PortBlind fun s => op s >>= op' := by
  intro s p
  simp only [h s p]
  cases op s with
  | error r => rfl
  | ok t => exact h' t p

theorem portBlind_error (r : Refusal) : PortBlind fun _ => .error r := fun _ _ => rfl

theorem portBlind_mapST (f : State → Block → Except Refusal Block) (hf : ∀ s p, f (s.withPorts p) = f s) :
    PortBlind fun s => s.mapST (f s) := by
  refine portBlind_bind_read (fun s => s.memRead .st 0 16) (fun b s => f s b >>= fun b' => s.memWrite .st 0 b')
    (fun s p => s.memRead_withPorts p _ _ _) fun b => ?_
  exact portBlind_bind_read (fun s => f s b) (fun b' s => s.memWrite .st 0 b') (fun s p => by rw [hf])
    fun b' => portBlind_memWrite .st 0 b'

theorem portBlind_writeRow (n : Nat) (w : Word4) : PortBlind fun s => s.writeRow n w :=
  portBlind_bind _ _ (portBlind_memWrite _ _ _) <| portBlind_bind _ _ (portBlind_memWrite _ _ _) <|
    portBlind_bind _ _ (portBlind_memWrite _ _ _) (portBlind_memWrite _ _ _)

theorem portBlind_mapRow (n : BitVec 4) (f : Nat → Word4 → Word4) : PortBlind fun s => s.mapRow n f := by
  unfold State.mapRow
  split
  · exact portBlind_bind_read (fun s => s.readRow n.toNat) (fun w s => s.writeRow n.toNat (f n.toNat w))
      (fun s p => by simp only [State.readRow, s.memRead_withPorts]) fun w => portBlind_writeRow _ _
  · exact portBlind_error _

theorem portBlind_expandWord (k : Nat) : PortBlind (expandWord k) := by
  refine portBlind_bind_read (fun s => s.off.get .undefCounter) _ (fun _ _ => rfl) fun off => ?_
  refine portBlind_bind_read (fun s => s.rci.get .undefCounter) _ (fun _ _ => rfl) fun rci => ?_
  refine portBlind_bind_read (fun s => s.memRead .xk (off - 4) 4) _ (fun s p => s.memRead_withPorts p _ _ _) fun prev => ?_
  refine portBlind_bind_read (fun _ => scheduleCase k off rci prev) _ (fun _ _ => rfl) fun c => ?_
  refine portBlind_bind_read (fun s => s.memRead .xk (off - k) 4) _ (fun s p => s.memRead_withPorts p _ _ _) fun e => ?_
  exact portBlind_bind _ _ (portBlind_memWrite _ _ _) fun _ _ => rfl

theorem portBlind_expandLoop (k xklen n : Nat) : PortBlind (expandLoop k xklen n) := by
  induction n with
  | zero => exact fun _ _ => rfl
  | succ n ih =>
    refine portBlind_bind_read (fun s => s.off.get .undefCounter) _ (fun _ _ => rfl) fun off => ?_
    split
    · exact portBlind_bind _ _ (portBlind_expandWord k) ih
    · exact fun _ _ => rfl

theorem portBlind_keyCopy (k : Nat) : PortBlind (keyCopy k) := by
  refine portBlind_bind_read (fun s => s.memRead .keyreg 0 k) _ (fun s p => s.memRead_withPorts p _ _ _) fun key => ?_
  exact portBlind_bind _ _ (portBlind_memWrite _ _ _) fun _ _ => rfl

theorem State.roundKey_withPorts (s : State) (p : Ports) : (s.withPorts p).roundKey = s.roundKey :=
  funext fun _ => s.memRead_withPorts p _ _ _

/-- A whole-block assignment by a sequence that reads round keys. -/
theorem portBlind_mapST_roundKey (routine : (Nat → Except Refusal Block) → Block → Except Refusal Block) :
    PortBlind fun s => s.mapST (routine s.roundKey) :=
  portBlind_mapST (fun s => routine s.roundKey) fun s p => by rw [s.roundKey_withPorts]

/-- A micro-op whose own effect ignores the ports ignores them. -/
theorem uop_withPorts (body : Byte → State → Except Refusal State) (h : ∀ c, PortBlind (body c)) (s : State) (p : Ports) :
    uop (s.withPorts p) (fun c => body c (s.withPorts p)) = resultWithPorts p (uop s fun c => body c s) := by
  have hstatus : (s.withPorts p).status = s.status := rfl
  have hcmd : (s.withPorts p).cmdreg = s.cmdreg := rfl
  unfold uop
  simp only [hstatus, hcmd]
  split
  · cases s.cmdreg.get .undefCommand with
    | error r => rfl
    | ok c =>
      simp only [h c s p]
      cases body c s <;> rfl
  · rfl

/-- A micro-op that is one whole-block assignment ignores the ports. -/
theorem uop_mapST_withPorts (f : Block → Block) (s : State) (p : Ports) :
    uop (s.withPorts p) (fun _ => (s.withPorts p).mapST fun b => .ok (f b)) =
      resultWithPorts p (uop s fun _ => s.mapST fun b => .ok (f b)) :=
  uop_withPorts (fun _ s => s.mapST fun b => .ok (f b)) (fun _ => portBlind_mapST (fun _ b => .ok (f b)) fun _ _ => rfl) s p

/-- A read of the command, followed by operations that ignore the ports. -/
theorem portBlind_bind_const {α : Type} (x : Except Refusal α) (op : α → State → Except Refusal State)
    (hop : ∀ a, PortBlind (op a)) : PortBlind fun s => x >>= fun a => op a s :=
  portBlind_bind_read (fun _ => x) op (fun _ _ => rfl) hop

/-- The own effect of `addRoundKey r`, as a function of the command word and the state. -/
def addRoundKeyEffect (r : BitVec 4) (c : Byte) (s : State) : Except Refusal State :=
  if legalRoundKeyArg r then
    currentVariant c >>= fun v =>
      if r.toNat ≤ v.nr then s.roundKey r.toNat >>= fun k => s.mapST fun b => .ok (addRoundKeyFn b k)
      else .error (.roundKeyAboveNr r.toNat)
  else .error .illegalOperand

theorem exec_addRoundKey_eq (r : BitVec 4) (s : State) :
    exec (.addRoundKey r) s = uop s fun c => addRoundKeyEffect r c s := rfl

theorem portBlind_addRoundKeyEffect (r : BitVec 4) (c : Byte) : PortBlind (addRoundKeyEffect r c) := by
  unfold addRoundKeyEffect
  split
  · refine portBlind_bind_const _ _ fun v => ?_
    split
    · refine portBlind_bind_read (fun s => s.roundKey r.toNat) _ (fun s p => by rw [s.roundKey_withPorts]) fun k => ?_
      exact portBlind_mapST _ fun _ _ => rfl
    · exact portBlind_error _
  · exact portBlind_error _

/-- Every micro-op ignores the ports (R36). -/
theorem exec_withPorts (i : Instr) (s : State) (p : Ports) (hM : i.format = .M) :
    exec i (s.withPorts p) = resultWithPorts p (exec i s) := by
  cases i with
  | subBytes | invSubBytes | shiftRows | invShiftRows | mixColumns | invMixColumns =>
    exact uop_mapST_withPorts _ s p
  | shiftRow n => exact uop_withPorts (fun _ s => s.mapRow n rotateRowLeft) (fun _ => portBlind_mapRow n _) s p
  | invShiftRow n => exact uop_withPorts (fun _ s => s.mapRow n rotateRowRight) (fun _ => portBlind_mapRow n _) s p
  | addRoundKey r =>
    rw [exec_addRoundKey_eq, exec_addRoundKey_eq]
    exact uop_withPorts (addRoundKeyEffect r) (portBlind_addRoundKeyEffect r) s p
  | encryptBlock nr =>
    exact uop_withPorts _ (fun c => portBlind_bind_const (roundCount c nr) _ fun n =>
      portBlind_mapST_roundKey fun key => encryptBlockWith key n) s p
  | decryptBlock nr =>
    exact uop_withPorts _ (fun c => portBlind_bind_const (roundCount c nr) _ fun n =>
      portBlind_mapST_roundKey fun key => decryptBlockWith key n) s p
  | expand =>
    exact uop_withPorts _ (fun c => portBlind_bind_const (currentVariant c) _ fun v =>
      portBlind_bind _ _ (portBlind_keyCopy v.keySize) (portBlind_expandLoop v.keySize v.xklen v.words)) s p
  | loadState =>
    exact uop_withPorts _ (fun _ => portBlind_bind_read (fun s => s.memRead .dinreg 0 16) _
      (fun s p => s.memRead_withPorts p _ _ _) fun b => portBlind_memWrite .st 0 b) s p
  | storeOut =>
    exact uop_withPorts _ (fun _ => portBlind_bind_read (fun s => s.memRead .st 0 16) _
      (fun s p => s.memRead_withPorts p _ _ _) fun b => portBlind_memWrite .dout 0 b) s p
  | encrypt _ | decrypt _ => cases hM

/-- Up to the ports the next edge finds the same state. -/
theorem State.advance_withPorts (s : State) (p : Ports) :
    { (s.withPorts p).advance with ports := s.advance.ports } = s.advance := by
  unfold State.advance
  cases h : s.host <;> simp [State.withPorts, h]

/-- A step of a running command has the same outcome up to the ports. -/
theorem step_withPorts (s : State) (p : Ports) (hb : s.status.busy = true) (hr : s.ports.rst = false) (hp : p.rst = false) :
    ∃ x, step s = advanced x ∧ step (s.withPorts p) = advanced (resultWithPorts p x) := by
  have hf : (s.withPorts p).fetch = s.fetch := rfl
  have htake : (s.withPorts p).takeUop = s.takeUop.withPorts p := rfl
  rw [step_of_busy s hr hb, step_of_busy (s.withPorts p) hp hb, hf, htake]
  cases s.fetch with
  | error r => exact ⟨.refused r, rfl, rfl⟩
  | ok x =>
    cases x with
    | none => exact ⟨.next s.complete, rfl, rfl⟩
    | some w =>
      cases hd : decodeM w with
      | none => exact ⟨.refused (.illegalUopWord w), by simp only [hd]; rfl, by simp only [hd]; rfl⟩
      | some i =>
        refine ⟨exec i s.takeUop, by simp only [hd], ?_⟩
        simp only [hd, exec_withPorts i s.takeUop p (decodeM_format w i hd)]

/-- Settles O53: the next state is the same up to its ports, and a refusal is the same. -/
theorem portsUnreadWhileBusy : Obligations.PortsUnreadWhileBusy := by
  intro s p hb hr hp
  obtain ⟨x, hx, hx'⟩ := step_withPorts s p hb hr hp
  have hs : step { s with ports := p } = advanced (resultWithPorts p x) := hx'
  rw [hx, hs]
  constructor
  · intro t ht
    obtain ⟨u, rfl, rfl⟩ := (advanced_next_iff _ _).mp ht
    exact ⟨_, rfl, u.advance_withPorts p⟩
  · intro r hr
    cases x with
    | refused r' => exact hr
    | next u => cases hr
    | fault r' => cases hr

end Sys2Proof.Machine
end

section
/-! PROOF. A read of a location without a value refuses the micro-op and names the location (R41, R61; O56); and what the output ports
show (R28, R29, R31; O60). -/

namespace Sys2Proof.Machine

open Sys2Proof

/-! ### Undefined reads -/

theorem uop_refused (s : State) (body : Byte → Except Refusal State) (r : Refusal) (hc : s.InCommand)
    (h : body s.cmdreg.val = .error r) : uop s body = .refused r := by
  obtain ⟨hb, hk⟩ := hc
  exact uop_of_error s body r hb hk h

/-- A whole-block assignment is refused at the first location of `ST` without a value. -/
theorem State.mapST_undef (s : State) (f : Block → Except Refusal Block) (a : Nat) (h : s.firstUndef .st 0 16 = some a) :
    s.mapST f = .error (.undefRead .st a) := by
  simp only [State.mapST, s.memRead_undef .st 0 16 a (by decide) h, bind, Except.bind]

/-- A whole-block assignment whose function is refused is refused with the same name. -/
theorem State.mapST_error (s : State) (f : Block → Except Refusal Block) (e : Refusal) (hst : s.firstUndef .st 0 16 = none)
    (hf : ∀ b, f b = .error e) : s.mapST f = .error e := by
  obtain ⟨b, hb⟩ := s.memRead_isOk .st 0 16 (by decide) ((s.firstUndef_none_iff .st 0 16).mp hst)
  simp only [State.mapST, hb, hf, bind, Except.bind]

theorem exec_wholeST_undef (i : Instr) (s : State) (a : Nat) (hc : s.InCommand) (h : s.firstUndef .st 0 16 = some a)
    (hi : i ∈ [Instr.subBytes, .invSubBytes, .shiftRows, .invShiftRows, .mixColumns, .invMixColumns, .storeOut]) :
    exec i s = .refused (.undefRead .st a) := by
  simp only [List.mem_cons, List.not_mem_nil, or_false] at hi
  rcases hi with rfl | rfl | rfl | rfl | rfl | rfl | rfl
  iterate 6 exact uop_refused s _ _ hc (s.mapST_undef _ a h)
  refine uop_refused s _ _ hc ?_
  simp only [s.memRead_undef .st 0 16 a (by decide) h, bind, Except.bind]

theorem State.mapRow_undef (s : State) (n : BitVec 4) (f : Nat → Word4 → Word4) (c : Nat) (hn : n.toNat ≤ 3) (hc : c < 4)
    (h : s.location .st (4 * c + n.toNat) = none) (hb : ∀ c', c' < c → s.location .st (4 * c' + n.toNat) ≠ none) :
    s.mapRow n f = .error (.undefRead .st (4 * c + n.toNat)) := by
  have hlegal : legalRowArg n = true := by simpa [legalRowArg] using hn
  simp only [State.mapRow, hlegal, if_true, s.readRow_undef n.toNat c hn hc h hb, bind, Except.bind]

theorem exec_loadState_undef (s : State) (a : Nat) (hc : s.InCommand) (h : s.firstUndef .dinreg 0 16 = some a) :
    exec .loadState s = .refused (.undefRead .dinreg a) := by
  refine uop_refused s _ _ hc ?_
  simp only [s.memRead_undef .dinreg 0 16 a (by decide) h, bind, Except.bind]

theorem exec_expand_undef (s : State) (v : Variant) (a : Nat) (hr : s.Running v)
    (h : s.firstUndef .keyreg 0 v.keySize = some a) : exec .expand s = .refused (.undefRead .keyreg a) := by
  have hk := v.keySize_le
  have hread := s.memRead_undef .keyreg 0 v.keySize a (by simp only [Space.size]; omega) h
  refine uop_refused s _ _ hr.1 ?_
  simp only [currentVariant, hr.2, keyCopy, hread, bind, Except.bind]

/-- Round keys up to `Nr` lie inside the store. -/
theorem roundKey_inRange (v : Variant) (r : Nat) (h : r ≤ v.nr) : 16 * r + 16 ≤ Space.xk.size := by
  have hle := v.nr_le
  simp only [Space.size]
  omega

/-- A round key is refused at its first location without a value, and there when all locations hold values. -/
theorem State.roundKey_undef (s : State) (v : Variant) (r a : Nat) (hr : r ≤ v.nr)
    (h : s.firstUndef .xk (16 * r) 16 = some a) : s.roundKey r = .error (.undefRead .xk a) :=
  s.memRead_undef .xk (16 * r) 16 a (roundKey_inRange v r hr) h

theorem State.roundKey_isOk (s : State) (v : Variant) (r : Nat) (hr : r ≤ v.nr)
    (h : s.firstUndef .xk (16 * r) 16 = none) : ∃ k, s.roundKey r = .ok k :=
  s.memRead_isOk .xk (16 * r) 16 (roundKey_inRange v r hr) ((s.firstUndef_none_iff _ _ _).mp h)

/-- `addRoundKey` reads its round key first, then `ST`. -/
theorem exec_addRoundKey_undef (s : State) (v : Variant) (r : BitVec 4) (a : Nat) (hrun : s.Running v) (hr : r.toNat ≤ v.nr) :
    (s.firstUndef .xk (16 * r.toNat) 16 = some a → exec (.addRoundKey r) s = .refused (.undefRead .xk a)) ∧
    (s.firstUndef .xk (16 * r.toNat) 16 = none → s.firstUndef .st 0 16 = some a →
      exec (.addRoundKey r) s = .refused (.undefRead .st a)) := by
  have hlegal := legalRoundKeyArg_of_le v r hr
  refine ⟨fun hx => uop_refused s _ _ hrun.1 ?_, fun hx hst => uop_refused s _ _ hrun.1 ?_⟩
  · simp only [hlegal, if_true, currentVariant, hrun.2, hr, s.roundKey_undef v _ a hr hx, bind, Except.bind]
  · obtain ⟨k, hk⟩ := s.roundKey_isOk v _ hr hx
    simp only [hlegal, if_true, currentVariant, hrun.2, hr, hk, s.mapST_undef _ a hst, bind, Except.bind]

theorem roundCount_running (s : State) (v : Variant) (h : s.Running v) :
    roundCount s.cmdreg.val (BitVec.ofNat 4 v.nr) = .ok v.nr := by
  have hlegal : legalRoundCountArg (BitVec.ofNat 4 v.nr) = true := by cases v <;> decide
  have hnr : (BitVec.ofNat 4 v.nr).toNat = v.nr := by cases v <;> decide
  simp only [roundCount, hlegal, if_true, currentVariant, h.2, hnr, bind, Except.bind]

/-- A whole-block micro-op whose assignment is refused is refused with the same name. -/
theorem exec_encryptBlock_error (s : State) (v : Variant) (e : Refusal) (h : s.Running v)
    (he : s.mapST (encryptBlockWith s.roundKey v.nr) = .error e) :
    exec (.encryptBlock (BitVec.ofNat 4 v.nr)) s = .refused e := by
  refine uop_refused s _ _ h.1 ?_
  simp only [roundCount_running s v h, he, bind, Except.bind]

theorem exec_decryptBlock_error (s : State) (v : Variant) (e : Refusal) (h : s.Running v)
    (he : s.mapST (decryptBlockWith s.roundKey v.nr) = .error e) :
    exec (.decryptBlock (BitVec.ofNat 4 v.nr)) s = .refused e := by
  refine uop_refused s _ _ h.1 ?_
  simp only [roundCount_running s v h, he, bind, Except.bind]

/-- The first location of the round keys without a value lies in the first round key that is not all there (R145). -/
theorem exec_encryptBlock_undef_key (s : State) (v : Variant) (a : Nat) (h : s.Running v)
    (hst : s.firstUndef .st 0 16 = none) (hxk : s.firstUndef .xk 0 v.xklen = some a) :
    exec (.encryptBlock (BitVec.ofNat 4 v.nr)) s = .refused (.undefRead .xk a) := by
  obtain ⟨-, hlt, hnone, hbefore⟩ := (s.firstUndef_some_iff _ _ _ _).mp hxk
  have hr : a / 16 ≤ v.nr := by simp only [Variant.xklen] at hlt; omega
  have hbad := s.roundKey_undef v (a / 16) a hr
    ((s.firstUndef_some_iff _ _ _ _).mpr ⟨by omega, by omega, hnone, fun j _ hj => hbefore j (by omega) hj⟩)
  have hgood : ∀ j, j < a / 16 → ∃ k, s.roundKey j = .ok k := fun j hj =>
    s.roundKey_isOk v j (by omega) ((s.firstUndef_none_iff _ _ _).mpr fun k hk => hbefore _ (by omega) (by omega))
  exact exec_encryptBlock_error s v _ h
    (s.mapST_error _ _ hst fun b => encryptBlockWith_error s.roundKey v.nr _ b _ hr hbad hgood)

/-- The round keys are read from `Nr` downward (R146). -/
theorem exec_decryptBlock_undef_key (s : State) (v : Variant) (r a : Nat) (h : s.Running v)
    (hst : s.firstUndef .st 0 16 = none) (hr : r ≤ v.nr) (hxk : s.firstUndef .xk (16 * r) 16 = some a)
    (habove : ∀ r', r < r' → r' ≤ v.nr → s.firstUndef .xk (16 * r') 16 = none) :
    exec (.decryptBlock (BitVec.ofNat 4 v.nr)) s = .refused (.undefRead .xk a) :=
  exec_decryptBlock_error s v _ h (s.mapST_error _ _ hst fun b =>
    decryptBlockWith_error s.roundKey v.nr r b _ hr (s.roundKey_undef v r a hr hxk)
      fun j hj hj' => s.roundKey_isOk v j hj' (habove j hj hj'))

/-- Settles O56, micro-op by micro-op. -/
theorem undefReadsRefused : Obligations.UndefReadsRefused := by
  refine ⟨exec_wholeST_undef, fun s n c hc hn hlt h hb => ?_, exec_loadState_undef, exec_expand_undef,
    exec_addRoundKey_undef, fun s v a hr hst => ?_, exec_encryptBlock_undef_key, exec_decryptBlock_undef_key⟩
  · exact ⟨uop_refused s _ _ hc (s.mapRow_undef n _ c hn hlt h hb),
      uop_refused s _ _ hc (s.mapRow_undef n _ c hn hlt h hb)⟩
  · exact ⟨exec_encryptBlock_error s v _ hr (s.mapST_undef _ a hst),
      exec_decryptBlock_error s v _ hr (s.mapST_undef _ a hst)⟩

/-! ### Output ports -/

/-- Where `DOUT` holds values the port shows them, whatever the free value is (log 7). -/
theorem State.doutBytes_eq (s : State) (b : Block) (h : s.memRead .dout 0 16 = .ok b) : s.doutBytes = b := by
  obtain ⟨-, hb⟩ := (s.memRead_ok_iff _ _ _ _).mp h
  ext1 i hi
  have hslot : slotAt s.dout i = some b[i] := by simpa [State.location] using hb i hi
  simp [State.doutBytes, hslot]

/-- The fields of `STATUS` at their bits (R29). -/
theorem Status.word_fields (x : Status) :
    x.word.extractLsb' 0 1 = BitVec.ofBool x.busy ∧ x.word.extractLsb' 1 1 = BitVec.ofBool x.done ∧
      x.word.extractLsb' 2 2 = x.err := by
  obtain ⟨busy, done, err⟩ := x
  revert busy done err
  decide

/-- Settles O60, from `doutBytes_eq` and the fields of the status word. -/
theorem outputPorts : Obligations.OutputPorts := by
  refine ⟨fun s b h => ?_, fun s => ?_⟩
  · rw [State.doutPort, s.doutBytes_eq b h]
  · obtain ⟨hbusy, hdone, herr⟩ := s.status.word_fields
    exact ⟨hbusy.symm, hdone.symm, herr.symm⟩

end Sys2Proof.Machine
end

section
/-! PROOF. What `MemRead` and `MemWrite` answer and refuse, and read after write (R61, R62; O57, O58); and where the bytes of a
sequence stand on its port (R52; O59). -/

namespace Sys2Proof.Machine

open Sys2Proof

/-! ### Reads and writes -/

/-- A write that answers leaves its bytes at its addresses. -/
theorem State.location_store_written (s : State) (sp : Space) (addr : Nat) {n : Nat} (v : Vector Byte n)
    (hw : sp.isRom = false) (hr : addr + n ≤ sp.size) (k : Nat) (hk : k < n) :
    (s.store sp addr v).location sp (addr + k) = some v[k] := by
  simp [s.location_store sp addr v sp (addr + k) hw hr, hk]

/-- Every other location of every space is as before. -/
theorem State.location_store_other (s : State) (sp : Space) (addr : Nat) {n : Nat} (v : Vector Byte n)
    (hw : sp.isRom = false) (hr : addr + n ≤ sp.size) (sp' : Space) (a : Nat)
    (h : sp' ≠ sp ∨ a < addr ∨ addr + n ≤ a) :
    (s.store sp addr v).location sp' a = s.location sp' a := by
  have hout : ¬(sp' = sp ∧ addr ≤ a ∧ a < addr + n) := by
    rintro ⟨hsp, hlo, hhi⟩
    rcases h with h | h | h
    · exact h hsp
    · omega
    · omega
  rw [s.location_store sp addr v sp' a hw hr, if_neg hout]

/-- Settles O57, from what a store leaves at the written locations and at the others. -/
theorem readAfterWrite : Obligations.ReadAfterWrite := by
  intro s t sp addr n v h
  obtain ⟨hw, hr, rfl⟩ := (s.memWrite_ok_iff t sp addr v).mp h
  exact ⟨((s.store sp addr v).memRead_ok_iff sp addr n v).mpr ⟨hr, s.location_store_written sp addr v hw hr⟩,
    s.location_store_other sp addr v hw hr⟩

theorem State.memRead_outOfRange (s : State) (sp : Space) (addr n : Nat) (h : sp.size < addr + n) :
    s.memRead sp addr n = .error (.outOfRange sp addr) :=
  if_neg (Nat.not_le.mpr h)

theorem State.memWrite_rom (s : State) (sp : Space) (addr n : Nat) (v : Vector Byte n) (h : sp.isRom = true) :
    s.memWrite sp addr v = .error (.romWrite sp) :=
  if_pos h

theorem State.memWrite_outOfRange (s : State) (sp : Space) (addr n : Nat) (v : Vector Byte n) (hw : sp.isRom = false)
    (h : sp.size < addr + n) : s.memWrite sp addr v = .error (.outOfRange sp addr) := by
  rw [State.memWrite, hw, if_neg Bool.false_ne_true, if_neg (Nat.not_le.mpr h)]

/-- Settles O58, clause by clause. -/
theorem accessRefusals : Obligations.AccessRefusals := by
  refine ⟨State.memRead_outOfRange, fun s sp addr n a hr h => ?_, fun s sp addr n hr h => ?_, State.memWrite_rom,
    State.memWrite_outOfRange, fun s sp addr n v hw hr => ?_⟩
  · obtain ⟨hlo, hhi, hnone, -⟩ := (s.firstUndef_some_iff sp addr n a).mp h
    exact ⟨s.memRead_undef sp addr n a hr h, hlo, hhi, hnone⟩
  · exact s.memRead_isOk sp addr n hr ((s.firstUndef_none_iff sp addr n).mp h)
  · exact ⟨_, (s.memWrite_ok_iff _ sp addr v).mpr ⟨hw, hr, rfl⟩⟩

/-! ### Byte sequences on the ports -/

theorem digitsValue_lt (l : List Byte) : digitsValue l < 2 ^ (8 * l.length) := by
  induction l with
  | nil => simp [digitsValue]
  | cons b l ih =>
    have hb : b.toNat < 256 := b.isLt
    have hpow : 2 ^ (8 * (b :: l).length) = 256 * 2 ^ (8 * l.length) := by
      rw [List.length_cons, Nat.mul_succ, Nat.pow_add, Nat.mul_comm]
    simp only [digitsValue, hpow]
    omega

/-- Byte `i` of the list is digit `i` of its value. -/
theorem digitsValue_digit (l : List Byte) (i : Nat) (h : i < l.length) :
    digitsValue l / 2 ^ (8 * i) % 256 = l[i].toNat := by
  induction l generalizing i with
  | nil => cases h
  | cons b l ih =>
    have hb : b.toNat < 256 := b.isLt
    cases i with
    | zero =>
      simp only [digitsValue, List.getElem_cons_zero, Nat.mul_zero, Nat.pow_zero, Nat.div_one]
      omega
    | succ i =>
      have hpow : 2 ^ (8 * (i + 1)) = 256 * 2 ^ (8 * i) := by rw [Nat.mul_succ, Nat.pow_add, Nat.mul_comm]
      have htail : (b.toNat + 256 * digitsValue l) / 256 = digitsValue l := by omega
      rw [digitsValue, hpow, ← Nat.div_div_eq_div_mul, htail]
      exact ih i (Nat.lt_of_succ_lt_succ h)

theorem pack_toNat {n : Nat} (v : Vector Byte n) : (pack v).toNat = digitsValue v.toList := by
  have hlt := digitsValue_lt v.toList
  rw [Vector.length_toList] at hlt
  exact Nat.mod_eq_of_lt hlt

/-- A packed sequence has its byte `i` at byte `i` of the port (R52). -/
theorem portByte_pack {n : Nat} (v : Vector Byte n) (i : Nat) (h : i < n) : portByte (pack v) i = v[i] := by
  apply BitVec.eq_of_toNat_eq
  rw [portByte, BitVec.extractLsb'_toNat, pack_toNat, Nat.shiftRight_eq_div_pow,
    digitsValue_digit v.toList i (by rwa [Vector.length_toList]), Vector.getElem_toList]

@[simp] theorem unpack_getElem {w : Nat} (n : Nat) (p : BitVec w) (i : Nat) (h : i < n) :
    (unpack n p)[i] = portByte p i := by
  simp [unpack]

/-- A port of `n` bytes is determined by its bytes: bit `j` is bit `j % 8` of byte `j / 8`. -/
theorem eq_of_portByte_eq {n : Nat} (p q : BitVec (8 * n)) (h : ∀ i, i < n → portByte p i = portByte q i) : p = q := by
  apply BitVec.eq_of_getLsbD_eq
  intro j hj
  have hbit : ∀ r : BitVec (8 * n), r.getLsbD j = (portByte r (j / 8)).getLsbD (j % 8) := fun r => by
    rw [portByte, BitVec.getLsbD_extractLsb', decide_eq_true (Nat.mod_lt j (by decide)), Bool.true_and, Nat.div_add_mod]
  rw [hbit p, hbit q, h (j / 8) (by omega)]

/-- Packing undoes unpacking: both ports have the same bytes. -/
theorem pack_unpack (n : Nat) (p : BitVec (8 * n)) : pack (unpack n p) = p :=
  eq_of_portByte_eq _ _ fun i h => by rw [portByte_pack _ i h, unpack_getElem]

/-- An accepted start takes byte `i` of `KEYREG` from byte `i` of port `key_in` (R167). -/
theorem State.acceptStart_keyreg_byte (s : State) (w : Byte) (i : Nat) (h : i < 32) :
    slotAt (s.acceptStart w).keyreg i = some (portByte s.ports.keyIn i) := by
  rw [State.acceptStart_keyreg, slotAt_writeSlots _ _ _ _ h]
  simp [h]

/-- An accepted start takes byte `i` of `DINREG` from byte `i` of port `din` (R167). -/
theorem State.acceptStart_dinreg_byte (s : State) (w : Byte) (i : Nat) (h : i < 16) :
    slotAt (s.acceptStart w).dinreg i = some (portByte s.ports.din i) := by
  rw [State.acceptStart_dinreg, slotAt_writeSlots _ _ _ _ h]
  simp [h]

/-- Where byte `i` of `DOUT` holds a value, port `dout` shows it at byte `i` (R28, R31). -/
theorem State.doutPort_byte (s : State) (i : Nat) (hi : i < 16) (b : Byte) (h : slotAt s.dout i = some b) :
    portByte s.doutPort i = b := by
  calc portByte s.doutPort i = s.doutBytes[i] := portByte_pack s.doutBytes i hi
    _ = b := by simp [State.doutBytes, h]

/-- Settles O59: the packing for every width, and the bytes of the ports at both ends of a command. -/
theorem portPacking : Obligations.PortPacking :=
  ⟨fun _ => portByte_pack, pack_unpack,
    fun s w => ⟨s.acceptStart_keyreg_byte w 0 (by decide), s.acceptStart_dinreg_byte w 15 (by decide)⟩,
    fun s => s.doutPort_byte 0 (by decide)⟩

end Sys2Proof.Machine
end

section
/-! PROOF. The two word formats (30_encoding.md): fields of a word and the word of its fields, and from them the round trips (O1, O2),
the illegal words (O4), the worked encodings (O3) and the rows of the opcode table (O5). -/

namespace Sys2Proof

/-! ### Fields (R71, R73) -/

@[simp] theorem uopField_wordM (u a : BitVec 4) : uopField (wordM u a) = u := BitVec.extractLsb'_append_eq_left

@[simp] theorem argField_wordM (u a : BitVec 4) : argField (wordM u a) = a := BitVec.extractLsb'_append_eq_right

@[simp] theorem wordM_fields (w : Byte) : wordM (uopField w) (argField w) = w := BitVec.extractLsb'_append_extractLsb'

@[simp] theorem keylenField_wordH (d : BitVec 1) (k : BitVec 7) : keylenField (wordH d k) = k :=
  BitVec.extractLsb'_append_eq_right

@[simp] theorem dirField_wordH (d : BitVec 1) (k : BitVec 7) : dirField (wordH d k) = d.getLsbD 0 :=
  BitVec.getLsbD_append

theorem wordH_fields (w : Byte) : wordH (BitVec.ofBool (dirField w)) (keylenField w) = w := by
  have hdir : BitVec.ofBool (dirField w) = w.extractLsb' 7 1 := by
    ext i hi
    obtain rfl : i = 0 := by omega
    simp [dirField]
  rw [hdir]
  exact BitVec.extractLsb'_append_extractLsb'

/-- A word is determined by the number in `UOP` and by `ARG`. -/
theorem wordM_of_fields {w : Byte} {u a : BitVec 4} (hu : (uopField w).toNat = u.toNat) (ha : argField w = a) :
    wordM u a = w := by
  rw [← BitVec.eq_of_toNat_eq hu, ← ha, wordM_fields]

/-! ### Round trips -/

/-- Decoding a format M word whose operand is legal gives the instruction of its row (R85). -/
theorem decodeM_encode (i : Instr) (hM : i.format = .M) (h : i.wf = true) : decodeM (encode i) = some i := by
  cases i with
  | addRoundKey a | shiftRow a | invShiftRow a | encryptBlock a | decryptBlock a =>
    simpa [decodeM, encode, whenLegal, Instr.wf] using h
  | subBytes | invSubBytes | shiftRows | invShiftRows | mixColumns | invMixColumns | expand | loadState | storeOut => rfl
  | encrypt k | decrypt k => cases hM

/-- Settles O1: format M row by row, format H by its two fields. -/
theorem decodeEncode : Obligations.DecodeEncode := by
  intro i h
  cases i with
  | encrypt k | decrypt k => simp [Instr.format, encode, decode, decodeH]
  | _ => exact decodeM_encode _ rfl h

/-- A format M word that decodes is the word of a well-formed instruction: each row keeps `UOP`, and `ARG` is the operand or 0. -/
theorem encode_of_decodeM (w : Byte) (i : Instr) (h : decodeM w = some i) : encode i = w ∧ i.wf = true := by
  unfold decodeM at h
  dsimp only at h
  split at h
  case h_15 => cases h
  case h_1 hu | h_8 hu | h_9 hu | h_13 hu | h_14 hu =>
    obtain ⟨hlegal, rfl⟩ := (Machine.whenLegal_eq_some_iff _ _ _).mp h
    exact ⟨wordM_of_fields hu rfl, hlegal⟩
  all_goals
    rename_i hu
    obtain ⟨hzero, rfl⟩ := (Machine.whenLegal_eq_some_iff _ _ _).mp h
    exact ⟨wordM_of_fields hu (beq_iff_eq.mp hzero), rfl⟩

/-- Every format H word is the word of the command it decodes to (R85). -/
theorem encode_decodeH (w : Byte) : encode (decodeH w) = w := by
  have hw := wordH_fields w
  unfold decodeH
  split
  case isTrue hd => rwa [hd] at hw
  case isFalse hd => rwa [Bool.eq_false_iff.mpr hd] at hw

/-- A format H word decodes to a command, and every command is well formed (R71). -/
theorem decodeH_format_wf (w : Byte) : (decodeH w).format = .H ∧ (decodeH w).wf = true := by
  unfold decodeH
  split
  · exact ⟨rfl, rfl⟩
  · exact ⟨rfl, rfl⟩

/-- Settles O2, by the format. -/
theorem encodeDecode : Obligations.EncodeDecode := by
  intro f w i h
  cases f with
  | H =>
    obtain rfl : decodeH w = i := Option.some.inj h
    exact ⟨encode_decodeH w, decodeH_format_wf w⟩
  | M =>
    obtain ⟨hw, hwf⟩ := encode_of_decodeM w i h
    exact ⟨hw, Machine.decodeM_format w i h, hwf⟩

/-! ### Illegal words (R77) -/

theorem whenLegal_eq_none_iff (ok : Bool) (i : Instr) : whenLegal ok i = none ↔ ok = false := by
  cases ok <;> simp [whenLegal]

/-- Which words R77 lists, by the two fields. -/
def IsListedIllegal (u a : BitVec 4) : Prop :=
  u = 0x0 ∨ u = 0xf ∨ wordM u a = 0x1f ∨ (0x2 ≤ u ∧ u ≤ 0x7 ∧ a ≠ 0) ∨ ((u = 0x8 ∨ u = 0x9) ∧ 3 < a) ∨
    (0xa ≤ u ∧ u ≤ 0xc ∧ a ≠ 0) ∨ ((u = 0xd ∨ u = 0xe) ∧ a ≠ 10 ∧ a ≠ 12 ∧ a ≠ 14)

/-- The decoder answers nothing exactly on the listed words: its row, chosen by `UOP`, says which operands are legal. -/
theorem decodeM_wordM_eq_none_iff (u a : BitVec 4) : decodeM (wordM u a) = none ↔ IsListedIllegal u a := by
  unfold decodeM
  simp only [uopField_wordM, argField_wordM]
  split
  case h_15 =>
    simp only [imp_false] at *
    obtain rfl | rfl : u = 0x0 ∨ u = 0xf := by bv_omega
    · simp [IsListedIllegal]
    · simp [IsListedIllegal]
  all_goals
    rename_i hu
    obtain ⟨-, rfl⟩ := BitVec.toNat_eq_nat.mp hu
    rw [whenLegal_eq_none_iff, IsListedIllegal]
    revert a
    decide

/-- There are 218 of them: 256 words less those of the 38 well-formed format M instructions. -/
theorem length_illegal_words : ((List.range 256).filter fun n => (decodeM (BitVec.ofNat 8 n)).isNone).length = 218 := by
  decide +kernel

/-- A running command is refused at a word of the entry point (log 8) that does not decode. -/
theorem Machine.step_of_illegal_word (s : Machine.State) (v : Machine.Variant) (w : Byte) (rest : List Byte)
    (hrst : s.ports.rst = false) (hr : s.Running v) (hu : s.upc < 4 * v.nr + 3) (hin : s.uopIn = w :: rest)
    (hw : decodeM w = none) : Machine.step s = .refused (.illegalUopWord w) := by
  have hf : s.fetch = .ok (some w) := by simp [s.fetch_running v hr, hu, hin]
  rw [Machine.step_of_busy s hrst hr.1.1]
  simp only [hf, hw]

/-- Settles O4: the list by the two fields, the micro-programs by their words, the step by the busy step's equation. -/
theorem illegalWords : Obligations.IllegalWords := by
  refine ⟨fun w => ?_, length_illegal_words, Machine.decodeM_encode_of_mem_uprog, Machine.step_of_illegal_word⟩
  simpa [IsListedIllegal] using decodeM_wordM_eq_none_iff (uopField w) (argField w)

/-! ### Worked encodings and the opcode table (R83, R86) -/

/-- A command whose key length selects no variant is rejected (R168). -/
theorem Machine.exec_encrypt_rejected (s : Machine.State) (k : BitVec 7) (hb : s.status.busy = false)
    (hk : Machine.variantOf k.toNat = none) :
    Machine.exec (.encrypt k) s = .next (s.raise .invalidKeySize) := by
  simp only [Machine.exec, Machine.execEncrypt, Machine.State.startStep, hb, Machine.commandVariant, keylenField_wordH, hk,
    Bool.false_eq_true, if_false]

/-- Settles O3: the fixed words by evaluation, the rejected start by its key length. -/
theorem workedEncodings : Obligations.WorkedEncodings :=
  ⟨by decide, by decide, by decide, by decide, by decide, by decide, fun s hb => Machine.exec_encrypt_rejected s 20 hb rfl,
    by decide⟩

/-- The two format H rows divide the bytes between them, by bit 7 (R83). -/
theorem length_rowsSelected_H (w : Byte) : (rowsSelected .H w).length = 1 := by
  revert w
  decide +kernel

/-- The format M rows do not overlap (R83). -/
theorem length_rowsSelected_M (w : Byte) : (rowsSelected .M w).length ≤ 1 := by
  revert w
  decide +kernel

/-- Settles O5, format by format. -/
theorem tableRowsDisjoint : Obligations.TableRowsDisjoint := fun w => ⟨length_rowsSelected_M w, length_rowsSelected_H w⟩

end Sys2Proof
end

section
/-! PROOF. Micro-ops to which a command gives no meaning (30_encoding.md rule R79, 93 U5): every one outside a command (O55), and
inside one a round key above `Nr` or a foreign round count (O54). -/

namespace Sys2Proof.Machine

open Sys2Proof

/-! ### Outside a command -/

/-- Every micro-op has the common frame (R30). -/
theorem exec_eq_uop (i : Instr) (s : State) (hM : i.format = .M) : ∃ body, exec i s = uop s body := by
  cases i with
  | encrypt k | decrypt k => cases hM
  | _ => exact ⟨_, rfl⟩

/-- While `CMDREG` holds no value every micro-op is refused (93 U5). -/
theorem uop_undefCommand (s : State) (body : Byte → Except Refusal State) (hb : s.status.busy = true)
    (hk : s.cmdreg.known = false) : uop s body = .refused .undefCommand := by
  simp [uop, Slot.get, hb, hk]

/-- Settles O55, from the common frame. -/
theorem uopsNeedACommand : Obligations.UopsNeedACommand := by
  intro i s hM
  obtain ⟨body, hx⟩ := exec_eq_uop i s hM
  rw [hx]
  exact ⟨uop_idle s body, uop_undefCommand s body⟩

/-! ### Inside a command -/

theorem exec_addRoundKey_aboveNr (s : State) (v : Variant) (r : BitVec 4) (hrun : s.Running v) (hr : r.toNat ≤ 14)
    (habove : v.nr < r.toNat) : exec (.addRoundKey r) s = .refused (.roundKeyAboveNr r.toNat) := by
  have hlegal : legalRoundKeyArg r = true := decide_eq_true hr
  refine uop_refused s _ _ hrun.1 ?_
  simp only [hlegal, if_true, currentVariant, hrun.2, Nat.not_le.mpr habove, if_false, bind, Except.bind]

/-- A legal round count other than the command's is refused by name (R79). -/
theorem roundCount_mismatch (s : State) (v : Variant) (nr : BitVec 4) (hrun : s.Running v) (hlegal : nr = 10 ∨ nr = 12 ∨ nr = 14)
    (hne : nr.toNat ≠ v.nr) : roundCount s.cmdreg.val nr = .error (.roundCountMismatch nr.toNat) := by
  have hlegal : legalRoundCountArg nr = true := by simpa [legalRoundCountArg, or_assoc] using hlegal
  simp only [roundCount, hlegal, if_true, currentVariant, hrun.2, hne, if_false, bind, Except.bind]

theorem exec_block_roundCountMismatch (s : State) (v : Variant) (nr : BitVec 4) (hrun : s.Running v)
    (hlegal : nr = 10 ∨ nr = 12 ∨ nr = 14) (hne : nr.toNat ≠ v.nr) :
    exec (.encryptBlock nr) s = .refused (.roundCountMismatch nr.toNat) ∧
    exec (.decryptBlock nr) s = .refused (.roundCountMismatch nr.toNat) := by
  have hcount := roundCount_mismatch s v nr hrun hlegal hne
  refine ⟨uop_refused s _ _ hrun.1 ?_, uop_refused s _ _ hrun.1 ?_⟩
  · simp only [hcount, bind, Except.bind]
  · simp only [hcount, bind, Except.bind]

/-- A micro-program consists of `expand`, `loadState`, round micro-ops and `storeOut` (R147). -/
theorem mem_uprog_cases (dir : Bool) (v : Variant) (i : Instr) (h : i ∈ uprog dir v.nr) :
    i ∈ [Instr.expand, .loadState, .storeOut] ∨ IsRoundUop v.nr i := by
  obtain ⟨u, hu⟩ := List.mem_iff_getElem?.mp h
  obtain ⟨hlt, -⟩ := List.getElem?_eq_some_iff.mp hu
  rw [uprog_length] at hlt
  rw [uprog_getElem?] at hu
  by_cases h0 : u = 0
  · subst h0
    exact .inl (by simp [← Option.some.inj hu])
  by_cases h1 : u = 1
  · subst h1
    exact .inl (by simp [← Option.some.inj hu])
  by_cases hlast : u = 4 * v.nr + 2
  · rw [hlast, uprogTable_last] at hu
    exact .inl (by simp [← Option.some.inj hu])
  · exact .inr (uprogTable_round dir v u i (by omega) (by omega) hu)

/-- A round micro-op is no whole-block one, and asks for a round key of the command. -/
theorem IsRoundUop.legal {nr : Nat} {i : Instr} (h : IsRoundUop nr i) :
    (∀ r, i = .addRoundKey r → r.toNat ≤ nr) ∧ (∀ n, i ≠ .encryptBlock n) ∧ ∀ n, i ≠ .decryptBlock n := by
  cases h with
  | addRoundKey hr => exact ⟨by rintro r ⟨⟩; exact hr, nofun, nofun⟩
  | transform hi => refine ⟨?_, ?_, ?_⟩ <;> (rintro n rfl; simp at hi)

/-- Settles O54: the two refusals by their operand checks, the micro-programs by their micro-ops. -/
theorem dynamicallyIllegal : Obligations.DynamicallyIllegal := by
  refine ⟨exec_addRoundKey_aboveNr, exec_block_roundCountMismatch, fun dir v i hi => ?_⟩
  rcases mem_uprog_cases dir v i hi with h | h
  · refine ⟨?_, ?_, ?_⟩ <;> (rintro n rfl; simp at h)
  · exact h.legal

end Sys2Proof.Machine
end

section
/-! PROOF. Runs of micro-ops that change `ST` only: the state a number of them after a given one, with a block in `ST`, and what each of
the micro-ops between `loadState` and `storeOut` makes of that block (30_encoding.md rule R82). -/

namespace Sys2Proof.Machine

open Sys2Proof

/-! ### Runs (R63) -/

theorem runUops_cons (i : Instr) (is : List Instr) (s t : State) (h : exec i s = .next t) :
    runUops (i :: is) s = runUops is t := by
  simp only [runUops, h]

theorem runUops_append (is js : List Instr) (s t : State) (h : runUops is s = .next t) :
    runUops (is ++ js) s = runUops js t := by
  induction is generalizing s with
  | nil =>
    cases h
    rfl
  | cons i is ih =>
    cases hx : exec i s with
    | next u =>
      rw [runUops_cons i is s u hx] at h
      rw [List.cons_append, runUops_cons i _ s u hx, ih u h]
    | fault r => simp [runUops, hx] at h
    | refused r => simp [runUops, hx] at h

/-! ### A block in `ST` -/

/-- The state `n` micro-ops after `s` when they have left the block `b` in `ST` and changed nothing else (R34). -/
def State.after (s : State) (n : Nat) (b : Block) : State := { s with st := writeSlots s.st 0 b, upc := s.upc + n }

theorem State.after_st (s : State) (n : Nat) (b : Block) : (s.after n b).st = writeSlots s.st 0 b := by
  simp only [State.after]
@[simp] theorem State.after_xk (s : State) (n : Nat) (b : Block) : (s.after n b).xk = s.xk := by simp only [State.after]
@[simp] theorem State.after_cmdreg (s : State) (n : Nat) (b : Block) : (s.after n b).cmdreg = s.cmdreg := by
  simp only [State.after]
@[simp] theorem State.after_status (s : State) (n : Nat) (b : Block) : (s.after n b).status = s.status := by
  simp only [State.after]
@[simp] theorem State.after_upc (s : State) (n : Nat) (b : Block) : (s.after n b).upc = s.upc + n := by simp only [State.after]

theorem State.inCommand_after {s : State} (h : s.InCommand) (n : Nat) (b : Block) : (s.after n b).InCommand := by
  simpa [State.InCommand] using h

theorem State.running_after {s : State} {v : Variant} (h : s.Running v) (n : Nat) (b : Block) : (s.after n b).Running v := by
  simpa [State.Running, State.InCommand] using h

theorem State.slotAt_after (s : State) (n : Nat) (b : Block) (i : Nat) (hi : i < 16) : slotAt (s.after n b).st i = some b[i] := by
  rw [State.after_st, ← State.store_st_st]
  exact s.slotAt_store_st b i hi

theorem State.memRead_after (s : State) (n : Nat) (b : Block) : (s.after n b).memRead .st 0 16 = .ok b := by
  refine (State.memRead_ok_iff _ _ _ _ _).mpr ⟨by decide, fun k hk => ?_⟩
  rw [Nat.zero_add]
  exact s.slotAt_after n b k hk

/-- A read depends on the locations of its space alone. -/
theorem State.memRead_congr (s t : State) (sp : Space) (h : ∀ a, t.location sp a = s.location sp a) (addr n : Nat) :
    t.memRead sp addr n = s.memRead sp addr n := by
  simp only [State.memRead, State.firstUndef, h]

/-- Round keys are read from `XK`, which stays. -/
@[simp] theorem State.roundKey_after (s : State) (n : Nat) (b : Block) : (s.after n b).roundKey = s.roundKey := by
  funext r
  exact State.memRead_congr _ _ _ (fun a => by simp only [State.location, State.after_xk]) _ _

/-- A register all of whose locations hold the bytes of a sequence is that sequence written. -/
theorem writeSlots_of_slotAt {n : Nat} (r r' : Vector (Slot Byte) n) (v : Vector Byte n)
    (h : ∀ i (hi : i < n), slotAt r i = some v[i]) : writeSlots r' 0 v = r := by
  rw [writeSlots_all]
  ext1 i hi
  have hslot := h i hi
  simp only [slotAt, Vector.getElem?_eq_getElem hi, Option.ite_none_right_eq_some, Option.some.injEq] at hslot
  obtain ⟨hk, hv⟩ := hslot
  simp [Slot.hold, ← hk, ← hv]

/-- A state that differs from `s` in `ST` and `UPC` only, `ST` holding a block. -/
theorem State.eq_after (s t : State) (n : Nat) (b : Block) (hframe : t = { s with st := t.st, upc := s.upc + n })
    (hst : t.memRead .st 0 16 = .ok b) : t = s.after n b := by
  obtain ⟨-, hbytes⟩ := (State.memRead_ok_iff _ _ _ _ _).mp hst
  have hwrite : writeSlots s.st 0 b = t.st :=
    writeSlots_of_slotAt _ _ _ fun i hi => by simpa [State.location] using hbytes i hi
  rw [hframe, State.after, hwrite]

theorem State.eq_after_zero (s : State) (b : Block) (hst : s.memRead .st 0 16 = .ok b) : s = s.after 0 b :=
  s.eq_after s 0 b rfl hst

/-- The next micro-op's block takes the place of the last one's. -/
theorem State.store_after (s : State) (n : Nat) (b b' : Block) :
    { (s.after n b).store .st 0 b' with upc := s.upc + n + 1 } = s.after (n + 1) b' := by
  simp only [State.store, State.after, writeSlots_all, Nat.add_assoc]

/-- The number of micro-ops shows in `UPC` only. -/
theorem State.after_withUpc (s : State) (m n : Nat) (b : Block) : { s.after m b with upc := s.upc + n } = s.after n b := by
  simp only [State.after]

/-- A micro-op whose own effect is a whole-block assignment. -/
theorem uop_mapST_after (s : State) (n : Nat) (b b' : Block) (f : Block → Except Refusal Block)
    (body : Byte → Except Refusal State) (hc : s.InCommand) (hbody : body s.cmdreg.val = (s.after n b).mapST f)
    (hf : f b = .ok b') : uop (s.after n b) body = .next (s.after (n + 1) b') := by
  have hmap := (State.mapST_ok_iff _ _ _).mpr ⟨b, b', s.memRead_after n b, hf, rfl⟩
  have hx := uop_of_ok (s.after n b) _ body (State.inCommand_after hc n b) (by rw [State.after_cmdreg, hbody, hmap])
  rw [hx, State.store_st_upc, State.after_upc, State.store_after]

/-- A micro-op that applies a function to the block in `ST`. -/
theorem uop_transform_after (s : State) (n : Nat) (b : Block) (f : Block → Block) (hc : s.InCommand) :
    uop (s.after n b) (fun _ => (s.after n b).mapST fun b => .ok (f b)) = .next (s.after (n + 1) (f b)) :=
  uop_mapST_after s n b (f b) (fun b => .ok (f b)) _ hc rfl rfl

section Transforms

variable (s : State) (n : Nat) (b : Block) (hc : s.InCommand)
include hc

theorem exec_subBytes_after : exec .subBytes (s.after n b) = .next (s.after (n + 1) (subBytesFn b)) :=
  uop_transform_after s n b subBytesFn hc

theorem exec_invSubBytes_after : exec .invSubBytes (s.after n b) = .next (s.after (n + 1) (invSubBytesFn b)) :=
  uop_transform_after s n b invSubBytesFn hc

theorem exec_shiftRows_after : exec .shiftRows (s.after n b) = .next (s.after (n + 1) (shiftRowsFn b)) :=
  uop_transform_after s n b shiftRowsFn hc

theorem exec_invShiftRows_after : exec .invShiftRows (s.after n b) = .next (s.after (n + 1) (invShiftRowsFn b)) :=
  uop_transform_after s n b invShiftRowsFn hc

theorem exec_mixColumns_after : exec .mixColumns (s.after n b) = .next (s.after (n + 1) (mixColumnsFn b)) :=
  uop_transform_after s n b mixColumnsFn hc

theorem exec_invMixColumns_after : exec .invMixColumns (s.after n b) = .next (s.after (n + 1) (invMixColumnsFn b)) :=
  uop_transform_after s n b invMixColumnsFn hc

end Transforms

theorem exec_addRoundKey_after (s : State) (v : Variant) (n r : Nat) (b k : Block) (hrun : s.Running v) (hr : r ≤ v.nr)
    (hk : s.roundKey r = .ok k) :
    exec (.addRoundKey (roundKeyArg r)) (s.after n b) = .next (s.after (n + 1) (addRoundKeyFn b k)) := by
  have hnr := v.nr_le
  have harg : (roundKeyArg r).toNat = r := by
    rw [roundKeyArg, BitVec.toNat_ofNat, Nat.mod_eq_of_lt (by omega)]
  have hlegal : legalRoundKeyArg (roundKeyArg r) = true := legalRoundKeyArg_of_le v _ (by omega)
  rw [exec_addRoundKey_eq]
  refine uop_mapST_after s n b _ (fun b => .ok (addRoundKeyFn b k)) _ hrun.1 ?_ rfl
  simp only [addRoundKeyEffect, hlegal, if_true, currentVariant, hrun.2, harg, hr, State.roundKey_after, hk, bind, Except.bind]

theorem exec_encryptBlock_after (s : State) (v : Variant) (n : Nat) (b b' : Block) (hrun : s.Running v)
    (h : encryptBlockWith s.roundKey v.nr b = .ok b') :
    exec (.encryptBlock (BitVec.ofNat 4 v.nr)) (s.after n b) = .next (s.after (n + 1) b') := by
  refine uop_mapST_after s n b b' (encryptBlockWith s.roundKey v.nr) _ hrun.1 ?_ h
  simp only [roundCount_running s v hrun, State.roundKey_after, bind, Except.bind]

theorem exec_decryptBlock_after (s : State) (v : Variant) (n : Nat) (b b' : Block) (hrun : s.Running v)
    (h : decryptBlockWith s.roundKey v.nr b = .ok b') :
    exec (.decryptBlock (BitVec.ofNat 4 v.nr)) (s.after n b) = .next (s.after (n + 1) b') := by
  refine uop_mapST_after s n b b' (decryptBlockWith s.roundKey v.nr) _ hrun.1 ?_ h
  simp only [roundCount_running s v hrun, State.roundKey_after, bind, Except.bind]

end Sys2Proof.Machine
end

section
/-! PROOF. Words that stand for several micro-ops, and their expansions (30_encoding.md rule R82): a whole-block word and its rounds
(O28), and a command's micro-program with the whole-block word and without it (O29). -/

namespace Sys2Proof.Machine

open Sys2Proof

/-! ### The rounds as micro-ops (R145, R146) -/

theorem runUops_encryptRound (is : List Instr) (s : State) (v : Variant) (n r : Nat) (b k : Block) (hrun : s.Running v)
    (hr : r ≤ v.nr) (hk : s.roundKey r = .ok k) :
    runUops (.subBytes :: .shiftRows :: .mixColumns :: .addRoundKey (roundKeyArg r) :: is) (s.after n b) =
      runUops is (s.after (n + 4) (addRoundKeyFn (mixColumnsFn (shiftRowsFn (subBytesFn b))) k)) := by
  rw [runUops_cons _ _ _ _ (exec_subBytes_after s n b hrun.1), runUops_cons _ _ _ _ (exec_shiftRows_after s _ _ hrun.1),
    runUops_cons _ _ _ _ (exec_mixColumns_after s _ _ hrun.1),
    runUops_cons _ _ _ _ (exec_addRoundKey_after s v _ r _ k hrun hr hk)]

theorem runUops_decryptRound (is : List Instr) (s : State) (v : Variant) (n r : Nat) (b k : Block) (hrun : s.Running v)
    (hr : r ≤ v.nr) (hk : s.roundKey r = .ok k) :
    runUops (.invShiftRows :: .invSubBytes :: .addRoundKey (roundKeyArg r) :: .invMixColumns :: is) (s.after n b) =
      runUops is (s.after (n + 4) (invMixColumnsFn (addRoundKeyFn (invSubBytesFn (invShiftRowsFn b)) k))) := by
  rw [runUops_cons _ _ _ _ (exec_invShiftRows_after s n b hrun.1), runUops_cons _ _ _ _ (exec_invSubBytes_after s _ _ hrun.1),
    runUops_cons _ _ _ _ (exec_addRoundKey_after s v _ r _ k hrun hr hk),
    runUops_cons _ _ _ _ (exec_invMixColumns_after s _ _ hrun.1)]

theorem runUops_encryptRoundUops (s : State) (v : Variant) (i count n : Nat) (b b' : Block) (hrun : s.Running v)
    (hi : i + count ≤ v.nr + 1) (h : encryptRounds s.roundKey i count b = .ok b') :
    runUops (encryptRoundUops i count) (s.after n b) = .next (s.after (n + 4 * count) b') := by
  induction count generalizing i n b with
  | zero =>
    cases h
    rfl
  | succ count ih =>
    obtain ⟨k, hk, h⟩ := (except_bind_ok_iff _ _ _).mp h
    refine (runUops_encryptRound (encryptRoundUops (i + 1) count) s v n i b k hrun (by omega) hk).trans ?_
    rw [ih (i + 1) (n + 4) _ (by omega) h, Nat.mul_succ, Nat.add_assoc, Nat.add_comm 4]

theorem runUops_decryptRoundUops (s : State) (v : Variant) (i n : Nat) (b b' : Block) (hrun : s.Running v)
    (hi : i ≤ v.nr) (h : decryptRounds s.roundKey i b = .ok b') :
    runUops (decryptRoundUops i) (s.after n b) = .next (s.after (n + 4 * i) b') := by
  induction i generalizing n b with
  | zero =>
    cases h
    rfl
  | succ i ih =>
    obtain ⟨k, hk, h⟩ := (except_bind_ok_iff _ _ _).mp h
    refine (runUops_decryptRound (decryptRoundUops i) s v n (i + 1) b k hrun hi hk).trans ?_
    rw [ih (n + 4) _ (by omega) h, Nat.mul_succ, Nat.add_assoc, Nat.add_comm 4]

theorem Variant.one_le_nr (v : Variant) : 1 ≤ v.nr := by cases v <;> decide

/-- The expansion of `encryptBlock Nr` makes of the block what the word makes of it, in 4 `Nr` micro-ops. -/
theorem runUops_encryptBlockUops (s : State) (v : Variant) (n : Nat) (b b' : Block) (hrun : s.Running v)
    (h : encryptBlockWith s.roundKey v.nr b = .ok b') :
    runUops (encryptBlockUops v.nr) (s.after n b) = .next (s.after (n + 4 * v.nr) b') := by
  have hnr := v.one_le_nr
  obtain ⟨k0, hk0, h⟩ := (except_bind_ok_iff _ _ _).mp h
  obtain ⟨b₁, hrounds, h⟩ := (except_bind_ok_iff _ _ _).mp h
  obtain ⟨k, hk, h⟩ := (except_bind_ok_iff _ _ _).mp h
  obtain rfl := Except.ok.inj h
  have hmid := runUops_encryptRoundUops s v 1 (v.nr - 1) (n + 1) _ b₁ hrun (by omega) hrounds
  rw [encryptBlockUops, List.cons_append, runUops_cons _ _ _ _ (exec_addRoundKey_after s v n 0 b k0 hrun (by omega) hk0),
    runUops_append _ _ _ _ hmid, runUops_cons _ _ _ _ (exec_subBytes_after s _ _ hrun.1),
    runUops_cons _ _ _ _ (exec_shiftRows_after s _ _ hrun.1),
    runUops_cons _ _ _ _ (exec_addRoundKey_after s v _ v.nr _ k hrun le_rfl hk),
    show n + 1 + 4 * (v.nr - 1) + 1 + 1 + 1 = n + 4 * v.nr by omega]
  rfl

/-- The expansion of `decryptBlock Nr` likewise. -/
theorem runUops_decryptBlockUops (s : State) (v : Variant) (n : Nat) (b b' : Block) (hrun : s.Running v)
    (h : decryptBlockWith s.roundKey v.nr b = .ok b') :
    runUops (decryptBlockUops v.nr) (s.after n b) = .next (s.after (n + 4 * v.nr) b') := by
  have hnr := v.one_le_nr
  obtain ⟨k, hk, h⟩ := (except_bind_ok_iff _ _ _).mp h
  obtain ⟨b₁, hrounds, h⟩ := (except_bind_ok_iff _ _ _).mp h
  obtain ⟨k0, hk0, h⟩ := (except_bind_ok_iff _ _ _).mp h
  obtain rfl := Except.ok.inj h
  have hmid := runUops_decryptRoundUops s v (v.nr - 1) (n + 1) _ b₁ hrun (by omega) hrounds
  rw [decryptBlockUops, List.cons_append, runUops_cons _ _ _ _ (exec_addRoundKey_after s v n v.nr b k hrun le_rfl hk),
    runUops_append _ _ _ _ hmid, runUops_cons _ _ _ _ (exec_invShiftRows_after s _ _ hrun.1),
    runUops_cons _ _ _ _ (exec_invSubBytes_after s _ _ hrun.1),
    runUops_cons _ _ _ _ (exec_addRoundKey_after s v _ 0 _ k0 hrun (by omega) hk0),
    show n + 1 + 4 * (v.nr - 1) + 1 + 1 + 1 = n + 4 * v.nr by omega]
  rfl

/-! ### A whole-block word -/

/-- The whole-block word of a direction, as `uprogWithBlock` writes it. -/
def blockUop (dir : Bool) (nr : Nat) : Instr :=
  if dir then .decryptBlock (BitVec.ofNat 4 nr) else .encryptBlock (BitVec.ofNat 4 nr)

/-- The expansion of the whole-block word of a direction (R82). -/
def blockUops (dir : Bool) (nr : Nat) : List Instr := if dir then decryptBlockUops nr else encryptBlockUops nr

/-- A command's store with values in `XK[0..XKLEN-1]` has every round key. -/
theorem State.answersKeys (s : State) (v : Variant) (h : s.Holds .xk 0 v.xklen) : AnswersKeys s.roundKey v.nr := by
  intro r hr
  refine s.roundKey_isOk v r hr ((s.firstUndef_none_iff _ _ _).mpr fun k hk => ?_)
  have hin : 16 * r + k < v.xklen := by unfold Variant.xklen; omega
  simpa using h (16 * r + k) hin

/-- A whole-block word and its expansion leave the same block, in 1 and in 4 `Nr` micro-ops. -/
theorem blockUop_expansion (dir : Bool) (s : State) (v : Variant) (b : Block) (hrun : s.Running v) (hxk : s.Holds .xk 0 v.xklen) :
    ∃ b', exec (blockUop dir v.nr) (s.after 0 b) = .next (s.after 1 b') ∧
      runUops (blockUops dir v.nr) (s.after 0 b) = .next (s.after (4 * v.nr) b') := by
  have hkeys := s.answersKeys v hxk
  cases dir with
  | false =>
    obtain ⟨b', hb⟩ := encryptBlockWith_isOk s.roundKey v.nr b hkeys
    exact ⟨b', exec_encryptBlock_after s v 0 b b' hrun hb, by simpa [blockUops] using runUops_encryptBlockUops s v 0 b b' hrun hb⟩
  | true =>
    obtain ⟨b', hb⟩ := decryptBlockWith_isOk s.roundKey v.nr b hkeys
    exact ⟨b', exec_decryptBlock_after s v 0 b b' hrun hb, by simpa [blockUops] using runUops_decryptBlockUops s v 0 b b' hrun hb⟩

/-- Settles O28, direction by direction. -/
theorem blockExpansion : Obligations.BlockExpansion := by
  intro s v b x hrun hst hxk
  obtain ⟨-, hbytes⟩ := (State.memRead_ok_iff _ _ _ _ _).mp hxk
  have hholds : s.Holds .xk 0 v.xklen := fun k hk => by rw [hbytes k hk]; rfl
  have hdir : ∀ dir, ∃ t, exec (blockUop dir v.nr) s = .next t ∧
      runUops (blockUops dir v.nr) s = .next { t with upc := s.upc + 4 * v.nr } := by
    intro dir
    obtain ⟨b', hword, hrun'⟩ := blockUop_expansion dir s v b hrun hholds
    rw [← s.eq_after_zero b hst] at hword hrun'
    rw [← s.after_withUpc 1] at hrun'
    exact ⟨_, hword, hrun'⟩
  exact ⟨hdir false, hdir true⟩

/-! ### A command -/

theorem exec_loadState_next (s : State) (b : Block) (hc : s.InCommand) (h : s.memRead .dinreg 0 16 = .ok b) :
    exec .loadState s = .next (s.after 1 b) := by
  have hw : s.memWrite .st 0 b = .ok (s.store .st 0 b) := (State.memWrite_ok_iff _ _ _ _ _).mpr ⟨rfl, by decide, rfl⟩
  have hx : exec .loadState s = .next { s.store .st 0 b with upc := (s.store .st 0 b).upc + 1 } :=
    uop_of_ok s (s.store .st 0 b) _ hc ((except_bind_ok_iff _ _ _).mpr ⟨b, h, hw⟩)
  rw [hx, State.store_st_upc]
  simp only [State.store, State.after]

theorem exec_storeOut_next (s : State) (b : Block) (hc : s.InCommand) (h : s.memRead .st 0 16 = .ok b) :
    exec .storeOut s = .next { s.store .dout 0 b with upc := s.upc + 1 } := by
  have hw : s.memWrite .dout 0 b = .ok (s.store .dout 0 b) := (State.memWrite_ok_iff _ _ _ _ _).mpr ⟨rfl, by decide, rfl⟩
  have hx : exec .storeOut s = .next { s.store .dout 0 b with upc := (s.store .dout 0 b).upc + 1 } :=
    uop_of_ok s (s.store .dout 0 b) _ hc ((except_bind_ok_iff _ _ _).mpr ⟨b, h, hw⟩)
  rw [hx, State.store_dout_upc]

/-- The number of micro-ops shows in `UPC` only. -/
theorem State.store_after_withUpc (s : State) (m n : Nat) (b : Block) :
    { (s.after m b).store .dout 0 b with upc := s.upc + n } = (s.after n b).store .dout 0 b := by
  simp only [State.store, State.after]

theorem exec_storeOut_after (s : State) (n : Nat) (b : Block) (hc : s.InCommand) :
    exec .storeOut (s.after n b) = .next ((s.after (n + 1) b).store .dout 0 b) := by
  rw [exec_storeOut_next _ b (State.inCommand_after hc n b) (s.memRead_after n b), State.after_upc, Nat.add_assoc,
    State.store_after_withUpc]

/-- The key copy and the word loop leave a running command with its input block and all its round keys. -/
theorem exec_expand_running (s : State) (v : Variant) (key : Vector Byte v.keySize) (hrun : s.Running v)
    (hkey : s.memRead .keyreg 0 v.keySize = .ok key) :
    ∃ t, exec .expand s = .next t ∧ t.Running v ∧ t.upc = s.upc + 1 ∧ t.memRead .dinreg 0 16 = s.memRead .dinreg 0 16 ∧
      t.Holds .xk 0 v.xklen := by
  obtain ⟨t, ht, hexp⟩ := exec_expand_expanded s v key hrun hkey
  have hlen : (expansion v key.toList).length = v.xklen := expansion_length v _ (by simp)
  have hholds : t.Holds .xk 0 v.xklen := fun k hk => by
    rw [hexp.xk _ (by omega)]
    simp [hlen, hk]
  have hframe := exec_expand_frame s t ht
  refine ⟨t, ht, ?_, ?_, ?_, hholds⟩
  · rw [hframe]; exact hrun
  · rw [hframe]
  · rw [hframe]; rfl

/-- Settles O29: `expand` and `loadState` are shared, the whole-block word and its expansion leave the same block, and `storeOut` is
shared. -/
theorem commandExpansion : Obligations.CommandExpansion := by
  intro s v dir key b hrun hkey hdin
  obtain ⟨t, hexpand, hrun', hupc, hdin', hxk⟩ := exec_expand_running s v key hrun hkey
  have hload := exec_loadState_next t b hrun'.1 (hdin'.trans hdin)
  obtain ⟨b', hword, hblock⟩ := blockUop_expansion dir (t.after 1 b) v b (State.running_after hrun' 1 b)
    (hxk.congr fun a => by simp only [State.location, State.after_xk])
  rw [← (t.after 1 b).eq_after_zero b (t.memRead_after 1 b)] at hword hblock
  have hstore := fun n => exec_storeOut_after (t.after 1 b) n b' (State.inCommand_after hrun'.1 1 b)
  have hlast : s.upc + (4 * v.nr + 3) = (t.after 1 b).upc + (4 * v.nr + 1) := by
    rw [State.after_upc, hupc]
    omega
  refine ⟨((t.after 1 b).after 2 b').store .dout 0 b', ?_, ?_, ?_⟩
  · show runUops [.expand, .loadState, blockUop dir v.nr, .storeOut] s = _
    rw [runUops_cons _ _ _ _ hexpand, runUops_cons _ _ _ _ hload, runUops_cons _ _ _ _ hword, runUops_cons _ _ _ _ (hstore 1)]
    rfl
  · simp [State.after, hupc]
  · show runUops (.expand :: .loadState :: (blockUops dir v.nr ++ [.storeOut])) s = _
    rw [runUops_cons _ _ _ _ hexpand, runUops_cons _ _ _ _ hload, runUops_append _ _ _ _ hblock,
      runUops_cons _ _ _ _ (hstore _), hlast, State.store_after_withUpc]
    rfl

end Sys2Proof.Machine
end

section
/-! PROOF. The four single-row shifts in any order are the one shift of all rows (30_encoding.md rule R82; O22): each replaces its own
row, so that after all four every row has been replaced once. -/

namespace Sys2Proof.Machine

open Sys2Proof

/-! ### Rows of a block -/

/-- Row `r` of a block (R13). -/
def blockRow (b : Block) (r : Nat) : Word4 := Vector.ofFn fun c : Fin 4 => blockByte b (4 * c.val + r)

theorem blockByte_eq (b : Block) (i : Nat) (hi : i < 16) : blockByte b i = b[i] := by simp [blockByte, hi]

theorem blockRow_getElem (b : Block) (r c : Nat) (hc : c < 4) (hr : r < 4) : (blockRow b r)[c] = b[4 * c + r] := by
  simp [blockRow, blockByte_eq b (4 * c + r) (by omega)]

/-- A block with row `n` replaced by a function of its old value. -/
def mapBlockRow (f : Nat → Word4 → Word4) (b : Block) (n : BitVec 4) : Block :=
  Vector.ofFn fun i : Fin 16 => if i.val % 4 = n.toNat then (f n.toNat (blockRow b n.toNat))[i.val / 4] else b[i]

theorem mapBlockRow_getElem (f : Nat → Word4 → Word4) (b : Block) (n : BitVec 4) (i : Nat) (hi : i < 16) :
    (mapBlockRow f b n)[i] = if i % 4 = n.toNat then (f n.toNat (blockRow b n.toNat))[i / 4] else b[i] := by
  simp [mapBlockRow]

theorem blockRow_mapBlockRow_other (f : Nat → Word4 → Word4) (b : Block) (n : BitVec 4) (r : Nat) (hr : r < 4)
    (h : r ≠ n.toNat) : blockRow (mapBlockRow f b n) r = blockRow b r := by
  ext1 c hc
  rw [blockRow_getElem _ _ _ hc hr, blockRow_getElem _ _ _ hc hr, mapBlockRow_getElem, if_neg (by omega)]

/-- After a list of different rows, each row in the list has been replaced once and the others stand. -/
theorem foldl_mapBlockRow_getElem (f : Nat → Word4 → Word4) (rows : List (BitVec 4)) (hnodup : rows.Nodup) (b : Block) (i : Nat)
    (hi : i < 16) :
    (rows.foldl (mapBlockRow f) b)[i] =
      if ∃ n ∈ rows, i % 4 = n.toNat then (f (i % 4) (blockRow b (i % 4)))[i / 4] else b[i] := by
  induction rows generalizing b with
  | nil => simp
  | cons n rows ih =>
    obtain ⟨hnot, hnodup⟩ := List.nodup_cons.mp hnodup
    rw [List.foldl_cons, ih hnodup, mapBlockRow_getElem]
    by_cases h : i % 4 = n.toNat
    · have hlater : ¬∃ n' ∈ rows, i % 4 = n'.toNat := by
        rintro ⟨n', hn', h'⟩
        exact hnot (BitVec.eq_of_toNat_eq (h.symm.trans h') ▸ hn')
      rw [if_neg hlater, if_pos h, if_pos ⟨n, List.mem_cons_self, h⟩, h]
    · rw [blockRow_mapBlockRow_other f b n _ (by omega) h]
      simp [h]

/-- Every order of the four rows replaces every row once. -/
theorem foldl_mapBlockRow_all (f : Nat → Word4 → Word4) (rows : List (BitVec 4)) (hperm : rows.Perm [0, 1, 2, 3]) (b : Block)
    (i : Nat) (hi : i < 16) : (rows.foldl (mapBlockRow f) b)[i] = (f (i % 4) (blockRow b (i % 4)))[i / 4] := by
  have hmem : ∃ n ∈ rows, i % 4 = n.toNat := by
    have hr : i % 4 < 4 := by omega
    simp only [hperm.mem_iff]
    interval_cases i % 4 <;> decide
  rw [foldl_mapBlockRow_getElem f rows (hperm.nodup_iff.mpr (by decide)) b i hi, if_pos hmem]

theorem foldl_rotateRowLeft (rows : List (BitVec 4)) (hperm : rows.Perm [0, 1, 2, 3]) (b : Block) :
    rows.foldl (mapBlockRow rotateRowLeft) b = shiftRowsFn b := by
  ext1 i hi
  rw [foldl_mapBlockRow_all _ rows hperm b i hi]
  simp [rotateRowLeft, blockRow_getElem, Nat.mod_lt, shiftRowsFn, shiftRowsPerm, cellIndex]

theorem foldl_rotateRowRight (rows : List (BitVec 4)) (hperm : rows.Perm [0, 1, 2, 3]) (b : Block) :
    rows.foldl (mapBlockRow rotateRowRight) b = invShiftRowsFn b := by
  ext1 i hi
  have hcol : i / 4 + 4 - i % 4 = i / 4 + (4 - i % 4) := by omega
  rw [foldl_mapBlockRow_all _ rows hperm b i hi]
  simp [rotateRowRight, blockRow_getElem, Nat.mod_lt, invShiftRowsFn, invShiftRowsPerm, cellIndex, hcol]

/-! ### The micro-ops -/

/-- A row access on a block in `ST` replaces the row of the block. -/
theorem State.mapRow_after (s : State) (m : Nat) (b : Block) (n : BitVec 4) (f : Nat → Word4 → Word4) (hn : n.toNat < 4) :
    (s.after m b).mapRow n f = .ok (s.after m (mapBlockRow f b n)) := by
  have hslot : ∀ i (hi : i < 16), slotAt (s.after m b).st i = some b[i] := s.slotAt_after m b
  have hread : (s.after m b).readRow n.toNat = .ok (blockRow b n.toNat) :=
    (State.readRow_ok_iff _ _ _ (by omega)).mpr fun c hc => by
      simp [State.location, hslot (4 * c + n.toNat) (by omega), blockRow_getElem b n.toNat c hc hn]
  obtain ⟨t, hwrite, hframe, hrow, hother⟩ :=
    (s.after m b).writeRow_ok n.toNat (f n.toNat (blockRow b n.toNat)) (by omega)
  have hst : t.memRead .st 0 16 = .ok (mapBlockRow f b n) := by
    refine (State.memRead_ok_iff _ _ _ _ _).mpr ⟨by decide, fun i hi => ?_⟩
    rw [Nat.zero_add, mapBlockRow_getElem]
    show slotAt t.st i = _
    by_cases h : i % 4 = n.toNat
    · have hi' : 4 * (i / 4) + n.toNat = i := by omega
      have hnew := hrow (i / 4) (by omega)
      rw [hi'] at hnew
      rw [hnew, if_pos h]
    · have hold : slotAt t.st i = slotAt (s.after m b).st i := by simp only [slotAt, hother i h]
      rw [hold, hslot i hi, if_neg h]
  have ht : t = s.after m (mapBlockRow f b n) := s.eq_after t m _ (hframe.trans (by simp only [State.after])) hst
  have hlegal : legalRowArg n = true := decide_eq_true (by omega)
  simp only [State.mapRow, hlegal, if_true, hread, hwrite, ht, bind, Except.bind]

/-- A run of single-row micro-ops. -/
theorem runUops_mapRow (op : BitVec 4 → Instr) (f : Nat → Word4 → Word4)
    (hop : ∀ n s, exec (op n) s = uop s fun _ => s.mapRow n f) (rows : List (BitVec 4)) (hrows : ∀ n ∈ rows, n.toNat < 4)
    (s : State) (m : Nat) (b : Block) (hc : s.InCommand) :
    runUops (rows.map op) (s.after m b) = .next (s.after (m + rows.length) (rows.foldl (mapBlockRow f) b)) := by
  induction rows generalizing m b with
  | nil => rfl
  | cons n rows ih =>
    obtain ⟨hn, hrows⟩ := List.forall_mem_cons.mp hrows
    have hx : exec (op n) (s.after m b) = .next (s.after (m + 1) (mapBlockRow f b n)) := by
      rw [hop, uop_of_ok _ _ _ (State.inCommand_after hc m b) (s.mapRow_after m b n f hn), State.after_upc, Nat.add_assoc,
        State.after_withUpc]
    rw [List.map_cons, runUops_cons _ _ _ _ hx, ih hrows, List.length_cons, List.foldl_cons, Nat.add_assoc, Nat.add_comm 1]

/-- The four rows in any order. -/
theorem runUops_allRows (op : BitVec 4 → Instr) (f : Nat → Word4 → Word4)
    (hop : ∀ n s, exec (op n) s = uop s fun _ => s.mapRow n f) (rows : List (BitVec 4)) (hperm : rows.Perm [0, 1, 2, 3])
    (s : State) (b : Block) (hc : s.InCommand) :
    runUops (rows.map op) (s.after 0 b) = .next (s.after 4 (rows.foldl (mapBlockRow f) b)) := by
  have hrows : ∀ n ∈ rows, n.toNat < 4 := by
    simp only [hperm.mem_iff]
    decide
  rw [runUops_mapRow op f hop rows hrows s 0 b hc, hperm.length_eq]
  rfl

/-- Settles O22, left and right. -/
theorem rowByRow : Obligations.RowByRow := by
  intro s b rows hc hst hperm
  have hs := s.eq_after_zero b hst
  have hleft := runUops_allRows .shiftRow rotateRowLeft (fun _ _ => rfl) rows hperm s b hc
  have hright := runUops_allRows .invShiftRow rotateRowRight (fun _ _ => rfl) rows hperm s b hc
  rw [foldl_rotateRowLeft rows hperm, ← hs, ← s.after_withUpc 1] at hleft
  rw [foldl_rotateRowRight rows hperm, ← hs, ← s.after_withUpc 1] at hright
  have hshift := exec_shiftRows_after s 0 b hc
  have hinv := exec_invShiftRows_after s 0 b hc
  rw [← hs] at hshift hinv
  exact ⟨⟨_, hshift, hleft⟩, ⟨_, hinv, hright⟩⟩

end Sys2Proof.Machine
end

section
/-! PROOF. The lookup tables (40_lookup_tables.md): the two S-boxes undo each other (O6), the S-box is the affine step of the field
inverse (O7), and the round constants double from location 1 to 14 (O8). -/

namespace Sys2Proof.Machine

open Sys2Proof

/-! ### The two S-box tables -/

theorem inverseSBoxLookup_leftInverse : Function.LeftInverse inverseSBoxLookup sBoxLookup := by
  unfold Function.LeftInverse
  decide

/-- On a finite type an injective function into itself is onto, so the left inverse is a right inverse too. -/
theorem inverseSBoxLookup_rightInverse : Function.RightInverse inverseSBoxLookup sBoxLookup :=
  have hinj : Function.Injective sBoxLookup := inverseSBoxLookup_leftInverse.injective
  inverseSBoxLookup_leftInverse.rightInverse_of_surjective (Finite.injective_iff_surjective.mp hinj)

/-- No fixed point, and no byte sent to its complement (R91). -/
theorem sBoxLookup_ne (b : Byte) : sBoxLookup b ≠ b ∧ sBoxLookup b ≠ b ^^^ 0xff := by
  revert b
  decide

/-- Settles O6: one table undoes the other by evaluation, hence also the other way round. -/
theorem sBoxTables : Obligations.SBoxTables := fun b =>
  ⟨inverseSBoxLookup_leftInverse b, inverseSBoxLookup_rightInverse b, sBoxLookup_ne b⟩

/-! ### The closed form -/

/-- The inverse of the affine step: `u ^ 0x63` with its bits recombined by the rotations 1, 3 and 6. -/
def sBoxAffineInverse (u : Byte) : Byte :=
  (u ^^^ 0x63).rotateLeft 1 ^^^ (u ^^^ 0x63).rotateLeft 3 ^^^ (u ^^^ 0x63).rotateLeft 6

theorem sBoxAffine_sBoxAffineInverse (u : Byte) : sBoxAffine (sBoxAffineInverse u) = u := by
  revert u
  decide

/-- The field inverse of a byte, 0 for 0, as the S-box holds it beneath its affine step. -/
def sBoxInverse (b : Byte) : Byte := sBoxAffineInverse (sBoxLookup b)

theorem sBoxInverse_zero : sBoxInverse 0 = 0 := by decide

theorem galoisMultiply_sBoxInverse (b : Byte) (h : b ≠ 0) : galoisMultiply b (sBoxInverse b) = 1 := by
  revert b
  decide

/-- Settles O7: undoing the affine step on the table's entry leaves the inverse of the address. -/
theorem sBoxClosedForm : Obligations.SBoxClosedForm := by
  intro b
  refine ⟨sBoxInverse b, ?_, galoisMultiply_sBoxInverse b, (sBoxAffine_sBoxAffineInverse _).symm⟩
  rintro rfl
  exact sBoxInverse_zero

/-! ### The round constants -/

/-- Each entry of the ROM from location 2 on is the double of the one before (R95). -/
theorem rconTable_double :
    ∀ i < rconTable.length, 2 ≤ i → (rconTable[i]?).getD 0 = galoisMultiply ((rconTable[i - 1]?).getD 0) 0x02 := by
  decide

/-- The indices that have no round constant (R95). -/
theorem roundConstant_refused (i : Nat) (h : i = 0 ∨ 15 ≤ i) : roundConstant i = .error (.roundConstantIndex i) := by
  cases i with
  | zero => rfl
  | succ k =>
    have hnone : rconTable[k + 1]? = none := List.getElem?_eq_none (by simp [rconTable]; omega)
    simp [roundConstant, hnone]

/-- Settles O8: inside the domain the constants are the table's, whose entries double; outside it they are refused. -/
theorem roundConstants : Obligations.RoundConstants := by
  refine ⟨rfl, fun i h2 h14 => ?_, roundConstant_refused, rfl⟩
  exact ⟨_, _, roundConstant_eq (i - 1) (by omega) (by omega), roundConstant_eq i (by omega) h14,
    rconTable_double i (Nat.lt_succ_of_le h14) h2⟩

end Sys2Proof.Machine
end

section
/-! PROOF. What `expand` leaves (O23): `Expand`'s sequence below `XKLEN`, and above it the locations of the store as they were. -/

namespace Sys2Proof.Machine

open Sys2Proof

/-! ### The store above the expanded key -/

theorem Variant.keySize_mod (v : Variant) : v.keySize % 4 = 0 := by cases v <;> decide

/-- One iteration writes no location behind its word (R106). -/
theorem expandWord_location_above (keySize : Nat) (s t : State) (h : expandWord keySize s = .ok t) (a : Nat)
    (ha : s.off.val + 4 ≤ a) : t.location .xk a = s.location .xk a := by
  simp only [expandWord, except_bind_ok_iff] at h
  obtain ⟨off, hoff, rci, -, prev, -, ⟨w, rci'⟩, -, earlier, -, u, hu, hu'⟩ := h
  obtain ⟨-, rfl⟩ := (Slot.get_ok_iff _ _ _).mp hoff
  obtain ⟨hrom, hsize, rfl⟩ := (State.memWrite_ok_iff _ _ _ _ _).mp hu
  cases hu'
  exact s.location_store_other .xk _ _ hrom hsize .xk a (.inr (.inr ha))

/-- The word loop writes whole words below `XKLEN` only (R102, R108). -/
theorem expandLoop_location_above (keySize xklen n : Nat) (s t : State) (h : expandLoop keySize xklen n s = .ok t)
    (hoff : s.off.val % 4 = 0) (hlen : xklen % 4 = 0) (a : Nat) (ha : xklen ≤ a) :
    t.location .xk a = s.location .xk a := by
  induction n generalizing s with
  | zero => cases h; rfl
  | succ n ih =>
    obtain ⟨off, hget, h⟩ := (except_bind_ok_iff _ _ _).mp h
    obtain ⟨-, rfl⟩ := (Slot.get_ok_iff _ _ _).mp hget
    split at h
    · obtain ⟨u, hu, h⟩ := (except_bind_ok_iff _ _ _).mp h
      have hnext : u.off.val = s.off.val + 4 := by rw [expandWord_frame _ _ _ hu]; rfl
      rw [ih u h (by omega), expandWord_location_above _ _ _ hu a (by omega)]
    · cases h; rfl

/-- The key copy leaves `OFF` behind the key (R101). -/
theorem keyCopy_off (keySize : Nat) (s t : State) (h : keyCopy keySize s = .ok t) (hk : keySize ≤ 240) :
    t.off = Slot.hold keySize := by
  obtain ⟨key, -, rfl⟩ := (keyCopy_ok_iff _ _ _ hk).mp h
  rfl

/-- The key copy writes no location behind the key (R101). -/
theorem keyCopy_location_above (keySize : Nat) (s t : State) (h : keyCopy keySize s = .ok t) (hk : keySize ≤ 240) (a : Nat)
    (ha : keySize ≤ a) : t.location .xk a = s.location .xk a := by
  obtain ⟨key, -, rfl⟩ := (keyCopy_ok_iff _ _ _ hk).mp h
  exact s.location_store_other .xk 0 key rfl (by simp only [Space.size]; omega) .xk a (.inr (.inr (by omega)))

/-- `expand` leaves the store above the expanded key as it was. -/
theorem exec_expand_location_above (s t : State) (v : Variant) (hr : s.Running v) (h : exec .expand s = .next t) (a : Nat)
    (ha : v.xklen ≤ a) : t.location .xk a = s.location .xk a := by
  obtain ⟨v', s₁, s₂, hr', hcopy, hloop, rfl⟩ := exec_expand_next s t h
  obtain rfl : v' = v := Option.some.inj (hr'.2.symm.trans hr.2)
  have hk := v'.keySize_le
  have hlt := v'.keySize_lt_xklen
  have hoff : s₁.off.val % 4 = 0 := by
    rw [keyCopy_off _ _ _ hcopy (by omega)]
    exact v'.keySize_mod
  calc s₂.location .xk a
      = s₁.location .xk a := expandLoop_location_above _ _ _ _ _ hloop hoff v'.xklen_mod a ha
    _ = s.location .xk a := keyCopy_location_above _ _ _ hcopy (by omega) a (by omega)

/-! ### The counters after the last word -/

/-- The number of the next application of case 1 at the end of the schedule is the table of R108. -/
theorem rciAt_xklen (v : Variant) : rciAt v v.xklen = rciAfter v := by cases v <;> decide

/-- Settles O23: the word loop builds the function's sequence in the store, and writes nothing above it. -/
theorem expandResult : Obligations.ExpandResult := by
  intro s v key hr hkey
  obtain ⟨t, ht, hexp⟩ := exec_expand_expanded s v key hr hkey
  have hv : variantOf key.toList.length = some v := by rw [Vector.length_toList]; cases v <;> rfl
  have hlen : (expansion v key.toList).length = v.xklen := expansion_length v _ (by simp)
  have hoff : t.off = Slot.hold v.xklen := by rw [hexp.off, hlen]
  have hrci : t.rci = Slot.hold (rciAfter v) := by rw [hexp.rci, hlen, rciAt_xklen]
  have hknown : t.t.known = true := by
    rw [hexp.t (by rw [hlen]; exact v.keySize_lt_xklen)]
    rfl
  refine ⟨t, expansion v key.toList, ht, expandFn_eq v _ hv, hlen, fun a ha => hexp.xk a (by omega),
    exec_expand_location_above s t v hr ht, hknown, ?_⟩
  rw [← hoff, ← hrci]
  exact exec_expand_frame s t ht

end Sys2Proof.Machine
end

section
/-! PROOF. The multiplier (42_galois_multiplier.md): the laws of the field (O9) and the constants' doublings (O10). Every map
that keeps exclusive-or and doubling passes through the loop, and multiplying by a byte, from either side, is such a map. -/

namespace Sys2Proof.Machine

open Sys2Proof

/-! ### Maps that keep exclusive-or and doubling -/

/-- Doubling keeps exclusive-or: the shift does, and the reductions of two overflows cancel. -/
theorem xtime_xor (a b : Byte) : xtime (a ^^^ b) = xtime a ^^^ xtime b := by
  simp only [xtime, BitVec.getLsbD_xor, BitVec.shiftLeft_xor_distrib]
  cases a.getLsbD 7 <;> cases b.getLsbD 7
  case false.false => rfl
  case false.true => exact BitVec.xor_assoc _ _ _
  case true.false =>
    show a <<< 1 ^^^ b <<< 1 ^^^ 0x1b = (a <<< 1 ^^^ 0x1b) ^^^ b <<< 1
    ac_rfl
  case true.true =>
    calc a <<< 1 ^^^ b <<< 1
        = a <<< 1 ^^^ b <<< 1 ^^^ (0x1b ^^^ 0x1b) := by simp
      _ = (a <<< 1 ^^^ 0x1b) ^^^ (b <<< 1 ^^^ 0x1b) := by ac_rfl

/-- A map of bytes that is additive and commutes with doubling: linear over the field, said without multiplication. -/
structure IsXtimeLinear (f : Byte → Byte) : Prop where
  map_xor (a b : Byte) : f (a ^^^ b) = f a ^^^ f b
  map_xtime (a : Byte) : f (xtime a) = xtime (f a)

theorem isXtimeLinear_xtime : IsXtimeLinear xtime := ⟨xtime_xor, fun _ => rfl⟩

theorem IsXtimeLinear.map_zero {f : Byte → Byte} (hf : IsXtimeLinear f) : f 0 = 0 := by
  simpa using hf.map_xor 0 0

/-- Such a map may be applied before the loop or after it. -/
theorem IsXtimeLinear.map_galoisLoop {f : Byte → Byte} (hf : IsXtimeLinear f) (n : Nat) (a b p : Byte) :
    f (galoisLoop n a b p) = galoisLoop n (f a) b (f p) := by
  induction n generalizing a b p with
  | zero => rfl
  | succ n ih => simp only [galoisLoop, ih, hf.map_xtime, apply_ite f, hf.map_xor]

theorem IsXtimeLinear.map_galoisMultiply {f : Byte → Byte} (hf : IsXtimeLinear f) (a b : Byte) :
    f (galoisMultiply a b) = galoisMultiply (f a) b := by
  rw [galoisMultiply, hf.map_galoisLoop, hf.map_zero, galoisMultiply]

/-! ### Multiplication by a byte is such a map -/

/-- The loop is additive in the multiple of `a` and the accumulator together. -/
theorem galoisLoop_xor (n : Nat) (a a' b p p' : Byte) :
    galoisLoop n (a ^^^ a') b (p ^^^ p') = galoisLoop n a b p ^^^ galoisLoop n a' b p' := by
  induction n generalizing a a' b p p' with
  | zero => rfl
  | succ n ih =>
    simp only [galoisLoop, xtime_xor, ← ih]
    cases b.getLsbD 0
    case false => rfl
    case true =>
      simp only [if_true]
      ac_rfl

theorem isXtimeLinear_galoisMultiply_left (b : Byte) : IsXtimeLinear (galoisMultiply · b) where
  map_xor a a' := galoisLoop_xor 8 a a' b 0 0
  map_xtime a := (isXtimeLinear_xtime.map_galoisMultiply a b).symm

@[simp] theorem galoisMultiply_zero_left (b : Byte) : galoisMultiply 0 b = 0 := (isXtimeLinear_galoisMultiply_left b).map_zero

@[simp] theorem galoisMultiply_one_left (b : Byte) : galoisMultiply 1 b = b := by
  revert b
  decide

/-- `a` is `1 · a`, and multiplying by `b` from the right turns the 1 into `b`. -/
theorem galoisMultiply_comm (a b : Byte) : galoisMultiply a b = galoisMultiply b a :=
  calc galoisMultiply a b
      = galoisMultiply (galoisMultiply 1 a) b := by rw [galoisMultiply_one_left]
    _ = galoisMultiply (galoisMultiply 1 b) a := (isXtimeLinear_galoisMultiply_left b).map_galoisMultiply 1 a
    _ = galoisMultiply b a := by rw [galoisMultiply_one_left]

theorem isXtimeLinear_galoisMultiply (a : Byte) : IsXtimeLinear (galoisMultiply a) := by
  rw [show galoisMultiply a = (galoisMultiply · a) from funext (galoisMultiply_comm a)]
  exact isXtimeLinear_galoisMultiply_left a

@[simp] theorem galoisMultiply_zero (a : Byte) : galoisMultiply a 0 = 0 := (isXtimeLinear_galoisMultiply a).map_zero

@[simp] theorem galoisMultiply_one (a : Byte) : galoisMultiply a 1 = a := by
  rw [galoisMultiply_comm, galoisMultiply_one_left]

theorem galoisMultiply_xor (a b c : Byte) : galoisMultiply a (b ^^^ c) = galoisMultiply a b ^^^ galoisMultiply a c :=
  (isXtimeLinear_galoisMultiply a).map_xor b c

theorem galoisMultiply_xtime (a b : Byte) : galoisMultiply a (xtime b) = xtime (galoisMultiply a b) :=
  (isXtimeLinear_galoisMultiply a).map_xtime b

theorem galoisMultiply_assoc (a b c : Byte) :
    galoisMultiply (galoisMultiply a b) c = galoisMultiply a (galoisMultiply b c) :=
  ((isXtimeLinear_galoisMultiply a).map_galoisMultiply b c).symm

/-! ### Inverses -/

theorem sBoxInverse_galoisMultiply_cancel (a b : Byte) (ha : a ≠ 0) :
    galoisMultiply (sBoxInverse a) (galoisMultiply a b) = b := by
  rw [← galoisMultiply_assoc, galoisMultiply_comm _ a, galoisMultiply_sBoxInverse a ha, galoisMultiply_one_left]

theorem existsUnique_galoisMultiply_eq_one (b : Byte) (hb : b ≠ 0) : ∃! v : Byte, galoisMultiply b v = 1 := by
  refine ⟨sBoxInverse b, galoisMultiply_sBoxInverse b hb, fun v hv => ?_⟩
  rw [← sBoxInverse_galoisMultiply_cancel b v hb, hv, galoisMultiply_one]

theorem eq_zero_or_eq_zero_of_galoisMultiply (a b : Byte) (h : galoisMultiply a b = 0) : a = 0 ∨ b = 0 := by
  refine or_iff_not_imp_left.mpr fun ha => ?_
  rw [← sBoxInverse_galoisMultiply_cancel a b ha, h, galoisMultiply_zero]

/-- Settles O9: multiplication is linear in each operand, so it commutes and associates; the S-box holds the inverses. -/
theorem galoisFieldLaws : Obligations.GaloisFieldLaws :=
  ⟨fun a => ⟨galoisMultiply_zero a, galoisMultiply_one a⟩, galoisMultiply_comm, galoisMultiply_assoc, galoisMultiply_xor,
    galoisMultiply_zero_left, existsUnique_galoisMultiply_eq_one, eq_zero_or_eq_zero_of_galoisMultiply⟩

/-! ### The constants of the core -/

/-- Each constant is the listed exclusive-or of doublings of 1. -/
theorem constants_eq_xtime :
    (0x02 : Byte) = xtime 1 ∧ (0x03 : Byte) = xtime 1 ^^^ 1 ∧
    (0x09 : Byte) = xtime (xtime (xtime 1)) ^^^ 1 ∧
    (0x0b : Byte) = xtime (xtime (xtime 1)) ^^^ xtime 1 ^^^ 1 ∧
    (0x0d : Byte) = xtime (xtime (xtime 1)) ^^^ xtime (xtime 1) ^^^ 1 ∧
    (0x0e : Byte) = xtime (xtime (xtime 1)) ^^^ xtime (xtime 1) ^^^ xtime 1 := by decide

/-- Settles O10: multiplication by `a` carries the constants' doublings of 1 to doublings of `a`. -/
theorem multiplyByConstants : Obligations.MultiplyByConstants := by
  intro a
  obtain ⟨h02, h03, h09, h0b, h0d, h0e⟩ := constants_eq_xtime
  rw [h02, h03, h09, h0b, h0d, h0e]
  simp only [galoisMultiply_xor, galoisMultiply_xtime, galoisMultiply_one, and_self]

end Sys2Proof.Machine
end

section
/-! PROOF. The state transforms (43_state_transforms.md): what each leaves in `ST` (O11 to O19), the printed row permutations (O20), and
that each transform and its inverse restore the state (O21). A transform runs as a function on the block in `ST` (`RunsAs`), so a
statement about micro-ops is one about functions on blocks; the two single rows, which read a row alone, stand apart. -/

namespace Sys2Proof.Machine

open Sys2Proof

/-! ### Micro-ops that run as a function on the block in `ST` -/

/-- At any point of a run from `s` the micro-op applies `f` to the block in `ST`. -/
def RunsAs (s : State) (i : Instr) (f : Block → Block) : Prop :=
  ∀ n b, exec i (s.after n b) = .next (s.after (n + 1) (f b))

theorem RunsAs.exec_next {s : State} {i : Instr} {f : Block → Block} (h : RunsAs s i f) {b : Block}
    (hst : s.memRead .st 0 16 = .ok b) :
    ∃ t, exec i s = .next t ∧ OnlySTChanged s t ∧ ∀ (k : Nat) (hk : k < 16), slotAt t.st k = some (f b)[k] := by
  have hx := h 0 b
  rw [← s.eq_after_zero b hst] at hx
  exact ⟨_, hx, rfl, s.slotAt_after 1 (f b)⟩

/-- The same by row and column (R13). -/
theorem RunsAs.exec_cells {s : State} {i : Instr} {f : Block → Block} (h : RunsAs s i f) {b : Block}
    (hst : s.memRead .st 0 16 = .ok b) {cell : Nat → Nat → Option Byte}
    (hf : ∀ r c (_ : r < 4) (_ : c < 4), some (f b)[4 * c + r] = cell r c) :
    ∃ t, exec i s = .next t ∧ OnlySTChanged s t ∧ ∀ r c, r < 4 → c < 4 → slotAt t.st (4 * c + r) = cell r c := by
  obtain ⟨t, hx, hframe, hbytes⟩ := h.exec_next hst
  exact ⟨t, hx, hframe, fun r c hr hc => (hbytes _ (by omega)).trans (hf r c hr hc)⟩

theorem RunsAs.runUops_pair {s : State} {i j : Instr} {f g : Block → Block} (hi : RunsAs s i f) (hj : RunsAs s j g) {b : Block}
    (hst : s.memRead .st 0 16 = .ok b) : runUops [i, j] s = .next (s.after 2 (g (f b))) := by
  have hrun : runUops [i, j] (s.after 0 b) = .next (s.after 2 (g (f b))) := by
    rw [runUops_cons _ _ _ _ (hi 0 b), runUops_cons _ _ _ _ (hj 1 (f b)), runUops]
  rwa [← s.eq_after_zero b hst] at hrun

/-- Two micro-ops whose functions cancel leave the state as it was but for `UPC` (R138). -/
theorem RunsAs.runUops_inverse {s : State} {i j : Instr} {f g : Block → Block} (hi : RunsAs s i f) (hj : RunsAs s j g)
    (hgf : Function.LeftInverse g f) {b : Block} (hst : s.memRead .st 0 16 = .ok b) :
    runUops [i, j] s = .next { s with upc := s.upc + 2 } := by
  rw [hi.runUops_pair hj hst, hgf b, ← s.after_withUpc 0, ← s.eq_after_zero b hst]

theorem RunsAs.runUops_comm {s : State} {i j : Instr} {f g : Block → Block} (hi : RunsAs s i f) (hj : RunsAs s j g)
    (hfg : Function.Commute f g) {b : Block} (hst : s.memRead .st 0 16 = .ok b) : runUops [i, j] s = runUops [j, i] s := by
  rw [hi.runUops_pair hj hst, hj.runUops_pair hi hst, hfg b]

section Transforms

variable {s : State} (hc : s.InCommand)
include hc

theorem runsAs_subBytes : RunsAs s .subBytes subBytesFn := fun n b => exec_subBytes_after s n b hc
theorem runsAs_invSubBytes : RunsAs s .invSubBytes invSubBytesFn := fun n b => exec_invSubBytes_after s n b hc
theorem runsAs_shiftRows : RunsAs s .shiftRows shiftRowsFn := fun n b => exec_shiftRows_after s n b hc
theorem runsAs_invShiftRows : RunsAs s .invShiftRows invShiftRowsFn := fun n b => exec_invShiftRows_after s n b hc
theorem runsAs_mixColumns : RunsAs s .mixColumns mixColumnsFn := fun n b => exec_mixColumns_after s n b hc
theorem runsAs_invMixColumns : RunsAs s .invMixColumns invMixColumnsFn := fun n b => exec_invMixColumns_after s n b hc

theorem runsAs_mapRow {i : Instr} {n : BitVec 4} {f : Nat → Word4 → Word4}
    (hi : ∀ s, exec i s = uop s fun _ => s.mapRow n f) (hn : n.toNat ≤ 3) : RunsAs s i fun b => mapBlockRow f b n := fun m b => by
  rw [hi, uop_of_ok _ _ _ (State.inCommand_after hc m b) (s.mapRow_after m b n f (by omega)), State.after_upc, Nat.add_assoc,
    State.after_withUpc]

end Transforms

theorem runsAs_addRoundKey {s : State} {v : Variant} {r : BitVec 4} {k : Block} (hrun : s.Running v) (hr : r.toNat ≤ v.nr)
    (hk : s.memRead .xk (16 * r.toNat) 16 = .ok k) : RunsAs s (.addRoundKey r) (addRoundKeyFn · k) := fun n b => by
  have harg : roundKeyArg r.toNat = r := BitVec.ofNat_toNat _ _
  have hx := exec_addRoundKey_after s v n r.toNat b k hrun hr hk
  rwa [harg] at hx

/-! ### The substitutions (R126, R127) -/

theorem subBytesFn_getElem (b : Block) (i : Nat) (hi : i < 16) : (subBytesFn b)[i] = sBoxLookup b[i] := by simp [subBytesFn]

theorem invSubBytesFn_getElem (b : Block) (i : Nat) (hi : i < 16) : (invSubBytesFn b)[i] = inverseSBoxLookup b[i] := by
  simp [invSubBytesFn]

theorem invSubBytesFn_leftInverse : Function.LeftInverse invSubBytesFn subBytesFn := fun b => by
  ext1 i hi
  rw [invSubBytesFn_getElem, subBytesFn_getElem, inverseSBoxLookup_leftInverse]

theorem subBytesFn_leftInverse : Function.LeftInverse subBytesFn invSubBytesFn := fun b => by
  ext1 i hi
  rw [subBytesFn_getElem, invSubBytesFn_getElem, inverseSBoxLookup_rightInverse]

/-- Settles O11: it runs as `subBytesFn`. -/
theorem subBytes : Obligations.SubBytes :=
  ⟨rfl, fun _ b hc hst => by simpa only [subBytesFn_getElem b] using (runsAs_subBytes hc).exec_next hst⟩

/-- Settles O12: it runs as `invSubBytesFn`. -/
theorem invSubBytes : Obligations.InvSubBytes :=
  ⟨rfl, fun _ b hc hst => by simpa only [invSubBytesFn_getElem b] using (runsAs_invSubBytes hc).exec_next hst⟩

/-! ### All four rows (R130, R131, R132) -/

theorem shiftRowsFn_getElem (b : Block) (r c : Nat) (hr : r < 4) (hc : c < 4) :
    (shiftRowsFn b)[4 * c + r] = b[4 * ((c + r) % 4) + r] := by
  have hrow : (4 * c + r) % 4 = r := by omega
  have hcol : (4 * c + r) / 4 = c := by omega
  simp only [shiftRowsFn, Vector.getElem_ofFn, shiftRowsPerm, cellIndex, Fin.getElem_fin, hrow, hcol]

theorem invShiftRowsFn_getElem (b : Block) (r c : Nat) (hr : r < 4) (hc : c < 4) :
    (invShiftRowsFn b)[4 * c + r] = b[4 * ((c + 4 - r) % 4) + r] := by
  have hrow : (4 * c + r) % 4 = r := by omega
  have hcol : (4 * c + r) / 4 = c := by omega
  simp only [invShiftRowsFn, Vector.getElem_ofFn, invShiftRowsPerm, cellIndex, Fin.getElem_fin, hrow, hcol]

theorem invShiftRowsPerm_leftInverse : Function.LeftInverse invShiftRowsPerm shiftRowsPerm := by
  unfold Function.LeftInverse
  decide

theorem shiftRowsPerm_leftInverse : Function.LeftInverse shiftRowsPerm invShiftRowsPerm := by
  unfold Function.LeftInverse
  decide

/-- Settles O20: the tables by evaluation, the formulas by arithmetic. -/
theorem rowPermutations : Obligations.RowPermutations := by
  refine ⟨by decide, by decide, fun i => ⟨rfl, ?_, invShiftRowsPerm_leftInverse i, shiftRowsPerm_leftInverse i⟩⟩
  simp only [invShiftRowsPerm, cellIndex]
  omega

theorem invShiftRowsFn_leftInverse : Function.LeftInverse invShiftRowsFn shiftRowsFn := fun b => by
  ext1 i hi
  have hperm := shiftRowsPerm_leftInverse ⟨i, hi⟩
  simp [invShiftRowsFn, shiftRowsFn, hperm]

theorem shiftRowsFn_leftInverse : Function.LeftInverse shiftRowsFn invShiftRowsFn := fun b => by
  ext1 i hi
  have hperm := invShiftRowsPerm_leftInverse ⟨i, hi⟩
  simp [invShiftRowsFn, shiftRowsFn, hperm]

/-- A substitution of single bytes does not care where they stand (R138). -/
theorem subBytesFn_comm_shiftRowsFn : Function.Commute subBytesFn shiftRowsFn := fun b => by
  ext1 i hi
  simp [subBytesFn, shiftRowsFn]

theorem invSubBytesFn_comm_invShiftRowsFn : Function.Commute invSubBytesFn invShiftRowsFn := fun b => by
  ext1 i hi
  simp [invSubBytesFn, invShiftRowsFn]

theorem State.slotAt_st_of_memRead {s : State} {b : Block} (hst : s.memRead .st 0 16 = .ok b) (i : Nat) (hi : i < 16) :
    slotAt s.st i = some b[i] := by
  rw [s.eq_after_zero b hst]
  exact s.slotAt_after 0 b i hi

/-- Settles O15: it runs as `shiftRowsFn`. -/
theorem shiftRows : Obligations.ShiftRows :=
  ⟨rfl, fun _ b hc hst => (runsAs_shiftRows hc).exec_cells hst fun r c hr hc => by
    rw [shiftRowsFn_getElem b r c hr hc, State.slotAt_st_of_memRead hst]⟩

/-- Settles O16: it runs as `invShiftRowsFn`. -/
theorem invShiftRows : Obligations.InvShiftRows :=
  ⟨rfl, fun _ b hc hst => (runsAs_invShiftRows hc).exec_cells hst fun r c hr hc => by
    rw [invShiftRowsFn_getElem b r c hr hc, State.slotAt_st_of_memRead hst]⟩

/-! ### One row (R128, R129) -/

/-- A row access reads and writes its own row alone. -/
theorem State.mapRow_ok (s : State) (n : BitVec 4) (f : Nat → Word4 → Word4) (hn : n.toNat ≤ 3) (w : Word4)
    (hw : ∀ c (h : c < 4), s.location .st (4 * c + n.toNat) = some w[c]) :
    ∃ t, s.mapRow n f = .ok t ∧ (∀ c (h : c < 4), slotAt t.st (4 * c + n.toNat) = some (f n.toNat w)[c]) ∧
      ∀ i, i % 4 ≠ n.toNat → t.st[i]? = s.st[i]? := by
  have hlegal : legalRowArg n = true := decide_eq_true hn
  have hread : s.readRow n.toNat = .ok w := (s.readRow_ok_iff _ _ hn).mpr hw
  obtain ⟨t, hwrite, -, hrow, hother⟩ := s.writeRow_ok n.toNat (f n.toNat w) hn
  refine ⟨t, ?_, hrow, hother⟩
  simp only [State.mapRow, hlegal, if_true, hread, bind, Except.bind, hwrite]

/-- A micro-op on row `n` that moves the element of column `src c` to column `c`. -/
theorem exec_moveRow {s : State} {i : Instr} {n : BitVec 4} {f : Nat → Word4 → Word4} {src : Nat → Nat} (hn : n.toNat ≤ 3)
    (hi : exec i s = uop s fun _ => s.mapRow n f) (hc : s.InCommand)
    (hvals : ∀ c, c < 4 → (s.location .st (4 * c + n.toNat)).isSome = true)
    (hf : ∀ (w : Word4) c (_ : c < 4), some (f n.toNat w)[c] = w[src c]?) (hsrc : ∀ c, src c < 4) :
    ∃ t, exec i s = .next t ∧ OnlySTChanged s t ∧
      (∀ c, c < 4 → slotAt t.st (4 * c + n.toNat) = slotAt s.st (4 * src c + n.toNat)) ∧
      ∀ i, i % 4 ≠ n.toNat → t.st[i]? = s.st[i]? := by
  obtain ⟨w, hw⟩ : ∃ w : Word4, ∀ c (h : c < 4), s.location .st (4 * c + n.toNat) = some w[c] :=
    ⟨Vector.ofFn fun c => (s.location .st (4 * c.val + n.toNat)).get (hvals c c.isLt), fun c h => by simp⟩
  obtain ⟨t, hmap, hrow, hother⟩ := s.mapRow_ok n f hn w hw
  have hx := uop_of_ok s t (fun _ => s.mapRow n f) hc hmap
  refine ⟨_, hi.trans hx, uop_onlySTChanged s _ _ (fun _ _ => s.mapRow_frame _ n f) hx, fun c hc => ?_, hother⟩
  rw [hrow c hc, hf w c hc, Vector.getElem?_eq_getElem (hsrc c)]
  exact (hw _ (hsrc c)).symm

theorem rotateRowLeft_getElem (n : Nat) (w : Word4) (c : Nat) (hc : c < 4) :
    some (rotateRowLeft n w)[c] = w[(c + n) % 4]? := by
  simp [rotateRowLeft, Nat.mod_lt]

theorem rotateRowRight_getElem (n : Nat) (hn : n ≤ 3) (w : Word4) (c : Nat) (hc : c < 4) :
    some (rotateRowRight n w)[c] = w[(c + 4 - n) % 4]? := by
  rw [Nat.add_sub_assoc (by omega)]
  simp [rotateRowRight, Nat.mod_lt]

/-- Settles O13: the row is rotated left. -/
theorem shiftRow : Obligations.ShiftRow :=
  ⟨by decide, fun _ n hn hc hvals => exec_moveRow hn rfl hc hvals (rotateRowLeft_getElem n.toNat) fun _ => Nat.mod_lt _ (by decide)⟩

/-- Settles O14: the row is rotated right. -/
theorem invShiftRow : Obligations.InvShiftRow :=
  ⟨by decide, fun _ n hn hc hvals => exec_moveRow hn rfl hc hvals (rotateRowRight_getElem n.toNat hn) fun _ =>
    Nat.mod_lt _ (by decide)⟩

theorem blockRow_mapBlockRow_same (f : Nat → Word4 → Word4) (b : Block) (n : BitVec 4) (hn : n.toNat ≤ 3) :
    blockRow (mapBlockRow f b n) n.toNat = f n.toNat (blockRow b n.toNat) := by
  ext1 c hc
  have hrow : (4 * c + n.toNat) % 4 = n.toNat := by omega
  have hcol : (4 * c + n.toNat) / 4 = c := by omega
  simp only [blockRow_getElem _ _ _ hc (by omega : n.toNat < 4), mapBlockRow_getElem, hrow, hcol, if_true]

theorem mapBlockRow_leftInverse {f g : Nat → Word4 → Word4} {n : BitVec 4} (hn : n.toNat ≤ 3)
    (hgf : Function.LeftInverse (g n.toNat) (f n.toNat)) :
    Function.LeftInverse (fun b => mapBlockRow g b n) (fun b => mapBlockRow f b n) := fun b => by
  ext1 i hi
  rw [mapBlockRow_getElem, blockRow_mapBlockRow_same f b n hn, hgf]
  split
  case isTrue h =>
    rw [blockRow_getElem _ _ _ (by omega) (by omega)]
    congr 1
    omega
  case isFalse h => rw [mapBlockRow_getElem, if_neg h]

theorem rotateRowRight_leftInverse {n : Nat} (hn : n ≤ 3) : Function.LeftInverse (rotateRowRight n) (rotateRowLeft n) := fun w => by
  ext1 c hc
  have hcol : ((c + (4 - n)) % 4 + n) % 4 = c := by omega
  simp only [rotateRowRight, rotateRowLeft, Vector.getElem_ofFn, hcol]

theorem rotateRowLeft_leftInverse {n : Nat} (hn : n ≤ 3) : Function.LeftInverse (rotateRowLeft n) (rotateRowRight n) := fun w => by
  ext1 c hc
  have hcol : ((c + n) % 4 + (4 - n)) % 4 = c := by omega
  simp only [rotateRowRight, rotateRowLeft, Vector.getElem_ofFn, hcol]

/-! ### The columns (R133 to R136) -/

/-- A sum over the four rows of a column. -/
def rowSum (f : Nat → Byte) : Byte := f 0 ^^^ f 1 ^^^ f 2 ^^^ f 3

theorem mixedByte_eq_rowSum (row : Word4) (b : Block) (r c : Nat) :
    mixedByte row b r c = rowSum fun k => galoisMultiply (blockByte b (4 * c + k)) (mixCoefficient row r k) := rfl

theorem IsXtimeLinear.map_rowSum {f : Byte → Byte} (hf : IsXtimeLinear f) (g : Nat → Byte) :
    f (rowSum g) = rowSum fun k => f (g k) := by
  simp only [rowSum, hf.map_xor]

theorem rowSum_congr {f g : Nat → Byte} (h : ∀ k, k < 4 → f k = g k) : rowSum f = rowSum g := by
  simp only [rowSum, h 0 (by decide), h 1 (by decide), h 2 (by decide), h 3 (by decide)]

/-- The order of two sums does not matter. -/
theorem rowSum_comm (f : Nat → Nat → Byte) : (rowSum fun k => rowSum (f k)) = rowSum fun j => rowSum fun k => f k j := by
  simp only [rowSum]
  ac_rfl

/-- A sum with a single term. -/
theorem rowSum_single (f : Nat → Byte) (r : Nat) (hr : r < 4) : (rowSum fun k => if k = r then f k else 0) = f r := by
  interval_cases r <;> simp [rowSum]

/-- `f` multiplies every column by the matrix whose rows are `row` cyclically permuted. -/
def MixesBy (row : Word4) (f : Block → Block) : Prop :=
  ∀ b r c (_ : r < 4) (_ : c < 4), (f b)[4 * c + r] = mixedByte row b r c

/-- The matrix of `row'` times the matrix of `row` is the unit matrix. -/
def InverseRows (row row' : Word4) : Prop :=
  ∀ r < 4, ∀ j < 4, (rowSum fun k => galoisMultiply (mixCoefficient row k j) (mixCoefficient row' r k)) = if j = r then 1 else 0

theorem mapColumns_getElem (f : Word4 → Word4) (b : Block) (r c : Nat) (hr : r < 4) (hc : c < 4) :
    (mapColumns f b)[4 * c + r] = (f (column b ⟨c, hc⟩))[r] := by
  have hrow : (4 * c + r) % 4 = r := by omega
  have hcol : (4 * c + r) / 4 = c := by omega
  simp only [mapColumns, Vector.getElem_ofFn, hrow, hcol]

theorem column_getElem (b : Block) (c : Fin 4) (r : Nat) (hr : r < 4) : (column b c)[r] = blockByte b (4 * c + r) := by
  simp [column, cellIndex, blockByte_eq b (4 * c + r) (by omega)]

theorem mixColumnsFn_mixesBy : MixesBy #v[0x02, 0x03, 0x01, 0x01] mixColumnsFn := fun b r c hr hc => by
  rw [mixColumnsFn, mapColumns_getElem _ b r c hr hc]
  interval_cases r <;> simp [mixCol, column_getElem, mixedByte, mixCoefficient]

theorem invMixColumnsFn_mixesBy : MixesBy #v[0x0e, 0x0b, 0x0d, 0x09] invMixColumnsFn := fun b r c hr hc => by
  rw [invMixColumnsFn, mapColumns_getElem _ b r c hr hc]
  interval_cases r <;> simp [invMixCol, column_getElem, mixedByte, mixCoefficient]

/-- Settles O17: it runs as `mixColumnsFn`. -/
theorem mixColumns : Obligations.MixColumns :=
  ⟨rfl, fun _ b hc hst => (runsAs_mixColumns hc).exec_cells hst fun r c hr hc => congrArg some (mixColumnsFn_mixesBy b r c hr hc)⟩

/-- Settles O18: it runs as `invMixColumnsFn`. -/
theorem invMixColumns : Obligations.InvMixColumns :=
  ⟨rfl, fun _ b hc hst => (runsAs_invMixColumns hc).exec_cells hst fun r c hr hc =>
    congrArg some (invMixColumnsFn_mixesBy b r c hr hc)⟩

/-- A column multiplied by one matrix and then by its inverse: the products associate, and the sums change places. -/
theorem InverseRows.rowSum_rowSum {row row' : Word4} (h : InverseRows row row') (a : Nat → Byte) (r : Nat) (hr : r < 4) :
    (rowSum fun k => galoisMultiply (rowSum fun j => galoisMultiply (a j) (mixCoefficient row k j)) (mixCoefficient row' r k)) =
      a r :=
  calc
    _ = rowSum fun k => rowSum fun j => galoisMultiply (a j) (galoisMultiply (mixCoefficient row k j) (mixCoefficient row' r k)) := by
      simp only [(isXtimeLinear_galoisMultiply_left _).map_rowSum, galoisMultiply_assoc]
    _ = rowSum fun j => galoisMultiply (a j) (rowSum fun k => galoisMultiply (mixCoefficient row k j) (mixCoefficient row' r k)) := by
      rw [rowSum_comm]
      simp only [(isXtimeLinear_galoisMultiply _).map_rowSum]
    _ = rowSum fun j => if j = r then a j else 0 :=
      rowSum_congr fun j hj => by rw [h r hr j hj, apply_ite (galoisMultiply (a j)), galoisMultiply_one, galoisMultiply_zero]
    _ = a r := rowSum_single a r hr

theorem MixesBy.leftInverse {row row' : Word4} {f g : Block → Block} (hf : MixesBy row f) (hg : MixesBy row' g)
    (hinv : InverseRows row row') : Function.LeftInverse g f := by
  have hcell : ∀ b r c (_ : r < 4) (_ : c < 4), (g (f b))[4 * c + r] = b[4 * c + r] := fun b r c hr hc => by
    have hmixed : ∀ k, k < 4 → blockByte (f b) (4 * c + k) = mixedByte row b k c := fun k hk => by
      rw [blockByte_eq _ _ (by omega), hf b k c hk hc]
    rw [hg (f b) r c hr hc, mixedByte_eq_rowSum, rowSum_congr fun k hk => by rw [hmixed k hk, mixedByte_eq_rowSum],
      hinv.rowSum_rowSum (fun j => blockByte b (4 * c + j)) r hr, blockByte_eq]
  intro b
  ext1 i hi
  have hi' : 4 * (i / 4) + i % 4 = i := by omega
  have h := hcell b (i % 4) (i / 4) (by omega) (by omega)
  simpa only [hi'] using h

theorem inverseRows_mix : InverseRows #v[0x02, 0x03, 0x01, 0x01] #v[0x0e, 0x0b, 0x0d, 0x09] := by
  unfold InverseRows
  decide

theorem inverseRows_invMix : InverseRows #v[0x0e, 0x0b, 0x0d, 0x09] #v[0x02, 0x03, 0x01, 0x01] := by
  unfold InverseRows
  decide

/-! ### The round key (R137) -/

theorem addRoundKeyFn_getElem (b k : Block) (i : Nat) (hi : i < 16) : (addRoundKeyFn b k)[i] = b[i] ^^^ k[i] := by
  simp [addRoundKeyFn, xorBytes]

theorem addRoundKeyFn_involutive (k : Block) : Function.Involutive (addRoundKeyFn · k) := fun b => by
  ext1 i hi
  rw [addRoundKeyFn_getElem, addRoundKeyFn_getElem, BitVec.xor_assoc, BitVec.xor_self, BitVec.xor_zero]

/-- Settles O19: it runs as `addRoundKeyFn` with the round key. -/
theorem addRoundKey : Obligations.AddRoundKey :=
  ⟨by decide, fun _ _ _ b k hrun hr hst hk => by
    simpa only [addRoundKeyFn_getElem b k] using (runsAs_addRoundKey hrun hr hk).exec_next hst⟩

/-! ### Inverse pairs and commutations (R138) -/

theorem runUops_row_inverse {s : State} {b : Block} {n : BitVec 4} (hc : s.InCommand) (hn : n.toNat ≤ 3)
    (hst : s.memRead .st 0 16 = .ok b) :
    runUops [.shiftRow n, .invShiftRow n] s = .next { s with upc := s.upc + 2 } ∧
    runUops [.invShiftRow n, .shiftRow n] s = .next { s with upc := s.upc + 2 } := by
  have hleft : RunsAs s (.shiftRow n) _ := runsAs_mapRow hc (f := rotateRowLeft) (fun _ => rfl) hn
  have hright : RunsAs s (.invShiftRow n) _ := runsAs_mapRow hc (f := rotateRowRight) (fun _ => rfl) hn
  exact ⟨hleft.runUops_inverse hright (mapBlockRow_leftInverse hn (rotateRowRight_leftInverse hn)) hst,
    hright.runUops_inverse hleft (mapBlockRow_leftInverse hn (rotateRowLeft_leftInverse hn)) hst⟩

theorem runUops_addRoundKey_twice {s : State} {v : Variant} {r : BitVec 4} {b k : Block} (hrun : s.Running v)
    (hr : r.toNat ≤ v.nr) (hst : s.memRead .st 0 16 = .ok b) (hk : s.memRead .xk (16 * r.toNat) 16 = .ok k) :
    runUops [.addRoundKey r, .addRoundKey r] s = .next { s with upc := s.upc + 2 } :=
  have hkey := runsAs_addRoundKey hrun hr hk
  hkey.runUops_inverse hkey (addRoundKeyFn_involutive k).leftInverse hst

/-- Settles O21: the functions on blocks cancel and commute. -/
theorem inversePairs : Obligations.InversePairs := by
  refine ⟨fun s b i j hc hst hij => ?_, fun _ _ _ hc hn hst => runUops_row_inverse hc hn hst,
    fun _ _ _ _ _ hrun hr hst hk => runUops_addRoundKey_twice hrun hr hst hk, fun s b hc hst => ⟨?_, ?_⟩⟩
  · have hmix := mixColumnsFn_mixesBy
    have hinvMix := invMixColumnsFn_mixesBy
    simp only [List.mem_cons, List.not_mem_nil, or_false, Prod.mk.injEq] at hij
    obtain ⟨rfl, rfl⟩ | ⟨rfl, rfl⟩ | ⟨rfl, rfl⟩ | ⟨rfl, rfl⟩ | ⟨rfl, rfl⟩ | ⟨rfl, rfl⟩ := hij
    · exact (runsAs_subBytes hc).runUops_inverse (runsAs_invSubBytes hc) invSubBytesFn_leftInverse hst
    · exact (runsAs_invSubBytes hc).runUops_inverse (runsAs_subBytes hc) subBytesFn_leftInverse hst
    · exact (runsAs_shiftRows hc).runUops_inverse (runsAs_invShiftRows hc) invShiftRowsFn_leftInverse hst
    · exact (runsAs_invShiftRows hc).runUops_inverse (runsAs_shiftRows hc) shiftRowsFn_leftInverse hst
    · exact (runsAs_mixColumns hc).runUops_inverse (runsAs_invMixColumns hc) (hmix.leftInverse hinvMix inverseRows_mix) hst
    · exact (runsAs_invMixColumns hc).runUops_inverse (runsAs_mixColumns hc) (hinvMix.leftInverse hmix inverseRows_invMix) hst
  · exact (runsAs_subBytes hc).runUops_comm (runsAs_shiftRows hc) subBytesFn_comm_shiftRowsFn hst
  · exact (runsAs_invSubBytes hc).runUops_comm (runsAs_invShiftRows hc) invSubBytesFn_comm_invShiftRowsFn hst

end Sys2Proof.Machine
end

section
/-! PROOF. The round orchestrator's functions (44_round_orchestrator.md): the two whole-block micro-ops leave what `EncryptBlock`
and `DecryptBlock` answer (O26, O27), and these undo each other (O30); with the printed micro-program (O31) and the values at
reset (O50). -/

namespace Sys2Proof.Machine

open Sys2Proof

/-- Settles O31, by the length of the micro-program and its micro-op at each index. -/
theorem microProgramTable : Obligations.MicroProgramTable := fun dir v => ⟨uprog_length dir v, uprog_getElem? dir v⟩

/-- Settles O50: at reset a reset step changes nothing, and it leaves the values of R155. -/
theorem valuesAtReset : Obligations.ValuesAtReset := State.reset.resetStep_valuesOk

/-! ### Round keys of an expanded key (R23) -/

/-- A slice of a byte sequence is answered exactly when the sequence has its bytes. -/
theorem sliceOf_ok_iff (x : List Byte) (a n : Nat) (w : Vector Byte n) :
    sliceOf x a n = .ok w ↔ ∀ k (h : k < n), x[a + k]? = some w[k] := by
  unfold sliceOf exactly
  by_cases hlen : ((x.drop a).take n).length = n
  · have hin : ∀ k, k < n → a + k < x.length := fun k hk => by simp at hlen; omega
    simp only [if_pos hlen, Except.ok.injEq, Vector.ext_iff, Vector.getElem_ofFn]
    refine forall₂_congr fun k hk => ?_
    simp [hk, hin k hk]
  · simp only [if_neg hlen, reduceCtorEq, false_iff]
    intro h
    have hpos : 0 < n := by
      by_contra h0
      exact hlen (by simp; omega)
    obtain ⟨hlast, -⟩ := List.getElem?_eq_some_iff.mp (h (n - 1) (by omega))
    exact hlen (by simp; omega)

theorem State.holds_of_sequence (s : State) (x : List Byte) (hx : ∀ a, a < x.length → s.location .xk a = x[a]?) :
    s.Holds .xk 0 x.length := fun a ha => by
  rw [Nat.zero_add, hx a ha, List.getElem?_eq_getElem ha]
  rfl

/-- Where the store holds a sequence that is long enough for the command, round key `r` is the sequence's. -/
theorem State.roundKey_eq_sliceOf (s : State) (v : Variant) (x : List Byte) (hlen : x.length = v.xklen)
    (hx : ∀ a, a < x.length → s.location .xk a = x[a]?) (r : Nat) (hr : r ≤ v.nr) :
    s.roundKey r = sliceOf x (16 * r) 16 := by
  have hin : 16 * r + 16 ≤ x.length := by rw [hlen, Variant.xklen]; omega
  have hholds : s.Holds .xk 0 v.xklen := hlen ▸ s.holds_of_sequence x hx
  obtain ⟨k, hk⟩ := s.answersKeys v hholds r hr
  obtain ⟨-, hbytes⟩ := (State.memRead_ok_iff _ _ _ _ _).mp hk
  rw [hk, (sliceOf_ok_iff x (16 * r) 16 k).mpr fun j hj => by rw [← hx _ (by omega), hbytes j hj]]

/-- A sequence of `16·(Nr + 1)` bytes has every round key. -/
theorem answersKeys_sliceOf (x : List Byte) (nr : Nat) (hlen : x.length = 16 * (nr + 1)) :
    AnswersKeys (fun r => sliceOf x (16 * r) 16) nr := fun r hr =>
  ⟨Vector.ofFn fun j : Fin 16 => x[16 * r + j.val], (sliceOf_ok_iff _ _ _ _).mpr fun k hk => by simp⟩

/-! ### Either direction -/

/-- The round sequence of a direction (R145, R146). -/
def blockWith (dir : Bool) (key : Nat → Except Refusal Block) (nr : Nat) (b : Block) : Except Refusal Block :=
  if dir then decryptBlockWith key nr b else encryptBlockWith key nr b

/-- `EncryptBlock` or `DecryptBlock`, by the direction (R150). -/
def blockFn (dir : Bool) (b : Block) (x : List Byte) (nr : Nat) : Except Refusal Block :=
  if dir then decryptBlockFn b x nr else encryptBlockFn b x nr

theorem blockFn_eq_blockWith (dir : Bool) (b : Block) (x : List Byte) (nr : Nat) :
    blockFn dir b x nr = blockWith dir (fun r => sliceOf x (16 * r) 16) nr b := by
  cases dir <;> rfl

theorem blockWith_congr (dir : Bool) (key key' : Nat → Except Refusal Block) (nr : Nat) (b : Block)
    (h : ∀ r, r ≤ nr → key r = key' r) : blockWith dir key nr b = blockWith dir key' nr b := by
  cases dir with
  | false => exact encryptBlockWith_congr key key' nr b h
  | true => exact decryptBlockWith_congr key key' nr b h

theorem blockFn_isOk (dir : Bool) (b : Block) (x : List Byte) (nr : Nat) (hlen : x.length = 16 * (nr + 1)) :
    ∃ b', blockFn dir b x nr = .ok b' := by
  have hkeys := answersKeys_sliceOf x nr hlen
  cases dir with
  | false => exact encryptBlockWith_isOk _ nr b hkeys
  | true => exact decryptBlockWith_isOk _ nr b hkeys

/-- The function on an expanded key is the round sequence on the store that holds it. -/
theorem State.blockWith_roundKey (s : State) (v : Variant) (dir : Bool) (b : Block) (x : List Byte) (hlen : x.length = v.xklen)
    (hx : ∀ a, a < x.length → s.location .xk a = x[a]?) : blockWith dir s.roundKey v.nr b = blockFn dir b x v.nr := by
  rw [blockFn_eq_blockWith]
  exact blockWith_congr dir _ _ v.nr b (s.roundKey_eq_sliceOf v x hlen hx)

theorem exec_blockUop_after (dir : Bool) (s : State) (v : Variant) (n : Nat) (b b' : Block) (hrun : s.Running v)
    (h : blockWith dir s.roundKey v.nr b = .ok b') : exec (blockUop dir v.nr) (s.after n b) = .next (s.after (n + 1) b') := by
  cases dir with
  | false => exact exec_encryptBlock_after s v n b b' hrun h
  | true => exact exec_decryptBlock_after s v n b b' hrun h

theorem runUops_blockUops (dir : Bool) (s : State) (v : Variant) (n : Nat) (b b' : Block) (hrun : s.Running v)
    (h : blockWith dir s.roundKey v.nr b = .ok b') :
    runUops (blockUops dir v.nr) (s.after n b) = .next (s.after (n + 4 * v.nr) b') := by
  cases dir with
  | false => exact runUops_encryptBlockUops s v n b b' hrun h
  | true => exact runUops_decryptBlockUops s v n b b' hrun h

/-- A whole-block micro-op leaves in `ST` what the function of its direction answers for `ST` and the expanded key (R150). -/
theorem exec_blockUop_result (dir : Bool) (s : State) (v : Variant) (b : Block) (x : Vector Byte v.xklen) (hrun : s.Running v)
    (hst : s.memRead .st 0 16 = .ok b) (hxk : s.memRead .xk 0 v.xklen = .ok x) :
    ∃ t b', exec (blockUop dir v.nr) s = .next t ∧ blockFn dir b x.toList v.nr = .ok b' ∧
      OnlySTChanged s t ∧ ∀ (i : Nat) (h : i < 16), slotAt t.st i = some b'[i] := by
  have hlen : x.toList.length = v.xklen := Vector.length_toList
  obtain ⟨-, hbytes⟩ := (State.memRead_ok_iff _ _ _ _ _).mp hxk
  have hx : ∀ a, a < x.toList.length → s.location .xk a = x.toList[a]? := fun a ha => by
    simpa [hlen ▸ ha] using hbytes a (hlen ▸ ha)
  obtain ⟨b', hb'⟩ := blockFn_isOk dir b x.toList v.nr hlen
  have hexec := exec_blockUop_after dir s v 0 b b' hrun ((s.blockWith_roundKey v dir b x.toList hlen hx).trans hb')
  rw [← s.eq_after_zero b hst] at hexec
  exact ⟨_, b', hexec, hb', rfl, s.slotAt_after 1 b'⟩

/-- Settles O26, in the direction of `encryptBlock`. -/
theorem encryptBlockResult : Obligations.EncryptBlockResult := exec_blockUop_result false

/-- Settles O27, in the direction of `decryptBlock`. -/
theorem decryptBlockResult : Obligations.DecryptBlockResult := exec_blockUop_result true

/-! ### The two procedures undo each other (R151) -/

theorem invMixColumnsFn_leftInverse : Function.LeftInverse invMixColumnsFn mixColumnsFn :=
  mixColumnsFn_mixesBy.leftInverse invMixColumnsFn_mixesBy inverseRows_mix

theorem mixColumnsFn_leftInverse : Function.LeftInverse mixColumnsFn invMixColumnsFn :=
  invMixColumnsFn_mixesBy.leftInverse mixColumnsFn_mixesBy inverseRows_invMix

/-- The steps of an encryption round before `mixColumns`. -/
def subShiftFn (b : Block) : Block := shiftRowsFn (subBytesFn b)

/-- The steps of a decryption round before `addRoundKey`. -/
def invSubShiftFn (b : Block) : Block := invSubBytesFn (invShiftRowsFn b)

theorem invSubShiftFn_leftInverse : Function.LeftInverse invSubShiftFn subShiftFn := fun b => by
  rw [invSubShiftFn, subShiftFn, invShiftRowsFn_leftInverse, invSubBytesFn_leftInverse]

theorem subShiftFn_leftInverse : Function.LeftInverse subShiftFn invSubShiftFn := fun b => by
  rw [subShiftFn, invSubShiftFn, subBytesFn_leftInverse, shiftRowsFn_leftInverse]

theorem addRoundKeyFn_cancel (b k : Block) : addRoundKeyFn (addRoundKeyFn b k) k = b := addRoundKeyFn_involutive k b

theorem encryptRounds_of_key (key : Nat → Except Refusal Block) (i n : Nat) (b k : Block) (hk : key i = .ok k) :
    encryptRounds key i (n + 1) b = encryptRounds key (i + 1) n (addRoundKeyFn (mixColumnsFn (subShiftFn b)) k) := by
  rw [encryptRounds, hk]
  rfl

theorem decryptRounds_of_key (key : Nat → Except Refusal Block) (n : Nat) (b k : Block) (hk : key (n + 1) = .ok k) :
    decryptRounds key (n + 1) b = decryptRounds key n (invMixColumnsFn (addRoundKeyFn (invSubShiftFn b) k)) := by
  rw [decryptRounds, hk]
  rfl

/-- The decryption rounds unwind encryption rounds, the last one first. The two stand half a round apart: the block handed over
has gone through `subBytes` and `shiftRows` of the next round. -/
theorem decryptRounds_of_encryptRounds (key : Nat → Except Refusal Block) (n i : Nat) (b c : Block)
    (h : encryptRounds key (i + 1) n b = .ok c) :
    decryptRounds key (i + n) (subShiftFn c) = decryptRounds key i (subShiftFn b) := by
  induction n generalizing i b with
  | zero =>
    cases h
    rfl
  | succ n ih =>
    obtain ⟨k, hk, -⟩ := (except_bind_ok_iff _ _ _).mp h
    rw [encryptRounds_of_key key _ n b k hk] at h
    rw [Nat.add_comm n, ← Nat.add_assoc, ih (i + 1) _ h, decryptRounds_of_key key i _ k hk, invSubShiftFn_leftInverse,
      addRoundKeyFn_cancel, invMixColumnsFn_leftInverse]

/-- The encryption rounds unwind decryption rounds, the last one first, half a round apart likewise. -/
theorem encryptRounds_of_decryptRounds (key : Nat → Except Refusal Block) (n m : Nat) (b c : Block)
    (h : decryptRounds key n b = .ok c) :
    encryptRounds key 1 (n + m) (invSubShiftFn c) = encryptRounds key (n + 1) m (invSubShiftFn b) := by
  induction n generalizing m b with
  | zero =>
    cases h
    rw [Nat.zero_add]
  | succ n ih =>
    obtain ⟨k, hk, -⟩ := (except_bind_ok_iff _ _ _).mp h
    rw [decryptRounds_of_key key n b k hk] at h
    rw [Nat.add_assoc, Nat.add_comm 1, ih (m + 1) _ h, encryptRounds_of_key key _ m _ k hk, subShiftFn_leftInverse,
      mixColumnsFn_leftInverse, addRoundKeyFn_cancel]

theorem encryptBlockWith_ok_iff (key : Nat → Except Refusal Block) (nr : Nat) (b e : Block) :
    encryptBlockWith key nr b = .ok e ↔
      ∃ k0, key 0 = .ok k0 ∧ ∃ c, encryptRounds key 1 (nr - 1) (addRoundKeyFn b k0) = .ok c ∧
        ∃ k, key nr = .ok k ∧ addRoundKeyFn (subShiftFn c) k = e := by
  simp only [encryptBlockWith, except_bind_ok_iff, Except.ok.injEq, subShiftFn]

theorem decryptBlockWith_ok_iff (key : Nat → Except Refusal Block) (nr : Nat) (b d : Block) :
    decryptBlockWith key nr b = .ok d ↔
      ∃ k, key nr = .ok k ∧ ∃ c, decryptRounds key (nr - 1) (addRoundKeyFn b k) = .ok c ∧
        ∃ k0, key 0 = .ok k0 ∧ addRoundKeyFn (invSubShiftFn c) k0 = d := by
  simp only [decryptBlockWith, except_bind_ok_iff, Except.ok.injEq, invSubShiftFn]

/-- The decryption sequence undoes the encryption sequence, whatever the round keys are. -/
theorem decryptBlockWith_of_encryptBlockWith (key : Nat → Except Refusal Block) (nr : Nat) (b e : Block)
    (h : encryptBlockWith key nr b = .ok e) : decryptBlockWith key nr e = .ok b := by
  obtain ⟨k0, hk0, c, hrounds, k, hk, rfl⟩ := (encryptBlockWith_ok_iff key nr b e).mp h
  have hback : decryptRounds key (nr - 1) (subShiftFn c) = .ok (subShiftFn (addRoundKeyFn b k0)) := by
    rw [← Nat.zero_add (nr - 1)]
    exact decryptRounds_of_encryptRounds key (nr - 1) 0 _ c hrounds
  rw [← addRoundKeyFn_cancel (subShiftFn c) k] at hback
  refine (decryptBlockWith_ok_iff key nr _ b).mpr ⟨k, hk, _, hback, k0, hk0, ?_⟩
  rw [invSubShiftFn_leftInverse, addRoundKeyFn_cancel]

/-- The encryption sequence undoes the decryption sequence, whatever the round keys are. -/
theorem encryptBlockWith_of_decryptBlockWith (key : Nat → Except Refusal Block) (nr : Nat) (b d : Block)
    (h : decryptBlockWith key nr b = .ok d) : encryptBlockWith key nr d = .ok b := by
  obtain ⟨k, hk, c, hrounds, k0, hk0, rfl⟩ := (decryptBlockWith_ok_iff key nr b d).mp h
  have hback : encryptRounds key 1 (nr - 1) (invSubShiftFn c) = .ok (invSubShiftFn (addRoundKeyFn b k)) :=
    encryptRounds_of_decryptRounds key (nr - 1) 0 _ c hrounds
  rw [← addRoundKeyFn_cancel (invSubShiftFn c) k0] at hback
  refine (encryptBlockWith_ok_iff key nr _ b).mpr ⟨k0, hk0, _, hback, k, hk, ?_⟩
  rw [subShiftFn_leftInverse, addRoundKeyFn_cancel]

/-- Settles O30: a sequence of the right length has every round key, so both procedures answer, and each undoes the other. -/
theorem blockProceduresInverse : Obligations.BlockProceduresInverse := by
  intro b v x hlen
  obtain ⟨e, he⟩ := blockFn_isOk false b x v.nr hlen
  obtain ⟨d, hd⟩ := blockFn_isOk true b x v.nr hlen
  exact ⟨⟨e, he, decryptBlockWith_of_encryptBlockWith _ v.nr b e he⟩, d, hd, encryptBlockWith_of_decryptBlockWith _ v.nr b d hd⟩

end Sys2Proof.Machine
end

section
/-! PROOF. A whole command (44_round_orchestrator.md rule R148, 45_host_commands.md rules R165 to R174; O40): the pure functions
answer by `Expand` and the block functions, and the machine's steps from an accepted start are the micro-ops of the micro-program, up
to what the host drives meanwhile. -/

namespace Sys2Proof.Machine

open Sys2Proof

/-! ### The answer of the pure functions (R170) -/

@[simp] theorem exactly_toList {n : Nat} (w : Vector Byte n) : exactly n w.toList = some w := by
  rw [exactly, if_pos Vector.length_toList, Option.some.injEq]
  ext1 i hi
  simp

/-- For a legal key and a block of the right length the procedure is its routine on the expanded key. -/
theorem cipherFn_eq (routine : Block → List Byte → Nat → Except Refusal Block) (b : Block) (key : List Byte) (v : Variant)
    (h : variantOf key.length = some v) : cipherFn routine b.toList key = answerOf (routine b (expansion v key) v.nr) := by
  simp only [cipherFn, h, exactly_toList, expandFn_eq v key h, bind, Except.bind]

theorem unpack_take {w : Nat} (m n : Nat) (p : BitVec w) (h : m ≤ n) : (unpack n p).toList.take m = (unpack m p).toList := by
  apply List.ext_getElem
  · simp [h]
  · intro i h₁ h₂
    simp

/-- The answer for the values on the ports, in the direction of the command word. -/
theorem commandAnswer_eq (p : Ports) (v : Variant) (hv : commandVariant p.cmd = some v) :
    commandAnswer p =
      answerOf (blockFn (dirField p.cmd) (unpack 16 p.din) (expansion v (unpack v.keySize p.keyIn).toList) v.nr) := by
  have hlen : (keylenField p.cmd).toNat = v.keySize := keySize_of_variantOf _ v hv
  have hkey : variantOf (unpack v.keySize p.keyIn).toList.length = some v := by
    rw [Vector.length_toList, ← hlen]
    exact hv
  have hcipher := fun routine => cipherFn_eq routine (unpack 16 p.din) _ v hkey
  have hle := v.keySize_le
  simp only [commandAnswer, hlen, unpack_take v.keySize 32 p.keyIn hle, encryptFn, decryptFn, hcipher, blockFn]
  cases dirField p.cmd <;> rfl

/-! ### Steps one after another (log 1) -/

/-- A run of one step more is a step and then the run. -/
theorem run_succ_iff (M : Host.Core) (n : Nat) (s t : M.State) :
    M.run (n + 1) s = .next t ↔ ∃ u, M.step s = .next u ∧ M.run n u = .next t := by
  rw [Host.Core.run]
  cases M.step s with
  | next u => simp
  | fault r => simp
  | refused r => simp

theorem run_add_of (M : Host.Core) (m n : Nat) (s t u : M.State) (h : M.run m s = .next t) (h' : M.run n t = .next u) :
    M.run (m + n) s = .next u := by
  induction m generalizing s with
  | zero =>
    cases h
    rwa [Nat.zero_add]
  | succ m ih =>
    obtain ⟨w, hw, h⟩ := (run_succ_iff M m s t).mp h
    rw [Nat.add_right_comm]
    exact (run_succ_iff M _ s u).mpr ⟨w, hw, ih w h⟩

/-- `n` steps lead from `s` to `t`, and a command runs before and after each of them. -/
def BusyRun (n : Nat) (s t : State) : Prop :=
  core.run n s = .next t ∧ ∀ k, k ≤ n → ∃ u, core.run k s = .next u ∧ u.status = Status.accepted

theorem BusyRun.refl (s : State) (h : s.status = Status.accepted) : BusyRun 0 s s :=
  ⟨rfl, fun k hk => ⟨s, by rw [Nat.le_zero.mp hk]; rfl, h⟩⟩

theorem BusyRun.cons {n : Nat} {s t u : State} (hs : s.status = Status.accepted) (hx : step s = .next t) (h : BusyRun n t u) :
    BusyRun (n + 1) s u := by
  obtain ⟨hrun, hbusy⟩ := h
  refine ⟨(run_succ_iff core n s u).mpr ⟨t, hx, hrun⟩, fun k hk => ?_⟩
  cases k with
  | zero => exact ⟨s, rfl, hs⟩
  | succ k =>
    obtain ⟨w, hw, hstatus⟩ := hbusy k (by omega)
    exact ⟨w, (run_succ_iff core k s w).mpr ⟨t, hx, hw⟩, hstatus⟩

theorem BusyRun.trans {m n : Nat} {s t u : State} (h : BusyRun m s t) (h' : BusyRun n t u) : BusyRun (m + n) s u := by
  obtain ⟨hrun, hbusy⟩ := h
  obtain ⟨hrun', hbusy'⟩ := h'
  refine ⟨run_add_of core m n s t u hrun hrun', fun k hk => ?_⟩
  by_cases hkm : k ≤ m
  · exact hbusy k hkm
  · obtain ⟨w, hw, hstatus⟩ := hbusy' (k - m) (by omega)
    have hk' : m + (k - m) = k := by omega
    exact ⟨w, hk' ▸ run_add_of core m (k - m) s t w hrun hw, hstatus⟩

/-! ### A command that is being executed -/

/-- A command of variant `v` runs, `rest` are the micro-ops it still has to execute, the entry point is unused, and the host
drives no reset now or later. -/
structure Executing (v : Variant) (rest : List Instr) (s : State) : Prop where
  running : s.Running v
  status : s.status = Status.accepted
  uopIn : s.uopIn = []
  rst : s.ports.rst = false
  host : ∀ p ∈ s.host, p.rst = false
  program : ∃ done, uprog (dirField s.cmdreg.val) v.nr = done ++ rest ∧ done.length = s.upc

/-- A host that drives no reset later drives none at the next edge (log 2). -/
theorem State.advance_rst (s : State) (h : ∀ p ∈ s.host, p.rst = false) :
    s.advance.ports.rst = false ∧ ∀ p ∈ s.advance.host, p.rst = false := by
  cases hh : s.host with
  | nil =>
    obtain ⟨hports, hhost⟩ := s.advance_ports_nil hh
    simp [hports, hhost]
  | cons p rest =>
    obtain ⟨hports, hhost⟩ := s.advance_ports_cons p rest hh
    simpa [hports, hhost, hh] using h

theorem Executing.step_next {v : Variant} {i : Instr} {rest : List Instr} {s t : State} (h : Executing v (i :: rest) s)
    (hx : exec i s = .next t) : step s = .next t.advance ∧ Executing v rest t.advance := by
  obtain ⟨done, hprogram, hdone⟩ := h.program
  have hi : uprogTable (dirField s.cmdreg.val) v.nr s.upc = some i := by
    rw [← uprog_getElem?, hprogram, ← hdone]
    simp
  obtain ⟨hfetch, hdecode⟩ := fetchIsWired s v i h.running h.uopIn hi
  have hdecode : decodeM (encode i) = some i := hdecode
  obtain ⟨hstatus, hcmd, -, -, hupc, -, hhost, huop, -⟩ := writeTable i s t (decodeM_format _ _ hdecode) hx
  have hstep : step s = .next t.advance := by
    simp only [step_of_busy s h.rst h.running.1.1, hfetch, hdecode, s.takeUop_of_empty h.uopIn, hx, advanced]
  obtain ⟨hrst, hhost'⟩ := t.advance_rst (hhost ▸ h.host)
  refine ⟨hstep, ?_, ?_, ?_, hrst, hhost', done ++ [i], ?_, ?_⟩
  · simpa [State.Running, State.InCommand, hstatus, hcmd] using h.running
  · rw [State.advance_status, hstatus, h.status]
  · rw [State.advance_uopIn, huop, h.uopIn]
  · simpa [hcmd] using hprogram
  · simp [hupc, hdone]

theorem Executing.busyRun_one {v : Variant} {i : Instr} {rest : List Instr} {s t : State} (h : Executing v (i :: rest) s)
    (hx : exec i s = .next t) : BusyRun 1 s t.advance ∧ Executing v rest t.advance := by
  obtain ⟨hstep, hnext⟩ := h.step_next hx
  exact ⟨.cons h.status hstep (.refl _ hnext.status), hnext⟩

/-- With no micro-op left the next step is the completion step (R30). -/
theorem Executing.step_complete {v : Variant} {s : State} (h : Executing v [] s) : step s = .next s.complete.advance := by
  obtain ⟨done, hprogram, hdone⟩ := h.program
  have hupc : s.upc = 4 * v.nr + 3 := by rw [← hdone, ← uprog_length (dirField s.cmdreg.val) v, hprogram, List.append_nil]
  exact step_of_complete s v h.rst h.running hupc

/-! ### The rounds, whatever the host drives meanwhile (R36) -/

theorem SameCore.trans {s t u : State} (h : SameCore s t) (h' : SameCore t u) : SameCore s u := by
  rw [h] at h'
  exact h'

theorem SameCore.location {s u : State} (h : SameCore s u) (sp : Space) (a : Nat) : u.location sp a = s.location sp a := by
  rw [h]
  cases sp <;> rfl

theorem SameCore.running {s u : State} {v : Variant} (h : SameCore s u) (hr : s.Running v) : u.Running v := by
  rw [h]
  exact hr

/-- A round micro-op applies one function to `ST` in every state that shares the command and the store. -/
theorem IsRoundUop.exists_runsAs {v : Variant} {i : Instr} (hi : IsRoundUop v.nr i) (s : State) (hr : s.Running v)
    (hxk : s.Holds .xk 0 v.xklen) : ∃ f, ∀ u, SameCore s u → RunsAs u i f := by
  cases hi with
  | transform h =>
    simp only [List.mem_cons, List.not_mem_nil, or_false] at h
    rcases h with rfl | rfl | rfl | rfl | rfl | rfl
    · exact ⟨_, fun u hu => runsAs_subBytes (hu.running hr).1⟩
    · exact ⟨_, fun u hu => runsAs_invSubBytes (hu.running hr).1⟩
    · exact ⟨_, fun u hu => runsAs_shiftRows (hu.running hr).1⟩
    · exact ⟨_, fun u hu => runsAs_invShiftRows (hu.running hr).1⟩
    · exact ⟨_, fun u hu => runsAs_mixColumns (hu.running hr).1⟩
    · exact ⟨_, fun u hu => runsAs_invMixColumns (hu.running hr).1⟩
  | addRoundKey h =>
    obtain ⟨k, hk⟩ := s.answersKeys v hxk _ h
    exact ⟨_, fun u hu => runsAs_addRoundKey (hu.running hr) h ((State.memRead_congr s u .xk (hu.location .xk) _ _).trans hk)⟩

/-- A round micro-op makes the same block of `ST` in two states that differ in what the host drives. -/
theorem IsRoundUop.exec_sameCore {v : Variant} {i : Instr} (hi : IsRoundUop v.nr i) {s u : State} {b : Block} (hr : s.Running v)
    (hxk : s.Holds .xk 0 v.xklen) (hst : s.memRead .st 0 16 = .ok b) (h : SameCore s u) :
    ∃ b' w, exec i s = .next (s.after 1 b') ∧ exec i u = .next w ∧ SameCore (s.after 1 b') w := by
  obtain ⟨f, hf⟩ := hi.exists_runsAs s hr hxk
  have hs := hf s rfl 0 b
  have hu := hf u h 0 b
  rw [← s.eq_after_zero b hst] at hs
  rw [← u.eq_after_zero b ((State.memRead_congr s u .st (h.location .st) _ _).trans hst)] at hu
  exact ⟨f b, _, hs, hu, by rw [h]; rfl⟩

/-- The machine executes round micro-ops as `runUops` does, up to what the host drives. -/
theorem Executing.run_roundUops {v : Variant} {is rest : List Instr} (his : ∀ i ∈ is, IsRoundUop v.nr i) {s u : State} {b : Block}
    (hr : s.Running v) (hxk : s.Holds .xk 0 v.xklen) (hst : s.memRead .st 0 16 = .ok b) (hu : Executing v (is ++ rest) u)
    (h : SameCore s u) :
    ∃ t w, runUops is s = .next t ∧ BusyRun is.length u w ∧ Executing v rest w ∧ SameCore t w := by
  induction is generalizing s u b with
  | nil => exact ⟨s, u, rfl, .refl u hu.status, hu, h⟩
  | cons i is ih =>
    obtain ⟨hi, his⟩ := List.forall_mem_cons.mp his
    obtain ⟨b', w, hs, hw, hsame⟩ := hi.exec_sameCore hr hxk hst h
    obtain ⟨hstep, hnext⟩ := hu.step_next hw
    have hxk' : (s.after 1 b').Holds .xk 0 v.xklen := hxk.congr fun a => by simp only [State.location, State.after_xk]
    obtain ⟨t, w', hrun, hbusy, hrest, hlast⟩ := ih his (State.running_after hr 1 b') hxk' (s.memRead_after 1 b') hnext
      (hsame.trans (sameCore_advance w))
    exact ⟨t, w', (runUops_cons i is s _ hs).trans hrun, .cons hu.status hstep hbusy, hrest, hlast⟩

/-! ### The whole micro-program (R147) -/

theorem uprog_eq (dir : Bool) (nr : Nat) : uprog dir nr = .expand :: .loadState :: (blockUops dir nr ++ [.storeOut]) := rfl

theorem blockUops_length (dir : Bool) (v : Variant) : (blockUops dir v.nr).length = 4 * v.nr := by
  have h := uprog_length dir v
  simpa [uprog_eq] using h

theorem isRoundUop_of_mem_blockUops (dir : Bool) (v : Variant) (i : Instr) (h : i ∈ blockUops dir v.nr) : IsRoundUop v.nr i := by
  obtain ⟨j, hj, rfl⟩ := List.mem_iff_getElem.mp h
  have hlt : j < 4 * v.nr := blockUops_length dir v ▸ hj
  refine uprogTable_round dir v (j + 2) _ (by omega) (by omega) ?_
  rw [← uprog_getElem?, uprog_eq]
  simp [List.getElem?_append_left hj]

section Segments

variable {v : Variant} {rest : List Instr} {s : State}

theorem Executing.run_expand {key : Vector Byte v.keySize} (h : Executing v (.expand :: rest) s)
    (hkey : s.memRead .keyreg 0 v.keySize = .ok key) :
    ∃ t, BusyRun 1 s t ∧ Executing v rest t ∧ t.memRead .dinreg 0 16 = s.memRead .dinreg 0 16 ∧
      ∀ a, a < (expansion v key.toList).length → t.location .xk a = (expansion v key.toList)[a]? := by
  obtain ⟨t, hx, hexp⟩ := exec_expand_expanded s v key h.running hkey
  obtain ⟨hrun, hrest⟩ := h.busyRun_one hx
  obtain ⟨-, -, -, hdin, -⟩ := writeTable _ s t rfl hx
  refine ⟨t.advance, hrun, hrest, ?_, fun a ha => ?_⟩
  · exact State.memRead_congr _ _ _ (fun a => by simp only [State.location, State.advance_dinreg, hdin]) _ _
  · rw [← hexp.xk a ha]
    simp only [State.location, State.advance_xk]

theorem Executing.run_loadState {b : Block} (h : Executing v (.loadState :: rest) s) (hdin : s.memRead .dinreg 0 16 = .ok b) :
    ∃ t, BusyRun 1 s t ∧ Executing v rest t ∧ t.memRead .st 0 16 = .ok b ∧ ∀ a, t.location .xk a = s.location .xk a := by
  obtain ⟨hrun, hrest⟩ := h.busyRun_one (exec_loadState_next s b h.running.1 hdin)
  refine ⟨_, hrun, hrest, ?_, fun a => by simp only [State.location, State.advance_xk, State.after_xk]⟩
  rw [← s.memRead_after 1 b]
  exact State.memRead_congr _ _ _ (fun a => by simp only [State.location, State.advance_st]) _ _

/-- The round micro-ops make of the block in `ST` what the block function of their direction answers. -/
theorem Executing.run_blockUops {dir : Bool} {b b' : Block} {x : List Byte} (h : Executing v (blockUops dir v.nr ++ rest) s)
    (hlen : x.length = v.xklen) (hx : ∀ a, a < x.length → s.location .xk a = x[a]?) (hst : s.memRead .st 0 16 = .ok b)
    (hb : blockFn dir b x v.nr = .ok b') :
    ∃ t, BusyRun (4 * v.nr) s t ∧ Executing v rest t ∧ t.memRead .st 0 16 = .ok b' := by
  have hholds : s.Holds .xk 0 v.xklen := hlen ▸ s.holds_of_sequence x hx
  have hrun := runUops_blockUops dir s v 0 b b' h.running ((s.blockWith_roundKey v dir b x hlen hx).trans hb)
  rw [← s.eq_after_zero b hst] at hrun
  obtain ⟨t, w, ht, hbusy, hrest, hsame⟩ :=
    Executing.run_roundUops (isRoundUop_of_mem_blockUops dir v) h.running hholds hst h rfl
  obtain rfl : s.after (0 + 4 * v.nr) b' = t := by simpa [hrun] using ht
  rw [blockUops_length] at hbusy
  exact ⟨w, hbusy, hrest, (State.memRead_congr _ w .st (hsame.location .st) _ _).trans (s.memRead_after _ b')⟩

theorem Executing.run_storeOut {b : Block} (h : Executing v (.storeOut :: rest) s) (hst : s.memRead .st 0 16 = .ok b) :
    ∃ t, BusyRun 1 s t ∧ Executing v rest t ∧ ∀ (i : Nat) (hi : i < 16), slotAt t.dout i = some b[i] := by
  obtain ⟨hrun, hrest⟩ := h.busyRun_one (exec_storeOut_next s b h.running.1 hst)
  refine ⟨_, hrun, hrest, fun i hi => ?_⟩
  rw [State.advance_dout, State.store_dout_dout, slotAt_writeSlots _ _ _ _ hi]
  simp [hi]

end Segments

/-- A command with its key in `KEYREG` and its block in `DINREG` ends with the block function's answer in `DOUT`. -/
theorem Executing.run_uprog {v : Variant} {dir : Bool} {s : State} {key : Vector Byte v.keySize} {b : Block}
    (h : Executing v (uprog dir v.nr) s) (hkey : s.memRead .keyreg 0 v.keySize = .ok key)
    (hdin : s.memRead .dinreg 0 16 = .ok b) :
    ∃ b' t, blockFn dir b (expansion v key.toList) v.nr = .ok b' ∧ BusyRun (4 * v.nr + 3) s t ∧ Executing v [] t ∧
      ∀ (i : Nat) (hi : i < 16), slotAt t.dout i = some b'[i] := by
  have hlen : (expansion v key.toList).length = v.xklen := expansion_length v _ (by simp)
  obtain ⟨b', hb⟩ := blockFn_isOk dir b (expansion v key.toList) v.nr hlen
  rw [uprog_eq] at h
  obtain ⟨s₁, hrun₁, h₁, hdin₁, hx₁⟩ := h.run_expand hkey
  obtain ⟨s₂, hrun₂, h₂, hst₂, hx₂⟩ := h₁.run_loadState (hdin₁.trans hdin)
  obtain ⟨s₃, hrun₃, h₃, hst₃⟩ := h₂.run_blockUops hlen (fun a ha => (hx₂ a).trans (hx₁ a ha)) hst₂ hb
  obtain ⟨s₄, hrun₄, h₄, hdout⟩ := h₃.run_storeOut hst₃
  have hcount : 1 + (1 + (4 * v.nr + 1)) = 4 * v.nr + 3 := by omega
  exact ⟨b', s₄, hb, hcount ▸ hrun₁.trans (hrun₂.trans (hrun₃.trans hrun₄)), h₄, hdout⟩

/-! ### The start step (R167) -/

/-- A command's meaning is the start step of its own word. -/
theorem exec_command_eq (i : Instr) (s : State) (hH : i.format = .H) : exec i s = .next (s.startStep (encode i)) := by
  cases i with
  | encrypt k | decrypt k => rfl
  | _ => cases hH

theorem State.startStep_accepted (s : State) (w : Byte) (v : Variant) (hb : s.status.busy = false)
    (hv : commandVariant w = some v) : s.startStep w = s.acceptStart w := by
  simp [State.startStep, hb, hv]

theorem step_of_accepted_start (s : State) (v : Variant) (hr : s.ports.rst = false) (hs : s.ports.start = true)
    (hb : s.status.busy = false) (hv : commandVariant s.ports.cmd = some v) :
    step s = .next (s.acceptStart s.ports.cmd).advance := by
  obtain ⟨hH, -⟩ := decodeH_format_wf s.ports.cmd
  rw [step_of_start s hr hb hs, exec_command_eq _ s hH, encode_decodeH, s.startStep_accepted _ v hb hv]
  rfl

/-- After an accepted start the whole micro-program is still to be executed. -/
theorem executing_of_accepted_start (s : State) (v : Variant) (hv : commandVariant s.ports.cmd = some v) (hu : s.uopIn = [])
    (hhost : ∀ p ∈ s.host, p.rst = false) :
    Executing v (uprog (dirField s.ports.cmd) v.nr) (s.acceptStart s.ports.cmd).advance := by
  obtain ⟨hrst, hhost'⟩ := (s.acceptStart s.ports.cmd).advance_rst (by simpa using hhost)
  refine ⟨⟨⟨?_, ?_⟩, ?_⟩, ?_, ?_, hrst, hhost', [], ?_, ?_⟩
  · simp [Status.accepted]
  · simp [Slot.hold]
  · simpa [Slot.hold] using hv
  · simp
  · simpa using hu
  · simp [Slot.hold]
  · simp

theorem memRead_keyreg_of_accepted_start (s : State) (w : Byte) (n : Nat) (hn : n ≤ 32) :
    (s.acceptStart w).advance.memRead .keyreg 0 n = .ok (unpack n s.ports.keyIn) := by
  refine (State.memRead_ok_iff _ _ _ _ _).mpr ⟨by simp only [Space.size]; omega, fun k hk => ?_⟩
  rw [unpack_getElem, Nat.zero_add, ← s.acceptStart_keyreg_byte w k (by omega)]
  simp only [State.location, State.advance_keyreg]

theorem memRead_dinreg_of_accepted_start (s : State) (w : Byte) :
    (s.acceptStart w).advance.memRead .dinreg 0 16 = .ok (unpack 16 s.ports.din) := by
  refine (State.memRead_ok_iff _ _ _ _ _).mpr ⟨by decide, fun k hk => ?_⟩
  rw [unpack_getElem, Nat.zero_add, ← s.acceptStart_dinreg_byte w k hk]
  simp only [State.location, State.advance_dinreg]

/-- Settles O40: the start step, the micro-program, the completion step. -/
theorem commandEquivalence : Obligations.CommandEquivalence := by
  intro s v hr hs hb hv hu hhost
  have hstart := step_of_accepted_start s v hr hs hb hv
  have hexec := executing_of_accepted_start s v hv hu hhost
  obtain ⟨b, t, hanswer, ⟨hrun, hbusy⟩, hend, hdout⟩ :=
    hexec.run_uprog (memRead_keyreg_of_accepted_start s _ _ v.keySize_le) (memRead_dinreg_of_accepted_start s _)
  refine ⟨b, by rw [commandAnswer_eq s.ports v hv, hanswer]; rfl, fun k hk => ?_, t.complete.advance, ?_, ?_, fun i hi => ?_⟩
  · obtain ⟨u, hu, hstatus⟩ := hbusy k hk
    exact ⟨u, (run_succ_iff core k s u).mpr ⟨_, hstart, hu⟩, hstatus⟩
  · have hlast : core.run 1 t = .next t.complete.advance :=
      (run_succ_iff core 0 t _).mpr ⟨_, hend.step_complete, rfl⟩
    exact (run_succ_iff core (4 * v.nr + 4) s _).mpr ⟨_, hstart, run_add_of core (4 * v.nr + 3) 1 _ t _ hrun hlast⟩
  · simp [hend.status, Status.completed, Status.accepted]
  · rw [State.advance_dout, State.complete_dout]
    exact hdout i hi

end Sys2Proof.Machine
end

section
/-! PROOF. The pure functions `Encrypt` and `Decrypt` (45_host_commands.md rules R170, R171, R190): what they answer when a length is
wrong (O37), that each undoes the other (O38), and the known-answer vector (O39). -/

namespace Sys2Proof.Machine

open Sys2Proof

/-! ### Legal and illegal key lengths (R2, R186) -/

theorem variantOf_eq_none_iff (n : Nat) : variantOf n = none ↔ n ≠ 16 ∧ n ≠ 24 ∧ n ≠ 32 := by
  unfold variantOf
  split
  case h_4 h16 h24 h32 => exact iff_of_true rfl ⟨h16, h24, h32⟩
  all_goals simp

theorem expansion_length_of_legal {v : Variant} {key : List Byte} (h : variantOf key.length = some v) :
    (expansion v key).length = 16 * (v.nr + 1) := expansion_length v key (keySize_of_variantOf _ v h)

/-! ### The procedure of R170, case by case in the order of R190 -/

theorem cipherFn_of_illegal_key (routine : Block → List Byte → Nat → Except Refusal Block) (input key : List Byte)
    (h : variantOf key.length = none) : cipherFn routine input key = .fault .invalidKeySize := by
  simp only [cipherFn, h]

theorem cipherFn_of_illegal_block (routine : Block → List Byte → Nat → Except Refusal Block) (input key : List Byte) {v : Variant}
    (h : variantOf key.length = some v) (hlen : input.length ≠ 16) :
    cipherFn routine input key = .fault .invalidBlockLength := by
  simp only [cipherFn, h, exactly, if_neg hlen]

theorem cipherFn_next {routine : Block → List Byte → Nat → Except Refusal Block} {b b' : Block} {key : List Byte} {v : Variant}
    (h : variantOf key.length = some v) (hb : routine b (expansion v key) v.nr = .ok b') :
    cipherFn routine b.toList key = .next b' := by
  rw [cipherFn_eq routine b key v h, hb]
  rfl

/-- A sequence of the length of a block is a block's bytes. -/
theorem exists_toList_eq {n : Nat} (l : List Byte) (h : l.length = n) : ∃ b : Vector Byte n, b.toList = l :=
  ⟨⟨l.toArray, h⟩, rfl⟩

/-- Settles O37, case by case: a legal key expands to enough round keys for either direction. -/
theorem pureErrors : Obligations.PureErrors := by
  intro input key
  refine ⟨fun h => ⟨cipherFn_of_illegal_key _ _ _ h, cipherFn_of_illegal_key _ _ _ h⟩, fun h hlen => ?_, fun h hlen => ?_⟩
  · obtain ⟨v, hv⟩ := Option.ne_none_iff_exists'.mp h
    exact ⟨cipherFn_of_illegal_block _ _ _ hv hlen, cipherFn_of_illegal_block _ _ _ hv hlen⟩
  · obtain ⟨v, hv⟩ := Option.ne_none_iff_exists'.mp h
    obtain ⟨b, rfl⟩ := exists_toList_eq input hlen
    obtain ⟨e, he⟩ := blockFn_isOk false b _ v.nr (expansion_length_of_legal hv)
    obtain ⟨d, hd⟩ := blockFn_isOk true b _ v.nr (expansion_length_of_legal hv)
    exact ⟨⟨e, cipherFn_next hv he⟩, d, cipherFn_next hv hd⟩

/-- Settles O38: the two block procedures undo each other on the key's expansion (R151). -/
theorem roundTrip : Obligations.RoundTrip := by
  intro p key h
  obtain ⟨v, hv⟩ := Option.ne_none_iff_exists'.mp h
  obtain ⟨⟨e, he, hback⟩, d, hd, hforth⟩ := blockProceduresInverse p v _ (expansion_length_of_legal hv)
  exact ⟨⟨e, cipherFn_next hv he, cipherFn_next hv hback⟩, d, cipherFn_next hv hd, cipherFn_next hv hforth⟩

/-! ### The vector S1 (95_test_vectors.md) -/

/-- The key of S1, key A of 95_test_vectors.md section 2.3. -/
def vectorKey : List Byte := [0x00, 0x01, 0x02, 0x03, 0x04, 0x05, 0x06, 0x07, 0x08, 0x09, 0x0a, 0x0b, 0x0c, 0x0d, 0x0e, 0x0f]

/-- The expanded key of S1 as section 2.3 prints it: the key, and then one line for each round key. -/
def vectorExpandedKey : List Byte := vectorKey ++
  [0xd6, 0xaa, 0x74, 0xfd, 0xd2, 0xaf, 0x72, 0xfa, 0xda, 0xa6, 0x78, 0xf1, 0xd6, 0xab, 0x76, 0xfe,
   0xb6, 0x92, 0xcf, 0x0b, 0x64, 0x3d, 0xbd, 0xf1, 0xbe, 0x9b, 0xc5, 0x00, 0x68, 0x30, 0xb3, 0xfe,
   0xb6, 0xff, 0x74, 0x4e, 0xd2, 0xc2, 0xc9, 0xbf, 0x6c, 0x59, 0x0c, 0xbf, 0x04, 0x69, 0xbf, 0x41,
   0x47, 0xf7, 0xf7, 0xbc, 0x95, 0x35, 0x3e, 0x03, 0xf9, 0x6c, 0x32, 0xbc, 0xfd, 0x05, 0x8d, 0xfd,
   0x3c, 0xaa, 0xa3, 0xe8, 0xa9, 0x9f, 0x9d, 0xeb, 0x50, 0xf3, 0xaf, 0x57, 0xad, 0xf6, 0x22, 0xaa,
   0x5e, 0x39, 0x0f, 0x7d, 0xf7, 0xa6, 0x92, 0x96, 0xa7, 0x55, 0x3d, 0xc1, 0x0a, 0xa3, 0x1f, 0x6b,
   0x14, 0xf9, 0x70, 0x1a, 0xe3, 0x5f, 0xe2, 0x8c, 0x44, 0x0a, 0xdf, 0x4d, 0x4e, 0xa9, 0xc0, 0x26,
   0x47, 0x43, 0x87, 0x35, 0xa4, 0x1c, 0x65, 0xb9, 0xe0, 0x16, 0xba, 0xf4, 0xae, 0xbf, 0x7a, 0xd2,
   0x54, 0x99, 0x32, 0xd1, 0xf0, 0x85, 0x57, 0x68, 0x10, 0x93, 0xed, 0x9c, 0xbe, 0x2c, 0x97, 0x4e,
   0x13, 0x11, 0x1d, 0x7f, 0xe3, 0x94, 0x4a, 0x17, 0xf3, 0x07, 0xa7, 0x8b, 0x4d, 0x2b, 0x30, 0xc5]

theorem expansion_vector : expansion .key16 vectorKey = vectorExpandedKey := by decide +kernel

/-- The plaintext of S1. -/
def vectorInput : Block :=
  #v[0x00, 0x11, 0x22, 0x33, 0x44, 0x55, 0x66, 0x77, 0x88, 0x99, 0xaa, 0xbb, 0xcc, 0xdd, 0xee, 0xff]

theorem encryptBlockFn_vector : encryptBlockFn vectorInput vectorExpandedKey 10 =
    .ok #v[0x69, 0xc4, 0xe0, 0xd8, 0x6a, 0x7b, 0x04, 0x30, 0xd8, 0xcd, 0xb7, 0x80, 0x70, 0xb4, 0xc5, 0x5a] := by
  decide +kernel

/-- Settles O39: the key schedule and then the ten rounds, each by evaluation. -/
theorem knownAnswer : Obligations.KnownAnswer := by
  have hv : variantOf vectorKey.length = some .key16 := rfl
  exact cipherFn_next (b := vectorInput) hv (expansion_vector ▸ encryptBlockFn_vector)

end Sys2Proof.Machine
end

section
/-! PROOF. The start step of the two commands (45_host_commands.md rules R165 to R168, R177; O32, O33, O34) and the two block copies
(R172, R173; O35, O36). -/

namespace Sys2Proof.Machine

open Sys2Proof

/-! ### A command word (R71) -/

/-- A command is decoded from its own word, which selects the variant of its operand. -/
theorem command_word {i : Instr} {keylen : BitVec 7} (h : i = .encrypt keylen ∨ i = .decrypt keylen) :
    i.format = .H ∧ decodeH (encode i) = i ∧ commandVariant (encode i) = variantOf keylen.toNat := by
  rcases h with rfl | rfl <;> simp [Instr.format, encode, decodeH, commandVariant]

theorem exists_variantOf_keylen {keylen : BitVec 7} (h : keylen = 16 ∨ keylen = 24 ∨ keylen = 32) :
    ∃ v, variantOf keylen.toNat = some v := by
  rcases h with rfl | rfl | rfl
  · exact ⟨.key16, rfl⟩
  · exact ⟨.key24, rfl⟩
  · exact ⟨.key32, rfl⟩

theorem variantOf_keylen_eq_none {keylen : BitVec 7} (h16 : keylen ≠ 16) (h24 : keylen ≠ 24) (h32 : keylen ≠ 32) :
    variantOf keylen.toNat = none :=
  (variantOf_eq_none_iff _).mpr ⟨fun h => h16 (BitVec.eq_of_toNat_eq h), fun h => h24 (BitVec.eq_of_toNat_eq h),
    fun h => h32 (BitVec.eq_of_toNat_eq h)⟩

/-! ### The start step -/

theorem State.startStep_rejected (s : State) (w : Byte) (hb : s.status.busy = false) (hv : commandVariant w = none) :
    s.startStep w = { s with status := ⟨false, true, 1⟩ } := by
  simp [State.startStep, hb, hv, State.raise, Status.rejected, Fault.code]

theorem State.startStep_busy (s : State) (w : Byte) (hb : s.status.busy = true) : s.startStep w = s := by
  simp [State.startStep, hb]

/-- No start step writes `DOUT`. -/
theorem State.startStep_dout (s : State) (w : Byte) : (s.startStep w).dout = s.dout := by
  unfold State.startStep
  split
  · rfl
  · split
    · exact s.acceptStart_dout w
    · exact s.raise_dout _

/-- The machine takes the start step of the command on port `cmd`; only the ports move on (R32, R167). -/
theorem step_of_command {s : State} {i : Instr} (hH : i.format = .H) (hd : decodeH (encode i) = i) (hb : s.status.busy = false)
    (hr : s.ports.rst = false) (hs : s.ports.start = true) (hcmd : s.ports.cmd = encode i) :
    ∃ u, step s = .next u ∧ SameCore (s.startStep (encode i)) u := by
  refine ⟨_, ?_, sameCore_advance _⟩
  rw [step_of_start s hr hb hs, hcmd, hd, exec_command_eq i s hH]
  rfl

/-- Settles O32: a legal key length selects a variant, so the start step is the accepted one. -/
theorem acceptedStart : Obligations.AcceptedStart := by
  intro s i keylen hi hb hk
  obtain ⟨hH, hd, hvar⟩ := command_word hi
  obtain ⟨v, hv⟩ := exists_variantOf_keylen hk
  have haccept := s.startStep_accepted (encode i) v hb (hvar.trans hv)
  rw [exec_command_eq i s hH, haccept]
  refine ⟨_, rfl, s.acceptStart_cmdreg _, s.acceptStart_keyreg_byte _, s.acceptStart_dinreg_byte _, rfl, fun hr hs hcmd => ?_⟩
  exact haccept ▸ step_of_command hH hd hb hr hs hcmd

/-- Settles O33: any other key length selects no variant, so the start step raises `InvalidKeySize`. -/
theorem rejectedStart : Obligations.RejectedStart := by
  intro s i keylen hi hb h16 h24 h32
  obtain ⟨hH, hd, hvar⟩ := command_word hi
  have hreject := s.startStep_rejected (encode i) hb (hvar.trans (variantOf_keylen_eq_none h16 h24 h32))
  rw [exec_command_eq i s hH, hreject]
  exact ⟨rfl, fun hr hs hcmd => hreject ▸ step_of_command hH hd hb hr hs hcmd⟩

/-! ### `start` while a command runs (R177) -/

/-- What the ports become at the next edge depends on the ports and the host alone (log 2). -/
theorem State.advance_ports_congr {s t : State} (hports : t.ports = s.ports) (hhost : t.host = s.host) :
    t.advance.ports = s.advance.ports := by
  unfold State.advance
  rw [hhost, hports]
  cases s.host <;> rfl

/-- After a step of a running command the ports are what the host drives next, whatever the step did. -/
theorem ports_of_busy_step (s t : State) (hr : s.ports.rst = false) (hb : s.status.busy = true) (h : step s = .next t) :
    t.ports = s.advance.ports := by
  rcases step_next_cases s t h with ⟨hr', -⟩ | ⟨-, hb', -⟩ | ⟨-, hb', -⟩ | ⟨-, -, -, rfl⟩ | ⟨-, -, w, i, u, -, hd, hx, rfl⟩
  · simp [hr] at hr'
  · simp [hb] at hb'
  · simp [hb] at hb'
  · exact State.advance_ports_congr s.complete_ports s.complete_host
  · obtain ⟨-, -, -, -, -, hports, hhost, -⟩ := writeTable i s.takeUop u (decodeM_format w i hd) hx
    exact State.advance_ports_congr (hports.trans s.takeUop_ports) (hhost.trans s.takeUop_host)

/-- While a command runs, port values that lead to the same ports at the next edge make the same step. -/
theorem step_withPorts_eq (s : State) (p : Ports) (hb : s.status.busy = true) (hr : s.ports.rst = false) (hp : p.rst = false)
    (hnext : (s.withPorts p).advance.ports = s.advance.ports) : step (s.withPorts p) = step s := by
  obtain ⟨y, hy, hy'⟩ := step_withPorts s p hb hr hp
  rw [hy, hy']
  cases y with
  | next u =>
    have hports : (u.withPorts p).advance.ports = u.advance.ports :=
      calc (u.withPorts p).advance.ports
          = (s.withPorts p).advance.ports := ports_of_busy_step _ _ hp hb hy'
        _ = s.advance.ports := hnext
        _ = u.advance.ports := (ports_of_busy_step _ _ hr hb hy).symm
    rw [resultWithPorts, advanced, advanced, ← u.advance_withPorts p, ← hports]
  | fault r | refused r => rfl

/-- Port `start` has no effect on the step of a running command: at the next edge it is driven anew or falls (log 2). -/
theorem step_withStart (s : State) (x : Bool) (hb : s.status.busy = true) (hr : s.ports.rst = false) :
    step { s with ports := { s.ports with start := x } } = step s := by
  refine step_withPorts_eq s { s.ports with start := x } hb hr hr ?_
  unfold State.advance State.withPorts
  cases s.host <;> rfl

/-- Settles O34: busy, reset and idle in turn. -/
theorem ignoredStart : Obligations.IgnoredStart := by
  refine ⟨fun s i hH hb => ?_, fun s hb hr => ?_, step_of_rst, step_of_idle⟩
  · rw [exec_command_eq i s hH, s.startStep_busy _ hb]
  · exact (step_withStart s true hb hr).trans (step_withStart s false hb hr).symm

/-! ### The two block copies -/

/-- Settles O35, from the state `loadState` leaves. -/
theorem loadState : Obligations.LoadState :=
  ⟨rfl, fun s b hc h => ⟨_, exec_loadState_next s b hc h, rfl, s.slotAt_after 1 b⟩⟩

theorem uprog_getLast? (dir : Bool) (nr : Nat) : (uprog dir nr).getLast? = some .storeOut := by
  rw [uprog, List.getLast?_append, List.getLast?_singleton, Option.some_or]

/-- Only `storeOut` writes `DOUT` (R173, R34). -/
theorem exec_dout {i : Instr} {s t : State} (hx : exec i s = .next t) (hi : i ≠ .storeOut) : t.dout = s.dout := by
  cases hf : i.format with
  | M =>
    obtain ⟨-, -, -, -, -, -, -, -, -, -, hdout, -⟩ := writeTable i s t hf hx
    exact hdout hi
  | H =>
    rw [exec_command_eq i s hf] at hx
    cases hx
    exact s.startStep_dout _

theorem State.slotAt_store_dout (s : State) (b : Block) (i : Nat) (h : i < 16) :
    slotAt (s.store .dout 0 b).dout i = some b[i] := by
  rw [State.store_dout_dout, slotAt_writeSlots _ _ _ _ h]
  simp [h]

/-- Settles O36: the last word of the micro-program, the only writer, and the state it leaves. -/
theorem storeOut : Obligations.StoreOut := by
  refine ⟨rfl, fun dir v => uprog_getLast? dir v.nr, fun i s t => exec_dout, fun s b hc hst => ?_⟩
  have hx := exec_storeOut_next s b hc hst
  exact ⟨_, hx, exec_storeOut_frame s _ hx, s.slotAt_store_dout b⟩

end Sys2Proof.Machine
end

section
/-! PROOF. No instruction and no step answers a Fault: the core's one error is answered as a next state (log 16; R188, R191, R201;
O51). -/

namespace Sys2Proof.Machine

open Sys2Proof

/-- A micro-op never faults (R188), and a command always answers a next state, rejected or not (R191). -/
theorem exec_ne_fault (i : Instr) (s : State) (r : Fault) : exec i s ≠ .fault r := by
  cases hf : i.format with
  | M =>
    obtain ⟨body, hx⟩ := exec_eq_uop i s hf
    rw [hx]
    exact uop_ne_fault s body r
  | H =>
    rw [exec_command_eq i s hf]
    exact nofun

/-- The clock edge that passes makes no fault. -/
theorem advanced_ne_fault {x : Result} {r : Fault} (h : x ≠ .fault r) : advanced x ≠ .fault r := by
  cases x with
  | fault r' => exact h
  | next t | refused r' => exact nofun

/-- Of the actions at a clock edge only an instruction's run has an outcome that is not fixed by the action. -/
theorem step_ne_fault (s : State) (r : Fault) : step s ≠ .fault r := by
  unfold step
  cases s.action with
  | run i t => exact advanced_ne_fault (exec_ne_fault i t r)
  | reset | complete | idle | refuse r' => exact nofun

/-- Settles O51: the step by `step_ne_fault`, the instructions by `exec_ne_fault`. -/
theorem neverFaults : Obligations.NeverFaults :=
  fun s r => ⟨step_ne_fault s r, fun i => exec_ne_fault i s r⟩

end Sys2Proof.Machine
end
